-- ==== Sys2Proof/Word.lean ====
section
/-! DEFINITION. The word types of the DJE-8: an 8-bit data path and a 16-bit address path
(00_scope.md R8 `DATA_BITS`, `ADDR_BITS`; R9 bit numbering: bit 0 is the least significant). -/

namespace Sys2Proof

/-- A byte: data path, `A`, `B`, `IR`, `FLAGS`, data bus and one cell of `MEM` (R8, R20). -/
abbrev Byte := BitVec 8

/-- A 16-bit value: `PC`, `MAR`, `SP`, address bus (R8, R20). -/
abbrev Word := BitVec 16

end Sys2Proof
end

