-- ==== Sys2Proof/Config.lean ====
section
/-! DEFINITION. The configuration of the machine: every parameter of 00_scope.md R8 that is not a width or a
size, those marked "decided" each as a field of `Config`, and the types they need. A configuration is
fixed before the first micro-step and no state (R20). The spec's values are in Machine/Parameters.lean. -/

namespace Sys2Proof

/-! ### Names -/

/-- The mnemonics of the opcode map (R74), the names of its rows without operands. -/
inductive Mnemonic where
  /-- LODI. -/
  | lodi
  /-- LODA. -/
  | loda
  /-- LODN. -/
  | lodn
  /-- STOA. -/
  | stoa
  /-- STON. -/
  | ston
  /-- ADDI. -/
  | addi
  /-- ADDA. -/
  | adda
  /-- SUBI. -/
  | subi
  /-- SUBA. -/
  | suba
  /-- ADCI. -/
  | adci
  /-- ADCA. -/
  | adca
  /-- SBCI. -/
  | sbci
  /-- SBCA. -/
  | sbca
  /-- CMPI. -/
  | cmpi
  /-- CMPA. -/
  | cmpa
  /-- INC. -/
  | inc
  /-- DEC. -/
  | dec
  /-- NEG. -/
  | neg
  /-- ANDI. -/
  | andi
  /-- ANDA. -/
  | anda
  /-- ORI. -/
  | ori
  /-- ORA. -/
  | ora
  /-- NOT. -/
  | not
  /-- BCS. -/
  | bcs
  /-- BEQ. -/
  | beq
  /-- BNE. -/
  | bne
  /-- BCC. -/
  | bcc
  /-- BMI. -/
  | bmi
  /-- BPL. -/
  | bpl
  /-- BVS. -/
  | bvs
  /-- BVC. -/
  | bvc
  /-- JMP. -/
  | jmp
  /-- PSHA. -/
  | psha
  /-- POPA. -/
  | popa
  /-- HALT. -/
  | halt
deriving DecidableEq, Repr

/-- The named signals of a control word (R100). -/
inductive Signal where
  /-- Phase 1: `ABUS <- PC`. -/
  | pco
  /-- Phase 1: `ABUS <- SP`. -/
  | spo
  /-- Phase 1: `ABUS <- MemRead(MAR, 2)`. -/
  | mao
  /-- Phase 2: `DBUS <- A`. -/
  | ao
  /-- Phase 2: `DBUS <- MemRead(MAR, 1)`. -/
  | mo
  /-- Phase 4: `PC <- ABUS`. -/
  | pci
  /-- Phase 4: `MAR <- ABUS`. -/
  | mi
  /-- Phase 4: `MemWrite(MAR, 1, DBUS)`. -/
  | mw
  /-- Phase 5: `A <- DBUS`. -/
  | ai
  /-- Phase 5: `B <- DBUS`. -/
  | bi
  /-- Phase 5: `IR <- DBUS`. -/
  | ii
  /-- Phase 5: `PC[15:8] <- DBUS`. -/
  | pchi
  /-- Phase 5: `PC[7:0] <- DBUS`. -/
  | pcli
  /-- Phase 6: `PC` delta +1. -/
  | pcinc1
  /-- Phase 6: `PC` delta +2. -/
  | pcinc2
  /-- Phase 6: `PC` delta -1. -/
  | pcdec1
  /-- Phase 6: `PC` delta -2. -/
  | pcdec2
  /-- Phase 6: `MAR` delta +1. -/
  | mainc1
  /-- Phase 6: `MAR` delta +2. -/
  | mainc2
  /-- Phase 6: `MAR` delta -1. -/
  | madec1
  /-- Phase 6: `MAR` delta -2. -/
  | madec2
  /-- Phase 6: `SP` delta +1. -/
  | spinc1
  /-- Phase 6: `SP` delta +2. -/
  | spinc2
  /-- Phase 6: `SP` delta -1. -/
  | spdec1
  /-- Phase 6: `SP` delta -2. -/
  | spdec2
  /-- Phase 7: `STEP <- 0`. -/
  | sr
  /-- Before phase 0: `RUN <- halted`. -/
  | hlt
deriving DecidableEq, Repr

/-- The named bits of `FLAGS` (R33). -/
inductive Flag where
  /-- Overflow. -/
  | v
  /-- Negative. -/
  | n
  /-- Carry; after a subtraction, borrow. -/
  | c
  /-- Zero. -/
  | z
  /-- Interrupt, never written (R36). -/
  | i
deriving DecidableEq, Repr

/-- The named ALU modes (R161). -/
inductive AluMode where
  /-- Pass-through (R163). -/
  | nop
  /-- `A & B` (R164). -/
  | and
  /-- `A | B` (R165). -/
  | or
  /-- `~A` (R166). -/
  | not
  /-- `A + B` (R168). -/
  | add
  /-- `A - B` (R169). -/
  | sub
  /-- `A + B + C` (R174). -/
  | adc
  /-- `A - B - C` (R175). -/
  | sbc
  /-- `0 - A` (R176). -/
  | neg
  /-- `A + 1` (R177). -/
  | inc
  /-- `A - 1` (R178). -/
  | dec
  /-- Flags of `A - B`, no result (R179). -/
  | cmp
deriving DecidableEq, Repr

/-- A micro-instruction as R116 writes it: an ALU mode and a set of signals. Its bits are `controlWord`. -/
structure MicroWord where
  /-- The ALU mode, `nop` where R116 names none. -/
  alu : AluMode
  /-- The signals asserted. -/
  signals : List Signal
deriving DecidableEq, Repr

/-! ### Values of single parameters -/

/-- `ADD_Z_RULE`: from what the zero flag of an addition is computed (R170, D7, conflict C1). -/
inductive AddZRule where
  /-- `Z` from the truncated 8-bit result, the default. -/
  | truncated
  /-- `Z` from the untruncated nine-bit sum. -/
  | fullSum
deriving DecidableEq, Repr

/-- `SUB_V_RULE`: the overflow flag of a subtraction (R171, R172, D8, conflict C8). -/
inductive SubVRule where
  /-- Signed overflow of `op1 - op2 - cin`, the default (R171). -/
  | signed
  /-- The predicate of the addition applied unchanged (R172). -/
  | addShape
deriving DecidableEq, Repr

/-- `DBUS_IDLE`: when the data bus returns to 0xFF (R42, R135, D2). -/
inductive DbusIdle where
  /-- At the start of every micro-step that applies signals, the default. -/
  | everyStep
  /-- At reset only; afterwards the bus keeps its last value until driven. -/
  | resetOnly
deriving DecidableEq, Repr

/-- A register an ALU operand can be taken from (R160, D6). -/
inductive AluSource where
  /-- The accumulator `A`. -/
  | accumulator
  /-- The internal register `B`. -/
  | internal
deriving DecidableEq, Repr

/-- The byte order of the two-byte address read (`LITTLE_ENDIAN`, R52, D9). -/
inductive ByteOrder where
  /-- Low byte at the lower address, the spec's value. -/
  | little
  /-- High byte at the lower address. -/
  | big
deriving DecidableEq, Repr

/-- When an undefined opcode byte faults (R76, R265, D15). A look-up with one in `IR` faults under both. -/
inductive UndefinedOpcodeRule where
  /-- At the look-up and not before, the spec's value. -/
  | atLookUp
  /-- Already in the micro-step that would latch it into `IR`. DESIGN CHOICE of detail (log entry 16). -/
  | atLatch
deriving DecidableEq, Repr

/-- The reset value of every register, bus and counter (R44, D20). -/
structure ResetValues where
  /-- `PC`. -/
  pc : Word
  /-- `MAR`. -/
  mar : Word
  /-- `SP`. -/
  sp : Word
  /-- `IR`. -/
  ir : Byte
  /-- `A`. -/
  a : Byte
  /-- `B`. -/
  b : Byte
  /-- `FLAGS`. -/
  flags : Byte
  /-- `ABUS`. -/
  abus : Word
  /-- `DBUS`. -/
  dbus : Byte
  /-- `STEP`. -/
  stepCounter : BitVec 4
deriving DecidableEq, Repr

/-! ### The record -/

/-- The parameters the spec leaves OPEN with a default (92_eei_decisions.md D2, D7, D8). -/
structure OpenParameters where
  /-- `ADD_Z_RULE`. -/
  addZRule : AddZRule
  /-- `SUB_V_RULE`. -/
  subVRule : SubVRule
  /-- `DBUS_IDLE`. -/
  dbusIdle : DbusIdle
deriving DecidableEq, Repr

/-- Every parameter of R8 whose value is decided, one field each. -/
structure Config extends OpenParameters where
  /-- The bit of each flag in `FLAGS` (D1). -/
  flagBit : Flag → Nat
  /-- The bit of each control signal in the control word (D3). -/
  signalBit : Signal → Nat
  /-- The lowest bit of the control word's four-bit ALU field (D3). -/
  aluFieldBit : Nat
  /-- The net delta that a register's four increment and decrement bits (`INC1 INC2 DEC1 DEC2`) encode (D4). -/
  deltaOfBits : Bool → Bool → Bool → Bool → Int
  /-- The code of each ALU mode (D5). A code that no mode has is reserved. -/
  aluCode : AluMode → BitVec 4
  /-- The ALU's first operand `op1` (D6). -/
  aluOp1 : AluSource
  /-- The ALU's second operand `op2`, in the two-operand modes (D6). -/
  aluOp2 : AluSource
  /-- The byte order of an address in memory, `LITTLE_ENDIAN` (D9). -/
  byteOrder : ByteOrder
  /-- The defined opcodes (D10). `N_OPCODES` is their number. -/
  opcodes : List Mnemonic
  /-- The opcode byte of each mnemonic (D10). -/
  opcodeByte : Mnemonic → Byte
  /-- The micro-program of each opcode, from step 2 on (D11, D12). -/
  execute : Mnemonic → List MicroWord
  /-- `PC`, `MAR` or `SP` after a delta: the register wrap (D13). -/
  registerAdd : Word → Int → Word
  /-- When an undefined opcode faults (D15). -/
  undefinedOpcode : UndefinedOpcodeRule
  /-- The reset values (D20). -/
  reset : ResetValues

namespace Config

/-- `N_OPCODES` (R8). -/
def nOpcodes (cfg : Config) : Nat := cfg.opcodes.length

end Config

end Sys2Proof
end

