-- ==== Sys2Proof/Machine/Parameters.lean ====
section
/-! DEFINITION. The spec's values of the parameters of 00_scope.md R8 (92_eei_decisions.md), one definition
for each table, and `config`, the configuration of the machine that runs. UNVERIFIED for the real
DJE-8 (log entries 7, 8, 9). -/

namespace Sys2Proof.Machine

/-- The bit of each flag (R33, D1). -/
def flagBits : Flag → Nat
  | .v => 0
  | .n => 1
  | .c => 2
  | .z => 3
  | .i => 4

/-- The bit of each signal (R100, D3); bits 8:5 are the ALU field and bit 29 is reserved (R102, R103). -/
def signalBits : Signal → Nat
  | .pco => 0
  | .spo => 1
  | .mao => 2
  | .ao => 3
  | .mo => 4
  | .pci => 9
  | .mi => 10
  | .mw => 11
  | .ai => 12
  | .bi => 13
  | .ii => 14
  | .pchi => 15
  | .pcli => 16
  | .pcinc1 => 17
  | .pcinc2 => 18
  | .pcdec1 => 19
  | .pcdec2 => 20
  | .mainc1 => 21
  | .mainc2 => 22
  | .madec1 => 23
  | .madec2 => 24
  | .spinc1 => 25
  | .spinc2 => 26
  | .spdec1 => 27
  | .spdec2 => 28
  | .sr => 30
  | .hlt => 31

/-- The net delta of four one-hot bits: the sum of the deltas of the asserted ones (R101, R142, D4). -/
def sumOfDeltas (inc1 inc2 dec1 dec2 : Bool) : Int :=
  inc1.toNat + 2 * inc2.toNat - dec1.toNat - 2 * dec2.toNat

/-- The code of each ALU mode (R161, D5). -/
def aluCodes : AluMode → BitVec 4
  | .nop => 0
  | .and => 1
  | .or => 2
  | .not => 3
  | .add => 8
  | .sub => 9
  | .adc => 10
  | .sbc => 11
  | .neg => 12
  | .inc => 13
  | .dec => 14
  | .cmp => 15

/-- The defined opcodes, in the order of their values (R73, R74, D10). -/
def definedMnemonics : List Mnemonic :=
  [ .lodi, .loda, .lodn, .stoa, .ston, .addi, .adda, .subi, .suba, .adci, .adca, .sbci, .sbca,
    .cmpi, .cmpa, .inc, .dec, .neg, .andi, .anda, .ori, .ora, .not, .bcs, .beq, .bne, .bcc, .bmi,
    .bpl, .bvs, .bvc, .jmp, .psha, .popa, .halt ]

/-- The opcode map (R74, D10). -/
def opcodeBytes : Mnemonic → Byte
  | .lodi => 0x00#8
  | .loda => 0x01#8
  | .lodn => 0x02#8
  | .stoa => 0x03#8
  | .ston => 0x04#8
  | .addi => 0x05#8
  | .adda => 0x06#8
  | .subi => 0x07#8
  | .suba => 0x08#8
  | .adci => 0x09#8
  | .adca => 0x0A#8
  | .sbci => 0x0B#8
  | .sbca => 0x0C#8
  | .cmpi => 0x0D#8
  | .cmpa => 0x0E#8
  | .inc => 0x0F#8
  | .dec => 0x10#8
  | .neg => 0x11#8
  | .andi => 0x12#8
  | .anda => 0x13#8
  | .ori => 0x14#8
  | .ora => 0x15#8
  | .not => 0x16#8
  | .bcs => 0x17#8
  | .beq => 0x18#8
  | .bne => 0x19#8
  | .bcc => 0x1A#8
  | .bmi => 0x1B#8
  | .bpl => 0x1C#8
  | .bvs => 0x1D#8
  | .bvc => 0x1E#8
  | .jmp => 0x1F#8
  | .psha => 0x20#8
  | .popa => 0x21#8
  | .halt => 0x22#8

/-! ### The micro-programs (R116, D11, D12) -/

/-- `IMM`: `MAR` at the operand byte. -/
def immWords : List MicroWord := [⟨.nop, [.pco, .mi]⟩]

/-- `ABS`: `MAR` at the address the operand bytes hold, `PC` past them. -/
def absWords : List MicroWord := immWords ++ [⟨.nop, [.mao, .mi, .pcinc2]⟩]

/-- `IND`: one more pointer followed. -/
def indWords : List MicroWord := absWords ++ [⟨.nop, [.mao, .mi]⟩]

/-- `MO|AI|SR`. -/
def loadWord : MicroWord := ⟨.nop, [.mo, .ai, .sr]⟩

/-- `AO|MW|SR`. -/
def storeWord : MicroWord := ⟨.nop, [.ao, .mw, .sr]⟩

/-- `ALU=mode|AI|SR`. -/
def aluWord (mode : AluMode) : MicroWord := ⟨mode, [.ai, .sr]⟩

/-- `ALU=CMP|SR`. -/
def cmpWord : MicroWord := ⟨.cmp, [.sr]⟩

/-- The operand byte into `B`, immediate form: `IMM`, then `MO|BI|PCINC1`. -/
def immToB : List MicroWord := immWords ++ [⟨.nop, [.mo, .bi, .pcinc1]⟩]

/-- The operand byte into `B`, absolute form: `ABS`, then `MO|BI`. -/
def absToB : List MicroWord := absWords ++ [⟨.nop, [.mo, .bi]⟩]

/-- `IMM`, then `MAO|PCI|SR`: JMP's program. -/
def jumpWords : List MicroWord := immWords ++ [⟨.nop, [.mao, .pci, .sr]⟩]

/-- `PCINC2|SR`: a conditional branch's own program (D12). -/
def skipWord : MicroWord := ⟨.nop, [.pcinc2, .sr]⟩

/-- The execute words of every opcode, steps 2 onward; those of BCS and BEQ are their own programs. -/
def microPrograms : Mnemonic → List MicroWord
  | .lodi => immWords ++ [⟨.nop, [.mo, .ai, .pcinc1, .sr]⟩]
  | .loda => absWords ++ [loadWord]
  | .lodn => indWords ++ [loadWord]
  | .stoa => absWords ++ [storeWord]
  | .ston => indWords ++ [storeWord]
  | .addi => immToB ++ [aluWord .add]
  | .adda => absToB ++ [aluWord .add]
  | .subi => immToB ++ [aluWord .sub]
  | .suba => absToB ++ [aluWord .sub]
  | .adci => immToB ++ [aluWord .adc]
  | .adca => absToB ++ [aluWord .adc]
  | .sbci => immToB ++ [aluWord .sbc]
  | .sbca => absToB ++ [aluWord .sbc]
  | .cmpi => immToB ++ [cmpWord]
  | .cmpa => absToB ++ [cmpWord]
  | .inc => [aluWord .inc]
  | .dec => [aluWord .dec]
  | .neg => [aluWord .neg]
  | .andi => immToB ++ [aluWord .and]
  | .anda => absToB ++ [aluWord .and]
  | .ori => immToB ++ [aluWord .or]
  | .ora => absToB ++ [aluWord .or]
  | .not => [aluWord .not]
  | .bcs => [skipWord]
  | .beq => [skipWord]
  | .bne => [skipWord]
  | .bcc => [skipWord]
  | .bmi => [skipWord]
  | .bpl => [skipWord]
  | .bvs => [skipWord]
  | .bvc => [skipWord]
  | .jmp => jumpWords
  | .psha => [⟨.nop, [.spdec1]⟩, ⟨.nop, [.spo, .mi]⟩, storeWord]
  | .popa => [⟨.nop, [.spo, .mi]⟩, ⟨.nop, [.mo, .ai, .spinc1, .sr]⟩]
  | .halt => [⟨.nop, [.hlt]⟩]

/-! ### The configuration -/

/-- The reset values (R44, D20; `DBUS` is the source's). -/
def resetValues : ResetValues where
  pc := 0x0000#16
  mar := 0x0000#16
  sp := 0x0000#16
  ir := 0x00#8
  a := 0x00#8
  b := 0x00#8
  flags := 0x00#8
  abus := 0x0000#16
  dbus := 0xFF#8
  stepCounter := 0#4

/-- A 16-bit register after a delta, modulo 65536 (R25 to R27, D13). -/
def wrapAdd (x : Word) (delta : Int) : Word := x + BitVec.ofInt 16 delta

/-- The spec's decided tables, with any values of the three open parameters. -/
def specConfig (p : OpenParameters) : Config where
  toOpenParameters := p
  flagBit := flagBits
  signalBit := signalBits
  aluFieldBit := 5
  deltaOfBits := sumOfDeltas
  aluCode := aluCodes
  aluOp1 := .accumulator
  aluOp2 := .internal
  byteOrder := .little
  opcodes := definedMnemonics
  opcodeByte := opcodeBytes
  execute := microPrograms
  registerAdd := wrapAdd
  undefinedOpcode := .atLookUp
  reset := resetValues

/-- The spec's defaults of the open parameters (D2, D7, D8). -/
def openDefaults : OpenParameters where
  addZRule := .truncated
  subVRule := .signed
  dbusIdle := .everyStep

/-- The configuration the machine runs with: the spec's values (R8). -/
def config : Config := specConfig openDefaults

end Sys2Proof.Machine
end

