-- ==== Sys2Proof/Syntax.lean ====
section
/-! DEFINITION. The 35 instructions of the reference table (30_encoding.md R74), one constructor per row
of spec/opcode_table.json, in its order, with the operands of the three formats of R70. -/

namespace Sys2Proof

/-- An instruction. `imm8` is byte 1, unsigned; `addr16` is bytes 1 and 2, low byte first (R71). -/
inductive Instr where
  /-- LODI (0x00, R190): `A <- imm8`. -/
  | lodi (imm8 : Byte)
  /-- LODA (0x01, R191): `A <- MEM[addr16]`. -/
  | loda (addr16 : Word)
  /-- LODN (0x02, R192): `A <- MEM[MemRead(addr16, 2)]`. -/
  | lodn (addr16 : Word)
  /-- STOA (0x03, R193): `MEM[addr16] <- A`. -/
  | stoa (addr16 : Word)
  /-- STON (0x04, R194): `MEM[MemRead(addr16, 2)] <- A`. -/
  | ston (addr16 : Word)
  /-- ADDI (0x05, R200): `A <- A + imm8`. -/
  | addi (imm8 : Byte)
  /-- ADDA (0x06, R201): `A <- A + MEM[addr16]`. -/
  | adda (addr16 : Word)
  /-- SUBI (0x07, R202): `A <- A - imm8`. -/
  | subi (imm8 : Byte)
  /-- SUBA (0x08, R203): `A <- A - MEM[addr16]`. -/
  | suba (addr16 : Word)
  /-- ADCI (0x09, R204): `A <- A + imm8 + C`. -/
  | adci (imm8 : Byte)
  /-- ADCA (0x0A, R205): `A <- A + MEM[addr16] + C`. -/
  | adca (addr16 : Word)
  /-- SBCI (0x0B, R206): `A <- A - imm8 - C`. -/
  | sbci (imm8 : Byte)
  /-- SBCA (0x0C, R207): `A <- A - MEM[addr16] - C`. -/
  | sbca (addr16 : Word)
  /-- CMPI (0x0D, R208): flags of `A - imm8`. -/
  | cmpi (imm8 : Byte)
  /-- CMPA (0x0E, R209): flags of `A - MEM[addr16]`. -/
  | cmpa (addr16 : Word)
  /-- INC (0x0F, R210): `A <- A + 1`. -/
  | inc
  /-- DEC (0x10, R211): `A <- A - 1`. -/
  | dec
  /-- NEG (0x11, R212): `A <- 0 - A`. -/
  | neg
  /-- ANDI (0x12, R220): `A <- A & imm8`. -/
  | andi (imm8 : Byte)
  /-- ANDA (0x13, R221): `A <- A & MEM[addr16]`. -/
  | anda (addr16 : Word)
  /-- ORI (0x14, R222): `A <- A | imm8`. -/
  | ori (imm8 : Byte)
  /-- ORA (0x15, R223): `A <- A | MEM[addr16]`. -/
  | ora (addr16 : Word)
  /-- NOT (0x16, R224): `A <- ~A`. -/
  | not
  /-- BCS (0x17, R230): if `C` then `PC <- addr16`. -/
  | bcs (addr16 : Word)
  /-- BEQ (0x18, R231): if `Z` then `PC <- addr16`. -/
  | beq (addr16 : Word)
  /-- BNE (0x19, R232): unwired branch, never taken. -/
  | bne (addr16 : Word)
  /-- BCC (0x1A, R233): unwired branch, never taken. -/
  | bcc (addr16 : Word)
  /-- BMI (0x1B, R234): unwired branch, never taken. -/
  | bmi (addr16 : Word)
  /-- BPL (0x1C, R235): unwired branch, never taken. -/
  | bpl (addr16 : Word)
  /-- BVS (0x1D, R236): unwired branch, never taken. -/
  | bvs (addr16 : Word)
  /-- BVC (0x1E, R237): unwired branch, never taken. -/
  | bvc (addr16 : Word)
  /-- JMP (0x1F, R238): `PC <- addr16`. -/
  | jmp (addr16 : Word)
  /-- PSHA (0x20, R250): push `A`. -/
  | psha
  /-- POPA (0x21, R251): pop `A`. -/
  | popa
  /-- HALT (0x22, R252): stop the engine. -/
  | halt
deriving DecidableEq, Repr

end Sys2Proof
end

