-- ==== Sys2Proof/Decode.lean ====
section
/-! DEFINITION. The encoding of instructions (30_encoding.md R70 to R76): the opcode map, the decoder,
total on any bytes and rejecting by name, and after it the encoder. All byte-order helpers of the model
stand here. The opcode values are `opcodeBytes` of Machine/Parameters.lean (D10, log entry 9). -/

namespace Sys2Proof

/-! ### Byte order -/

/-- The 16-bit value of a low and a high byte. -/
def wordOfBytes (lo hi : Byte) : Word := hi ++ lo

/-- Bits 7:0 of an address. -/
def lowByte (a : Word) : Byte := a.extractLsb' 0 8

/-- Bits 15:8 of an address. -/
def highByte (a : Word) : Byte := a.extractLsb' 8 8

/-- The address that two bytes at ascending addresses hold: `MEM[a + 1] || MEM[a]` (R52, R71). -/
def addressOfBytes (cfg : Config) (first second : Byte) : Word :=
  match cfg.byteOrder with
  | .little => wordOfBytes first second
  | .big => wordOfBytes second first

/-- The two bytes that hold an address, in ascending address order. -/
def addressBytes (cfg : Config) (a : Word) : List Byte :=
  match cfg.byteOrder with
  | .little => [lowByte a, highByte a]
  | .big => [highByte a, lowByte a]

/-! ### The opcode map -/

/-- The mnemonic that an opcode byte stands for (R73: at most one). -/
def mnemonicOf (cfg : Config) (b : Byte) : Option Mnemonic :=
  cfg.opcodes.find? (fun m => cfg.opcodeByte m == b)

/-- `DEFINED`: the byte is the opcode of a mnemonic (R73). -/
def definedOpcode (cfg : Config) (b : Byte) : Bool := (mnemonicOf cfg b).isSome

/-- What a mnemonic's row of the opcode map makes an instruction of: nothing, its operand byte or its two
operand bytes (the three formats of R70). -/
inductive RowForm where
  /-- Format `OP`. -/
  | op (i : Instr)
  /-- Format `OP_IMM8`. -/
  | imm8 (mk : Byte → Instr)
  /-- Format `OP_ADDR16`. -/
  | addr16 (mk : Word → Instr)

/-- The format column of the opcode map (R74). -/
def rowForm : Mnemonic → RowForm
  | .lodi => .imm8 .lodi
  | .loda => .addr16 .loda
  | .lodn => .addr16 .lodn
  | .stoa => .addr16 .stoa
  | .ston => .addr16 .ston
  | .addi => .imm8 .addi
  | .adda => .addr16 .adda
  | .subi => .imm8 .subi
  | .suba => .addr16 .suba
  | .adci => .imm8 .adci
  | .adca => .addr16 .adca
  | .sbci => .imm8 .sbci
  | .sbca => .addr16 .sbca
  | .cmpi => .imm8 .cmpi
  | .cmpa => .addr16 .cmpa
  | .inc => .op .inc
  | .dec => .op .dec
  | .neg => .op .neg
  | .andi => .imm8 .andi
  | .anda => .addr16 .anda
  | .ori => .imm8 .ori
  | .ora => .addr16 .ora
  | .not => .op .not
  | .bcs => .addr16 .bcs
  | .beq => .addr16 .beq
  | .bne => .addr16 .bne
  | .bcc => .addr16 .bcc
  | .bmi => .addr16 .bmi
  | .bpl => .addr16 .bpl
  | .bvs => .addr16 .bvs
  | .bvc => .addr16 .bvc
  | .jmp => .addr16 .jmp
  | .psha => .op .psha
  | .popa => .op .popa
  | .halt => .op .halt

/-! ### Decoder -/

/-- Why the decoder reads no instruction from some bytes. -/
inductive DecodeError where
  /-- The first byte is not a defined opcode (R76). -/
  | undefinedOpcode (b : Byte)
  /-- The bytes end before the instruction does. -/
  | truncated
deriving DecidableEq, Repr

/-- Reads one instruction from bytes at ascending addresses and returns it with the bytes after it
(R70, R71), under the opcode map and byte order of a configuration. -/
def decodeWith (cfg : Config) : List Byte → Except DecodeError (Instr × List Byte)
  | [] => .error .truncated
  | b :: rest =>
    match (mnemonicOf cfg b).map rowForm, rest with
    | none, _ => .error (.undefinedOpcode b)
    | some (.op i), _ => .ok (i, rest)
    | some (.imm8 mk), m :: rest' => .ok (mk m, rest')
    | some (.addr16 mk), first :: second :: rest' =>
      .ok (mk (addressOfBytes cfg first second), rest')
    | some _, _ => .error .truncated

/-- The decoder of the machine. -/
def decode (bytes : List Byte) : Except DecodeError (Instr × List Byte) :=
  decodeWith Machine.config bytes

/-! ### Encoder -/

/-- The mnemonic of an instruction. -/
def Instr.mnemonic : Instr → Mnemonic
  | .lodi _ => .lodi
  | .loda _ => .loda
  | .lodn _ => .lodn
  | .stoa _ => .stoa
  | .ston _ => .ston
  | .addi _ => .addi
  | .adda _ => .adda
  | .subi _ => .subi
  | .suba _ => .suba
  | .adci _ => .adci
  | .adca _ => .adca
  | .sbci _ => .sbci
  | .sbca _ => .sbca
  | .cmpi _ => .cmpi
  | .cmpa _ => .cmpa
  | .inc => .inc
  | .dec => .dec
  | .neg => .neg
  | .andi _ => .andi
  | .anda _ => .anda
  | .ori _ => .ori
  | .ora _ => .ora
  | .not => .not
  | .bcs _ => .bcs
  | .beq _ => .beq
  | .bne _ => .bne
  | .bcc _ => .bcc
  | .bmi _ => .bmi
  | .bpl _ => .bpl
  | .bvs _ => .bvs
  | .bvc _ => .bvc
  | .jmp _ => .jmp
  | .psha => .psha
  | .popa => .popa
  | .halt => .halt

/-- The operand bytes of an instruction, in ascending address order (R70). -/
def operandBytes (cfg : Config) : Instr → List Byte
  | .lodi m => [m]
  | .loda a => addressBytes cfg a
  | .lodn a => addressBytes cfg a
  | .stoa a => addressBytes cfg a
  | .ston a => addressBytes cfg a
  | .addi m => [m]
  | .adda a => addressBytes cfg a
  | .subi m => [m]
  | .suba a => addressBytes cfg a
  | .adci m => [m]
  | .adca a => addressBytes cfg a
  | .sbci m => [m]
  | .sbca a => addressBytes cfg a
  | .cmpi m => [m]
  | .cmpa a => addressBytes cfg a
  | .inc => []
  | .dec => []
  | .neg => []
  | .andi m => [m]
  | .anda a => addressBytes cfg a
  | .ori m => [m]
  | .ora a => addressBytes cfg a
  | .not => []
  | .bcs a => addressBytes cfg a
  | .beq a => addressBytes cfg a
  | .bne a => addressBytes cfg a
  | .bcc a => addressBytes cfg a
  | .bmi a => addressBytes cfg a
  | .bpl a => addressBytes cfg a
  | .bvs a => addressBytes cfg a
  | .bvc a => addressBytes cfg a
  | .jmp a => addressBytes cfg a
  | .psha => []
  | .popa => []
  | .halt => []

/-- The bytes of an instruction (R70) under a configuration. -/
def encodeWith (cfg : Config) (i : Instr) : List Byte :=
  cfg.opcodeByte i.mnemonic :: operandBytes cfg i

/-- The opcode byte of an instruction (R74). -/
def opcode (i : Instr) : Byte := Machine.config.opcodeByte i.mnemonic

/-- The bytes of an instruction of the machine. -/
def encode (i : Instr) : List Byte := encodeWith Machine.config i

/-! ### Words of the opcode table -/

/-- The three bytes of a table word: byte `k` is bits `8k+7:8k` of `w`, and every bit at or above
`nbits` is 0. -/
def tableBytes (nbits w : Nat) : List Byte :=
  let v := w % 2 ^ nbits
  [BitVec.ofNat 8 v, BitVec.ofNat 8 (v / 256), BitVec.ofNat 8 (v / 65536)]

/-- The instruction the decoder reads from a word of spec/opcode_table.json (host interface). -/
def decodeTableWord (nbits w : Nat) : Option Instr :=
  match decode (tableBytes nbits w) with
  | .ok (i, _) => some i
  | .error _ => none

end Sys2Proof
end

