-- ==== Sys2Proof/Machine/Flags.lean ====
section
/-! DEFINITION. The flags register and the ALU (10_state.md R33 to R36; 42_alu_and_flags.md R160 to R182),
under the flag positions, mode codes, operands and flag rules of a configuration. -/

namespace Sys2Proof.Machine

/-- The value of the data bus after phase 0, from its value before (R135, D2). -/
def idle (cfg : Config) (last : Byte) : Byte :=
  match cfg.dbusIdle with
  | .everyStep => 0xFF#8
  | .resetOnly => last

/-- `FLAGS.f` (R10). -/
def getFlag (cfg : Config) (flags : Byte) (f : Flag) : Bool := flags.getLsbD (cfg.flagBit f)

/-- `FLAGS.f <- x`, every other bit as it was (R34). -/
def setFlag (cfg : Config) (flags : Byte) (f : Flag) (x : Bool) : Byte :=
  if x then flags ||| (1#8 <<< cfg.flagBit f) else flags &&& ~~~(1#8 <<< cfg.flagBit f)

/-- The four flags an addition or a subtraction computes. -/
structure Vncz where
  /-- Overflow. -/
  v : Bool
  /-- Negative. -/
  n : Bool
  /-- Carry or borrow. -/
  c : Bool
  /-- Zero. -/
  z : Bool
deriving DecidableEq, Repr

/-- `WriteVNCZ` (R173): the four flags are replaced, every other bit of `FLAGS` kept. -/
def writeVncz (cfg : Config) (flags : Byte) (f : Vncz) : Byte :=
  setFlag cfg (setFlag cfg (setFlag cfg (setFlag cfg flags .v f.v) .n f.n) .c f.c) .z f.z

/-- `Add(op1, op2, cin)` (R170), over the untruncated nine-bit sum. -/
def aluAdd (cfg : Config) (op1 op2 : Byte) (cin : Bool) : Byte × Vncz :=
  let sum := op1.toNat + op2.toNat + cin.toNat
  let r := BitVec.ofNat 8 sum
  (r, { v := op1.msb == op2.msb && sum.testBit 7 != op1.msb
        n := sum.testBit 7
        c := sum.testBit 8
        z := match cfg.addZRule with
          | .truncated => r == 0#8
          | .fullSum => sum == 0 })

/-- The overflow flag of a subtraction with result `r`: R171 by default, R172 the alternative. -/
def subOverflow (cfg : Config) (op1 op2 r : Byte) : Bool :=
  match cfg.subVRule with
  | .signed => op1.msb != op2.msb && r.msb != op1.msb
  | .addShape => op1.msb == op2.msb && r.msb != op1.msb

/-- `Sub(op1, op2, cin)` (R171): `C` is the source's bit formula and means borrow. -/
def aluSub (cfg : Config) (op1 op2 : Byte) (cin : Bool) : Byte × Vncz :=
  let r := op1 - op2 - BitVec.ofNat 8 cin.toNat
  (r, { v := subOverflow cfg op1 op2 r
        n := r.msb
        c := (((~~~op1 &&& op2) ||| (~~~(op1 ^^^ op2) &&& r)) >>> 7).getLsbD 0
        z := r == 0#8 })

/-- Every named ALU mode (R161). -/
def aluModes : List AluMode :=
  [.nop, .and, .or, .not, .add, .sub, .adc, .sbc, .neg, .inc, .dec, .cmp]

/-- The mode of a code; a code no mode has is reserved (R161, R167). -/
def aluModeOfCode (cfg : Config) (code : BitVec 4) : Option AluMode :=
  aluModes.find? (fun mode => cfg.aluCode mode == code)

/-- What an ALU mode does: the byte it drives onto the data bus, if any, and the new `FLAGS`. -/
structure AluOut where
  /-- `none` for NOP and CMP, which drive nothing (R163, R179). -/
  result : Option Byte
  /-- The flags register afterwards. -/
  flags : Byte
deriving DecidableEq, Repr

/-- The output of a mode that drives its result and writes all four flags. -/
def arithmeticOut (cfg : Config) (flags : Byte) (x : Byte × Vncz) : AluOut :=
  { result := some x.1, flags := writeVncz cfg flags x.2 }

/-- The operand a source gives, of `A` and `B` (R160, D6). -/
def aluOperand (a b : Byte) : AluSource → Byte
  | .accumulator => a
  | .internal => b

/-- `AluPhase` (R162) as a function of `A`, `B` and `FLAGS` (R160). -/
def alu (cfg : Config) (mode : AluMode) (a b flags : Byte) : AluOut :=
  let op1 := aluOperand a b cfg.aluOp1
  let op2 := aluOperand a b cfg.aluOp2
  let carry := getFlag cfg flags .c
  match mode with
  | .nop => { result := none, flags := flags }
  | .and => { result := some (op1 &&& op2), flags := flags }
  | .or => { result := some (op1 ||| op2), flags := flags }
  | .not => { result := some (~~~op1), flags := flags }
  | .add => arithmeticOut cfg flags (aluAdd cfg op1 op2 false)
  | .sub => arithmeticOut cfg flags (aluSub cfg op1 op2 false)
  | .adc => arithmeticOut cfg flags (aluAdd cfg op1 op2 carry)
  | .sbc => arithmeticOut cfg flags (aluSub cfg op1 op2 carry)
  | .neg =>
    let r := 0#8 - op1
    { result := some r, flags := setFlag cfg (setFlag cfg flags .z (r == 0#8)) .n r.msb }
  | .inc => arithmeticOut cfg flags (aluAdd cfg op1 1#8 false)
  | .dec => arithmeticOut cfg flags (aluSub cfg op1 1#8 false)
  | .cmp => { result := none, flags := writeVncz cfg flags (aluSub cfg op1 op2 false).2 }

/-- Whether a mode drives the data bus (R161; R118 W3). -/
def drivesBus : AluMode → Bool
  | .nop | .cmp => false
  | _ => true

end Sys2Proof.Machine
end

