-- ==== Sys2Proof/Machine/State.lean ====
section
/-! DEFINITION. The state of the machine, all of it (10_state.md R20), as plain data, the reasons it can
stop, and the state after reset (R44). -/

namespace Sys2Proof.Machine

/-- The reason of an engine fault (60_exceptions.md R261). Taking one is a NEXT state whose `run` is
`faulted`, since the spec gives its entry (R264). -/
inductive EngineFault where
  /-- A ROM look-up with a byte outside `DEFINED` in `IR` (R265); the byte is recorded. -/
  | undefinedOpcode (ir : Byte)
  /-- A two-byte read whose second byte lies at `addr`, outside `MEM` (R266). -/
  | addressOutOfRange (addr : Nat)
  /-- A control word whose ALU field is a reserved code (R268). -/
  | reservedAluMode (mode : BitVec 4)
deriving DecidableEq, Repr

/-- `RUN`: whether the engine still steps (R40). -/
inductive RunState where
  /-- Micro-steps are taken. -/
  | running
  /-- A control word with the halt bit was looked up: the normal end (R12, R133). -/
  | halted
  /-- An engine fault was raised: the other end (R12, R264). -/
  | faulted (reason : EngineFault)
deriving DecidableEq, Repr

/-- Main memory: byte cells at rising addresses, none holding what an unlisted address reads as. The
canonical form is `Memory.wf` (Machine/Ops.lean). -/
abbrev Memory := List Host.Cell

/-- The machine state (R20). Nothing else is state. -/
structure State where
  /-- `PC`, program counter, a byte address (R24). -/
  pc : Word
  /-- `MAR`, memory-address register (R26). -/
  mar : Word
  /-- `SP`, stack pointer (R27). -/
  sp : Word
  /-- `IR`, instruction register (R28). -/
  ir : Byte
  /-- `A`, accumulator (R21). -/
  a : Byte
  /-- `B`, internal operand register (R22). -/
  b : Byte
  /-- `FLAGS` (R33). -/
  flags : Byte
  /-- `ABUS`, address bus (R41). -/
  abus : Word
  /-- `DBUS`, data bus (R42). -/
  dbus : Byte
  /-- `STEP`, micro-step counter 0..15 (R39). -/
  stepCounter : BitVec 4
  /-- `RUN` (R40). -/
  run : RunState
  /-- `MEM[0 .. 65535]` (R20, R50). -/
  mem : Memory
deriving DecidableEq, Repr

/-- Why `step` or a micro-step answers no next state: no micro-step exists when `RUN` is not `running`
(R40, R131 "else no step exists"). No instruction's meaning answers one. -/
inductive Fault where
  /-- Raised by `step`, `microStepWith` and runs of it when `RUN = halted`. Safe: the spec's machine takes
  no more micro-steps. DESIGN CHOICE (log entry 2). -/
  | halted
  /-- Raised by `step`, `microStepWith` and runs of it when `RUN = faulted(reason)`. Safe, as above. -/
  | faulted (reason : EngineFault)
deriving DecidableEq, Repr

/-- Why an instruction is refused. -/
inductive Refusal where
  /-- The instruction has no meaning in the model yet. Raised by no arm of `exec`: every instruction
  has its meaning. Safe. -/
  | notModelled (mnemonic : String)
deriving DecidableEq, Repr

/-- The state a reset leaves under a configuration (R44, R280): its reset values, `RUN = running`, and no byte of
memory listed. -/
def State.resetWith (cfg : Config) : State where
  pc := cfg.reset.pc
  mar := cfg.reset.mar
  sp := cfg.reset.sp
  ir := cfg.reset.ir
  a := cfg.reset.a
  b := cfg.reset.b
  flags := cfg.reset.flags
  abus := cfg.reset.abus
  dbus := cfg.reset.dbus
  stepCounter := cfg.reset.stepCounter
  run := .running
  mem := []

/-- The state after reset (R44): every byte of memory reads 0x00. The values are `resetValues`, the spec's
decision D20 and not the source's (UNVERIFIED, log entry 8). -/
def State.reset : State := State.resetWith config

end Sys2Proof.Machine
end

