-- ==== Sys2Proof/Machine/Ops.lean ====
section
/-! DEFINITION. The named operations over memory and state that the micro-step engine and the
instructions' meanings share: memory (20_memory.md), fault entry (60_exceptions.md R264), the two
fetch micro-steps (41_micro_step_engine.md R146) and the host's side (00_scope.md R7). -/

namespace Sys2Proof.Machine

/-- What an address no cell lists reads as: the spec's value of memory the image does not cover (R44, R283;
the spec's decision D33, UNVERIFIED, log entry 10). -/
def unlistedByte : Byte := 0x00#8

/-- The byte at an address of a list of cells. -/
def Memory.readAt : Memory → Nat → Byte
  | [], _ => unlistedByte
  | (k, v) :: rest, n => if k = n then v else Memory.readAt rest n

/-- `MemRead(addr, 1)` (R52): a 16-bit address is always in range (R54). -/
def Memory.read (m : Memory) (addr : Word) : Byte := Memory.readAt m addr.toNat

/-- The cells at other addresses. -/
def Memory.eraseAt (m : Memory) (n : Nat) : Memory := m.filter (fun cell => cell.1 != n)

/-- A cell put before the first one at a higher address. -/
def Memory.insertAt : Memory → Nat → Byte → Memory
  | [], n, v => [(n, v)]
  | (k, w) :: rest, n, v =>
    if n < k then (n, v) :: (k, w) :: rest else (k, w) :: Memory.insertAt rest n v

/-- `MemWrite(addr, 1, v)` (R53): every address is writable. Writing the value an unlisted address reads
as removes the cell, so that equal memories are equal lists. -/
def Memory.write (m : Memory) (addr : Word) (v : Byte) : Memory :=
  if v = unlistedByte then m.eraseAt addr.toNat else (m.eraseAt addr.toNat).insertAt addr.toNat v

/-- The canonical form: addresses inside `MEM` and strictly rising, no cell equal to `unlistedByte`. -/
def Memory.wf : Memory → Bool
  | [] => true
  | [(k, v)] => decide (k < 65536) && v != unlistedByte
  | (k, v) :: (k', v') :: rest =>
    decide (k < k') && v != unlistedByte && Memory.wf ((k', v') :: rest)

/-- The range check of `MemRead(addr, 2)` (R52, R54): the second byte's address is computed as an
integer and does not wrap. -/
def checkPair (addr : Word) : Except EngineFault Unit :=
  if addr.toNat + 1 ≤ 0xFFFF then .ok () else .error (.addressOutOfRange (addr.toNat + 1))

/-- `MemRead(addr, 2)` (R52): the two bytes in the configuration's byte order, or the fault of R54. -/
def Memory.readWord (cfg : Config) (m : Memory) (addr : Word) : Except EngineFault Word :=
  match checkPair addr with
  | .ok _ => .ok (addressOfBytes cfg (m.read addr) (m.read (addr + 1#16)))
  | .error r => .error r

/-- Taking a fault: `raise Fault(reason)` (R145, R264). Nothing is saved and control goes nowhere; there is
no return from it (R267), so no operation beside this one. -/
def raiseFault (r : EngineFault) (s : State) : State := { s with run := .faulted r }

/-- The halt (R133): `RUN <- halted` and nothing else. -/
def haltEngine (s : State) : State := { s with run := .halted }

/-- The state after fetch micro-steps 0 and 1 when the byte at `PC` is `op` (R146). -/
def afterFetch (cfg : Config) (op : Byte) (s : State) : State :=
  { s with
    pc := cfg.registerAdd s.pc 1, mar := s.pc, abus := s.pc, dbus := op, ir := op
    stepCounter := 2#4 }

/-- The last micro-step of an instruction cycle asserts step-reset: `STEP <- 0` (R143). -/
def endCycle (s : State) : State := { s with stepCounter := 0#4 }

/-- The bytes a decoder of the instruction at `PC` is given. For `PC = 0xFFFE` the third byte does not
exist; the byte given in its place (`MEM[0]`) reaches no meaning. DESIGN CHOICE (log entry 4). -/
def fetchBytes (s : State) : List Byte :=
  [s.mem.read s.pc, s.mem.read (s.pc + 1#16), s.mem.read (s.pc + 2#16)]

/-- Fetch and decode at an instruction boundary. An undefined byte left in `IR` faults the look-up of step
0 (R119, R289); an undefined byte fetched faults the look-up of step 2 (R265). The error carries the
state the fault leaves. -/
def fetchInstr (s : State) : Except State Instr :=
  if definedOpcode config s.ir then
    match decode (fetchBytes s) with
    | .ok (i, _) => .ok i
    | .error _ =>
      .error (raiseFault (.undefinedOpcode (s.mem.read s.pc))
        (afterFetch config (s.mem.read s.pc) s))
  else .error (raiseFault (.undefinedOpcode s.ir) s)

/-- Bytes written at ascending addresses from `addr`, modulo 65536. -/
def writeBytes (m : Memory) (addr : Word) : List Byte → Memory
  | [] => m
  | v :: rest => writeBytes (m.write addr v) (addr + 1#16) rest

/-- The host's load path (R7 g, R283): an image at `base`, before the first micro-step. An image that
does not fit in `MEM` is a host error and is refused (U20). -/
def loadImage (base : Nat) (image : List Byte) (s : State) : Option State :=
  if base + image.length ≤ 65536 then
    some { s with mem := writeBytes s.mem (BitVec.ofNat 16 base) image }
  else none

/-- An instruction's bytes at `PC` of a machine about to fetch: running, at an instruction boundary, with
a defined byte in `IR`. -/
def placeInstruction (bytes : List Byte) (s : State) : State :=
  { s with
    ir := if definedOpcode config s.ir then s.ir else opcode (.lodi 0x00#8)
    stepCounter := 0#4
    run := .running
    mem := writeBytes s.mem s.pc bytes }

/-- The halted output of the block (R7 e). -/
def haltedOutput (s : State) : Bool := s.run == .halted

/-- The fault output of the block, with its reason (R7 f). -/
def faultOutput (s : State) : Option EngineFault :=
  match s.run with
  | .faulted r => some r
  | _ => none

end Sys2Proof.Machine
end

