-- ==== Sys2Proof/Machine/Operands.lean ====
section
/-! DEFINITION. The operand forms of the instruction rules (43_load_store.md, "Addressing modes"; the
building blocks `IMM`, `ABS`, `IND` of 40_control_word_and_rom.md R116), each as the state its last
micro-step leaves. `op` is the opcode byte and `s` the state at the instruction boundary, so that
`s.pc` is the spec's `p`. The configuration gives the byte order, the register wrap, the
idle bus and the ALU; the micro-programs are those of R116. An error carries the state a fault leaves. -/

namespace Sys2Proof.Machine

/-- `MAR` and `ABUS` at the first operand byte, after step 2's `PCO|MI`. -/
def atOperand (cfg : Config) (op : Byte) (s : State) : State :=
  { afterFetch cfg op s with
    mar := cfg.registerAdd s.pc 1, abus := cfg.registerAdd s.pc 1, dbus := idle cfg op
    stepCounter := 3#4 }

/-- Immediate form, after step 3's `MO` and `PCINC1`: the operand byte on the data bus, `PC` past it. -/
def immediate (cfg : Config) (op m : Byte) (s : State) : State :=
  { atOperand cfg op s with pc := cfg.registerAdd s.pc 2, dbus := m, stepCounter := 4#4 }

/-- `MAR` and `ABUS` at the address the operand bytes hold, `PC` past them, after step 3. -/
def atAddress (cfg : Config) (op : Byte) (addr : Word) (s : State) : State :=
  { atOperand cfg op s with
    pc := cfg.registerAdd s.pc 3, mar := addr, abus := addr, stepCounter := 4#4 }

/-- Absolute form: `ea` is the instruction's address. The two-byte read of the operand at `p + 1` faults at
step 3 when `p + 1 = 0xFFFF` (R191, R266 a). -/
def absolute (cfg : Config) (op : Byte) (addr : Word) (s : State) : Except State State :=
  match checkPair (cfg.registerAdd s.pc 1) with
  | .ok _ => .ok (atAddress cfg op addr s)
  | .error r => .error (raiseFault r (atOperand cfg op s))

/-- Indirect form: `ea` is read from the pointer cell the instruction names. The two-byte read of a cell
at 0xFFFF faults at step 4, `PC` already past the operand (R192, R266 b). -/
def indirect (cfg : Config) (op : Byte) (cell : Word) (s : State) : Except State State :=
  match absolute cfg op cell s with
  | .error t => .error t
  | .ok t =>
    match t.mem.readWord cfg cell with
    | .ok ea => .ok { t with mar := ea, abus := ea, stepCounter := 5#4 }
    | .error r => .error (raiseFault r t)

/-- The rest of an instruction after its operand: either way a next state, since taking a fault is one
(R264). -/
def thenDo (x : Except State State) (f : State → State) : Host.Outcome State Fault Refusal :=
  match x with
  | .ok t => .next (f t)
  | .error t => .next t

/-- `MO|AI|SR`: `A <- MEM[MAR]`. -/
def loadA (s : State) : State :=
  endCycle { s with a := s.mem.read s.mar, dbus := s.mem.read s.mar }

/-- `AO|MW|SR`: `MEM[MAR] <- A`. -/
def storeA (s : State) : State :=
  endCycle { s with mem := s.mem.write s.mar s.a, dbus := s.a }

/-- `MO|BI`, absolute form: the byte at `MAR` into `B`. -/
def loadB (s : State) : State :=
  { s with b := s.mem.read s.mar, dbus := s.mem.read s.mar, stepCounter := s.stepCounter + 1#4 }

/-- `BI`, immediate form: the operand byte on the data bus into `B`. -/
def latchB (s : State) : State := { s with b := s.dbus }

/-- The ALU word that ends an instruction: `A` and `FLAGS` as the mode says; a mode with no result
(CMP) leaves `A` and lets the data bus idle (R179). -/
def aluStep (cfg : Config) (mode : AluMode) (s : State) : State :=
  let out := alu cfg mode s.a s.b s.flags
  endCycle { s with
    a := out.result.getD s.a, dbus := out.result.getD (idle cfg s.dbus), flags := out.flags }

/-- A two-operand instruction, immediate form (44_arithmetic.md, 45_logical.md). -/
def aluImmediate (cfg : Config) (mode : AluMode) (op m : Byte) (s : State) :
    Host.Outcome State Fault Refusal :=
  .next (aluStep cfg mode (latchB (immediate cfg op m s)))

/-- A two-operand instruction, absolute form. -/
def aluAbsolute (cfg : Config) (mode : AluMode) (op : Byte) (addr : Word) (s : State) :
    Host.Outcome State Fault Refusal :=
  thenDo (absolute cfg op addr s) (fun t => aluStep cfg mode (loadB t))

/-- An instruction on `A` alone. -/
def aluAccumulator (cfg : Config) (mode : AluMode) (op : Byte) (s : State) :
    Host.Outcome State Fault Refusal :=
  .next (aluStep cfg mode (afterFetch cfg op s))

/-- A taken transfer (R225): `PC <- addr16` through the address bus; the two-byte read of the operand faults
as the absolute form's does (R238). -/
def jumpTo (cfg : Config) (op : Byte) (addr : Word) (s : State) :
    Host.Outcome State Fault Refusal :=
  match checkPair (cfg.registerAdd s.pc 1) with
  | .ok _ => .next (endCycle { atOperand cfg op s with pc := addr, abus := addr })
  | .error r => .next (raiseFault r (atOperand cfg op s))

/-- A branch not taken: the operand bytes are skipped unread (R230, R232). -/
def skipOperand (cfg : Config) (op : Byte) (s : State) :
    Host.Outcome State Fault Refusal :=
  .next (endCycle { afterFetch cfg op s with
    pc := cfg.registerAdd s.pc 3, dbus := idle cfg op })

end Sys2Proof.Machine
end

