-- ==== Sys2Proof/Machine/Arithmetic.lean ====
section
/-! DEFINITION. The arithmetic instructions (44_arithmetic.md R200 to R212). -/

namespace Sys2Proof.Machine

/-- `ADDI imm8` (R200): `A <- A + m`, flags V N C Z. -/
def execAddi (imm8 : Byte) (s : State) : Host.Outcome State Fault Refusal :=
  aluImmediate config .add (opcode (.addi imm8)) imm8 s

/-- `ADDA addr16` (R201): `A <- A + m`, flags V N C Z, `m` the byte at `addr16`. -/
def execAdda (addr16 : Word) (s : State) : Host.Outcome State Fault Refusal :=
  aluAbsolute config .add (opcode (.adda addr16)) addr16 s

/-- `SUBI imm8` (R202): `A <- A - m`, flags V N C Z. -/
def execSubi (imm8 : Byte) (s : State) : Host.Outcome State Fault Refusal :=
  aluImmediate config .sub (opcode (.subi imm8)) imm8 s

/-- `SUBA addr16` (R203): `A <- A - m`, flags V N C Z, `m` the byte at `addr16`. -/
def execSuba (addr16 : Word) (s : State) : Host.Outcome State Fault Refusal :=
  aluAbsolute config .sub (opcode (.suba addr16)) addr16 s

/-- `ADCI imm8` (R204): `A <- A + m + C`, flags V N C Z. -/
def execAdci (imm8 : Byte) (s : State) : Host.Outcome State Fault Refusal :=
  aluImmediate config .adc (opcode (.adci imm8)) imm8 s

/-- `ADCA addr16` (R205): `A <- A + m + C`, flags V N C Z, `m` the byte at `addr16`. -/
def execAdca (addr16 : Word) (s : State) : Host.Outcome State Fault Refusal :=
  aluAbsolute config .adc (opcode (.adca addr16)) addr16 s

/-- `SBCI imm8` (R206): `A <- A - m - C`, flags V N C Z. -/
def execSbci (imm8 : Byte) (s : State) : Host.Outcome State Fault Refusal :=
  aluImmediate config .sbc (opcode (.sbci imm8)) imm8 s

/-- `SBCA addr16` (R207): `A <- A - m - C`, flags V N C Z, `m` the byte at `addr16`. -/
def execSbca (addr16 : Word) (s : State) : Host.Outcome State Fault Refusal :=
  aluAbsolute config .sbc (opcode (.sbca addr16)) addr16 s

/-- `CMPI imm8` (R208): flags V N C Z of `A - m`, `A` unchanged. -/
def execCmpi (imm8 : Byte) (s : State) : Host.Outcome State Fault Refusal :=
  aluImmediate config .cmp (opcode (.cmpi imm8)) imm8 s

/-- `CMPA addr16` (R209): flags V N C Z of `A - m`, `A` unchanged, `m` the byte at `addr16`. -/
def execCmpa (addr16 : Word) (s : State) : Host.Outcome State Fault Refusal :=
  aluAbsolute config .cmp (opcode (.cmpa addr16)) addr16 s

/-- `INC` (R210): `A <- A + 1`, flags V N C Z. -/
def execInc (s : State) : Host.Outcome State Fault Refusal :=
  aluAccumulator config .inc (opcode .inc) s

/-- `DEC` (R211): `A <- A - 1`, flags V N C Z. -/
def execDec (s : State) : Host.Outcome State Fault Refusal :=
  aluAccumulator config .dec (opcode .dec) s

/-- `NEG` (R212): `A <- 0 - A`, flags N Z only. -/
def execNeg (s : State) : Host.Outcome State Fault Refusal :=
  aluAccumulator config .neg (opcode .neg) s

end Sys2Proof.Machine
end

