-- ==== Sys2Proof/Machine/Branch.lean ====
section
/-! DEFINITION. The branch and jump instructions (46_branch_jump.md R225 to R238). -/

namespace Sys2Proof.Machine

/-- `BCS addr16` (R230): taken when `C` is set. -/
def execBcs (addr16 : Word) (s : State) : Host.Outcome State Fault Refusal :=
  if getFlag config s.flags .c then jumpTo config (opcode (.bcs addr16)) addr16 s
  else skipOperand config (opcode (.bcs addr16)) s

/-- `BEQ addr16` (R231): taken when `Z` is set. -/
def execBeq (addr16 : Word) (s : State) : Host.Outcome State Fault Refusal :=
  if getFlag config s.flags .z then jumpTo config (opcode (.beq addr16)) addr16 s
  else skipOperand config (opcode (.beq addr16)) s

/-- `BNE addr16` (R232), branch if not equal, unwired: never taken, whatever `FLAGS` holds (R77). -/
def execBne (addr16 : Word) (s : State) : Host.Outcome State Fault Refusal :=
  skipOperand config (opcode (.bne addr16)) s

/-- `BCC addr16` (R233), branch if carry clear, unwired: never taken, whatever `FLAGS` holds (R77). -/
def execBcc (addr16 : Word) (s : State) : Host.Outcome State Fault Refusal :=
  skipOperand config (opcode (.bcc addr16)) s

/-- `BMI addr16` (R234), branch if negative, unwired: never taken, whatever `FLAGS` holds (R77). -/
def execBmi (addr16 : Word) (s : State) : Host.Outcome State Fault Refusal :=
  skipOperand config (opcode (.bmi addr16)) s

/-- `BPL addr16` (R235), branch if positive, unwired: never taken, whatever `FLAGS` holds (R77). -/
def execBpl (addr16 : Word) (s : State) : Host.Outcome State Fault Refusal :=
  skipOperand config (opcode (.bpl addr16)) s

/-- `BVS addr16` (R236), branch if overflow set, unwired: never taken, whatever `FLAGS` holds (R77). -/
def execBvs (addr16 : Word) (s : State) : Host.Outcome State Fault Refusal :=
  skipOperand config (opcode (.bvs addr16)) s

/-- `BVC addr16` (R237), branch if overflow clear, unwired: never taken, whatever `FLAGS` holds (R77). -/
def execBvc (addr16 : Word) (s : State) : Host.Outcome State Fault Refusal :=
  skipOperand config (opcode (.bvc addr16)) s

/-- `JMP addr16` (R238): `PC <- addr16`. -/
def execJmp (addr16 : Word) (s : State) : Host.Outcome State Fault Refusal :=
  jumpTo config (opcode (.jmp addr16)) addr16 s

end Sys2Proof.Machine
end

