-- ==== Sys2Proof/Machine/LoadStore.lean ====
section
/-! DEFINITION. The load and store instructions (43_load_store.md R190 to R194). -/

namespace Sys2Proof.Machine

/-- `LODI imm8` (R190): `A <- imm8`. No flag is written. -/
def execLodi (imm8 : Byte) (s : State) : Host.Outcome State Fault Refusal :=
  .next (endCycle { immediate config (opcode (.lodi imm8)) imm8 s with a := imm8 })

/-- `LODA addr16` (R191): `A <- MEM[addr16]`. No flag is written. -/
def execLoda (addr16 : Word) (s : State) : Host.Outcome State Fault Refusal :=
  thenDo (absolute config (opcode (.loda addr16)) addr16 s) loadA

/-- `LODN addr16` (R192): `A <- MEM[MemRead(addr16, 2)]`. No flag is written. -/
def execLodn (addr16 : Word) (s : State) : Host.Outcome State Fault Refusal :=
  thenDo (indirect config (opcode (.lodn addr16)) addr16 s) loadA

/-- `STOA addr16` (R193): `MEM[addr16] <- A`. No flag is written. -/
def execStoa (addr16 : Word) (s : State) : Host.Outcome State Fault Refusal :=
  thenDo (absolute config (opcode (.stoa addr16)) addr16 s) storeA

/-- `STON addr16` (R194): `MEM[MemRead(addr16, 2)] <- A`; the pointer is read before the store. -/
def execSton (addr16 : Word) (s : State) : Host.Outcome State Fault Refusal :=
  thenDo (indirect config (opcode (.ston addr16)) addr16 s) storeA

end Sys2Proof.Machine
end

