-- ==== Sys2Proof/Machine/Logical.lean ====
section
/-! DEFINITION. The logical instructions (45_logical.md R220 to R224). -/

namespace Sys2Proof.Machine

/-- `ANDI imm8` (R220): `A <- A & m`, no flag. -/
def execAndi (imm8 : Byte) (s : State) : Host.Outcome State Fault Refusal :=
  aluImmediate config .and (opcode (.andi imm8)) imm8 s

/-- `ANDA addr16` (R221): `A <- A & m`, `m` the byte at `addr16`, no flag. -/
def execAnda (addr16 : Word) (s : State) : Host.Outcome State Fault Refusal :=
  aluAbsolute config .and (opcode (.anda addr16)) addr16 s

/-- `ORI imm8` (R222): `A <- A | m`, no flag. -/
def execOri (imm8 : Byte) (s : State) : Host.Outcome State Fault Refusal :=
  aluImmediate config .or (opcode (.ori imm8)) imm8 s

/-- `ORA addr16` (R223): `A <- A | m`, `m` the byte at `addr16`, no flag. -/
def execOra (addr16 : Word) (s : State) : Host.Outcome State Fault Refusal :=
  aluAbsolute config .or (opcode (.ora addr16)) addr16 s

/-- `NOT` (R224): `A <- ~A`, no flag. -/
def execNot (s : State) : Host.Outcome State Fault Refusal :=
  aluAccumulator config .not (opcode .not) s

end Sys2Proof.Machine
end

