-- ==== Sys2Proof/Machine/StackHalt.lean ====
section
/-! DEFINITION. The stack and halt instructions (47_stack_halt.md R250 to R252). -/

namespace Sys2Proof.Machine

/-- `PSHA` (R250): `SP <- SP - 1`, then `A` stored at the new `SP`. -/
def execPsha (s : State) : Host.Outcome State Fault Refusal :=
  .next (storeA { afterFetch config (opcode .psha) s with
    sp := config.registerAdd s.sp (-1), mar := config.registerAdd s.sp (-1)
    abus := config.registerAdd s.sp (-1) })

/-- `POPA` (R251): `A` loaded from `SP`, then `SP <- SP + 1`. -/
def execPopa (s : State) : Host.Outcome State Fault Refusal :=
  .next (loadA { afterFetch config (opcode .popa) s with
    sp := config.registerAdd s.sp 1, mar := s.sp, abus := s.sp })

/-- `HALT` (R252): fetch, then the halting look-up of step 2; `STEP` stays 2. -/
def execHalt (s : State) : Host.Outcome State Fault Refusal :=
  .next (haltEngine (afterFetch config (opcode .halt) s))

end Sys2Proof.Machine
end

