-- ==== Sys2Proof/Machine/Dispatch.lean ====
section
/-! DEFINITION. The dispatch: each instruction to its meaning, one arm per constructor. `exec i s` is the
whole instruction cycle (R144) of `i` on a running machine at an instruction boundary; `step` alone
looks at `RUN`, `STEP` and the old `IR` (log entry 3). -/

namespace Sys2Proof.Machine

def exec (i : Instr) (s : State) : Host.Outcome State Fault Refusal :=
  match i with
  | .lodi imm8 => Sys2Proof.Machine.execLodi imm8 s
  | .loda addr16 => Sys2Proof.Machine.execLoda addr16 s
  | .lodn addr16 => Sys2Proof.Machine.execLodn addr16 s
  | .stoa addr16 => Sys2Proof.Machine.execStoa addr16 s
  | .ston addr16 => Sys2Proof.Machine.execSton addr16 s
  | .addi imm8 => Sys2Proof.Machine.execAddi imm8 s
  | .adda addr16 => Sys2Proof.Machine.execAdda addr16 s
  | .subi imm8 => Sys2Proof.Machine.execSubi imm8 s
  | .suba addr16 => Sys2Proof.Machine.execSuba addr16 s
  | .adci imm8 => Sys2Proof.Machine.execAdci imm8 s
  | .adca addr16 => Sys2Proof.Machine.execAdca addr16 s
  | .sbci imm8 => Sys2Proof.Machine.execSbci imm8 s
  | .sbca addr16 => Sys2Proof.Machine.execSbca addr16 s
  | .cmpi imm8 => Sys2Proof.Machine.execCmpi imm8 s
  | .cmpa addr16 => Sys2Proof.Machine.execCmpa addr16 s
  | .inc => Sys2Proof.Machine.execInc s
  | .dec => Sys2Proof.Machine.execDec s
  | .neg => Sys2Proof.Machine.execNeg s
  | .andi imm8 => Sys2Proof.Machine.execAndi imm8 s
  | .anda addr16 => Sys2Proof.Machine.execAnda addr16 s
  | .ori imm8 => Sys2Proof.Machine.execOri imm8 s
  | .ora addr16 => Sys2Proof.Machine.execOra addr16 s
  | .not => Sys2Proof.Machine.execNot s
  | .bcs addr16 => Sys2Proof.Machine.execBcs addr16 s
  | .beq addr16 => Sys2Proof.Machine.execBeq addr16 s
  | .bne addr16 => Sys2Proof.Machine.execBne addr16 s
  | .bcc addr16 => Sys2Proof.Machine.execBcc addr16 s
  | .bmi addr16 => Sys2Proof.Machine.execBmi addr16 s
  | .bpl addr16 => Sys2Proof.Machine.execBpl addr16 s
  | .bvs addr16 => Sys2Proof.Machine.execBvs addr16 s
  | .bvc addr16 => Sys2Proof.Machine.execBvc addr16 s
  | .jmp addr16 => Sys2Proof.Machine.execJmp addr16 s
  | .psha => Sys2Proof.Machine.execPsha s
  | .popa => Sys2Proof.Machine.execPopa s
  | .halt => Sys2Proof.Machine.execHalt s

end Sys2Proof.Machine
end

