-- ==== Sys2Proof/Machine/ControlWord.lean ====
section
/-! DEFINITION. The 32-bit control word, the machine's micro-instruction (40_control_word_and_rom.md R100
to R105), under the bit positions and mode codes of a configuration. -/

namespace Sys2Proof.Machine

/-- A control word (R100). -/
abbrev ControlWord := BitVec 32

/-- A control ROM: a total function from 16-bit addresses to control words, a parameter of the
micro-step and no state (R65, R106). -/
abbrev Rom := BitVec 16 → ControlWord

/-- The bit position of the reserved bit (R103, D19): no signal's and no part of the ALU field. -/
def reservedBit : Nat := 29

/-- `cw.NAME`: whether a control word asserts a signal (R10). -/
def asserts (cfg : Config) (cw : ControlWord) (g : Signal) : Bool := cw.getLsbD (cfg.signalBit g)

/-- `cw.ALU`, bits 8:5 (R102). -/
def aluField (cfg : Config) (cw : ControlWord) : BitVec 4 := cw.extractLsb' cfg.aluFieldBit 4

/-- The bits of a micro-instruction: compiler and engine share one table of positions (R100, R120). -/
def controlWord (cfg : Config) (m : MicroWord) : ControlWord :=
  m.signals.foldl (fun w g => w ||| (1#32 <<< cfg.signalBit g))
    ((cfg.aluCode m.alu).setWidth 32 <<< cfg.aluFieldBit)

/-- `FETCH0 = PCO | MI`, the FETCH step (R105). -/
def fetch0 (cfg : Config) : ControlWord := controlWord cfg ⟨.nop, [.pco, .mi]⟩

/-- `FETCH1 = MO | II | PCINC1`, the DECODE step (R105). -/
def fetch1 (cfg : Config) : ControlWord := controlWord cfg ⟨.nop, [.mo, .ii, .pcinc1]⟩

end Sys2Proof.Machine
end

