-- ==== Sys2Proof/Machine/Rom.lean ====
section
/-! DEFINITION. The ROM addresser and the compiled control ROM: the compile that fills the ROM from the
micro-programs of a configuration, and the reference ROM it makes of the spec's
(40_control_word_and_rom.md R106 to R116). -/

namespace Sys2Proof.Machine

/-- The ROM address of a flag nibble, an opcode byte and a step: `f << 12 | op << 4 | s` (R108). -/
def romAddressOf (f : BitVec 4) (op : Byte) (st : BitVec 4) : BitVec 16 :=
  (f.setWidth 16 <<< 12) ||| (op.setWidth 16 <<< 4) ||| st.setWidth 16

/-- `ROM_ADDR`: the block's ROM port (R7 a, R108), from the live `FLAGS`, `IR` and `STEP`. -/
def romAddress (s : State) : BitVec 16 :=
  romAddressOf (s.flags.extractLsb' 0 4) s.ir s.stepCounter

/-- `MP[op]`: the shared fetch words, then the execute words (R110); reading past its end gives the zero
control word, the padding of R114. -/
def microProgram (cfg : Config) (m : Mnemonic) : List ControlWord :=
  fetch0 cfg :: fetch1 cfg :: (cfg.execute m).map (controlWord cfg)

/-- `sel(f, op)`: the override rows of BCS and BEQ (R110, R111). -/
def overrideMnemonic (cfg : Config) (f : BitVec 4) (m : Mnemonic) : Mnemonic :=
  match m with
  | .bcs => if f.getLsbD (cfg.flagBit .c) then .jmp else .bcs
  | .beq => if f.getLsbD (cfg.flagBit .z) then .jmp else .beq
  | m => m

/-- The word of the compiled ROM at a flag nibble, an opcode byte and a step (R110); zero for an
undefined opcode (R113). -/
def compiledWord (cfg : Config) (f : BitVec 4) (op : Byte) (st : BitVec 4) : ControlWord :=
  match mnemonicOf cfg op with
  | some m => (microProgram cfg (overrideMnemonic cfg f m)).getD st.toNat 0
  | none => 0

/-- The control ROM compiled from a configuration (R106, R110): a pure function of its tables. -/
def compiledRom (cfg : Config) : Rom := fun addr =>
  compiledWord cfg (addr.extractLsb' 12 4) (addr.extractLsb' 4 8) (addr.extractLsb' 0 4)

/-- The reference control ROM: the spec's (R116). -/
def referenceRom : Rom := compiledRom config

end Sys2Proof.Machine
end

