-- ==== Sys2Proof/Machine/MicroStep.lean ====
section
/-! DEFINITION. The micro-step engine (41_micro_step_engine.md R130 to R145), phase by phase, for any
configuration and any ROM, the machine whose step it is, and the instruction cycle made of it.
Every control word has a meaning here (R290): several drivers of one bus are applied in listing order
and the last one wins (D14, log entry 12). -/

namespace Sys2Proof.Machine

/-- Phase 0 (R135): the data bus idles. -/
def phaseIdle (cfg : Config) (s : State) : State := { s with dbus := idle cfg s.dbus }

/-- Phase 1, address-bus OUT (R136): `PCO`, `SPO`, `MAO`; the last asserted determines `ABUS`. -/
def phaseAddressOut (cfg : Config) (cw : ControlWord) (s : State) : Except EngineFault State :=
  let s := if asserts cfg cw .pco then { s with abus := s.pc } else s
  let s := if asserts cfg cw .spo then { s with abus := s.sp } else s
  if asserts cfg cw .mao then
    match s.mem.readWord cfg s.mar with
    | .ok w => .ok { s with abus := w }
    | .error r => .error r
  else .ok s

/-- Phase 2, data-bus OUT (R137): `AO`, then `MO`. -/
def phaseDataOut (cfg : Config) (cw : ControlWord) (s : State) : State :=
  let s := if asserts cfg cw .ao then { s with dbus := s.a } else s
  if asserts cfg cw .mo then { s with dbus := s.mem.read s.mar } else s

/-- Phase 3, the ALU (R138, R162): a reserved code faults (R167). -/
def phaseAlu (cfg : Config) (cw : ControlWord) (s : State) : Except EngineFault State :=
  match aluModeOfCode cfg (aluField cfg cw) with
  | none => .error (.reservedAluMode (aluField cfg cw))
  | some mode =>
    let out := alu cfg mode s.a s.b s.flags
    .ok { s with dbus := out.result.getD s.dbus, flags := out.flags }

/-- Phase 4, address-bus IN and memory write (R140): `PCI`, `MI`, then `MW` at the new `MAR`. -/
def phaseAddressIn (cfg : Config) (cw : ControlWord) (s : State) : State :=
  let s := if asserts cfg cw .pci then { s with pc := s.abus } else s
  let s := if asserts cfg cw .mi then { s with mar := s.abus } else s
  if asserts cfg cw .mw then { s with mem := s.mem.write s.mar s.dbus } else s

/-- Phase 5, data-bus IN (R141): `AI`, `BI`, `II`, `PCHI`, `PCLI`, on the `PC` left by phase 4. -/
def phaseDataIn (cfg : Config) (cw : ControlWord) (s : State) : State :=
  let s := if asserts cfg cw .ai then { s with a := s.dbus } else s
  let s := if asserts cfg cw .bi then { s with b := s.dbus } else s
  let s := if asserts cfg cw .ii then { s with ir := s.dbus } else s
  let s := if asserts cfg cw .pchi then { s with pc := wordOfBytes (lowByte s.pc) s.dbus } else s
  if asserts cfg cw .pcli then { s with pc := wordOfBytes s.dbus (highByte s.pc) } else s

/-- Whether a word latches an undefined byte into `IR` under the rule that faults at the latch (D15); the
spec's rule faults at the look-up alone. -/
def faultsAtLatch (cfg : Config) (cw : ControlWord) (data : Byte) : Bool :=
  cfg.undefinedOpcode == .atLatch && asserts cfg cw .ii && !definedOpcode cfg data

/-- The net delta that a word's four bits for one register encode (R101, R142). -/
def netDelta (cfg : Config) (cw : ControlWord) (inc1 inc2 dec1 dec2 : Signal) : Int :=
  cfg.deltaOfBits (asserts cfg cw inc1) (asserts cfg cw inc2) (asserts cfg cw dec1)
    (asserts cfg cw dec2)

/-- Phase 6, increments and decrements (R142). -/
def phaseCount (cfg : Config) (cw : ControlWord) (s : State) : State :=
  { s with
    pc := cfg.registerAdd s.pc (netDelta cfg cw .pcinc1 .pcinc2 .pcdec1 .pcdec2)
    mar := cfg.registerAdd s.mar (netDelta cfg cw .mainc1 .mainc2 .madec1 .madec2)
    sp := cfg.registerAdd s.sp (netDelta cfg cw .spinc1 .spinc2 .spdec1 .spdec2) }

/-- Phase 7, the step counter (R143). -/
def phaseStep (cfg : Config) (cw : ControlWord) (s : State) : State :=
  { s with stepCounter := if asserts cfg cw .sr then 0#4 else s.stepCounter + 1#4 }

/-- The phases of one control word without the halt bit, in their fixed order (R131, R134). -/
def applyWord (cfg : Config) (cw : ControlWord) (s : State) : Except EngineFault State :=
  match phaseAddressOut cfg cw (phaseIdle cfg s) with
  | .error r => .error r
  | .ok s1 =>
    match phaseAlu cfg cw (phaseDataOut cfg cw s1) with
    | .error r => .error r
    | .ok s3 =>
      if faultsAtLatch cfg cw s3.dbus then .error (.undefinedOpcode s3.dbus)
      else .ok (phaseStep cfg cw (phaseCount cfg cw (phaseDataIn cfg cw (phaseAddressIn cfg cw s3))))

/-- The ROM look-up (R119, R132): it checks the opcode first. -/
def lookUp (cfg : Config) (rom : Rom) (s : State) : Except EngineFault ControlWord :=
  if definedOpcode cfg s.ir then .ok (rom (romAddress s)) else .error (.undefinedOpcode s.ir)

/-- What a running machine's micro-step leads to (R131): a fault commits nothing but `RUN` (R145), the halt
check comes before every signal (R133). -/
def microStepRunning (cfg : Config) (rom : Rom) (s : State) : State :=
  match lookUp cfg rom s with
  | .error r => raiseFault r s
  | .ok cw =>
    if asserts cfg cw .hlt then haltEngine s
    else
      match applyWord cfg cw s with
      | .ok t => t
      | .error r => raiseFault r s

/-- `MicroStep` (R131), the one transition of level 1 (R5), for any configuration and any ROM. When `RUN` is
not `running` no micro-step exists (R40). -/
def microStepWith (cfg : Config) (rom : Rom) (s : State) :
    Host.Outcome State Fault Refusal :=
  match s.run with
  | .running => .next (microStepRunning cfg rom s)
  | .halted => .fault .halted
  | .faulted r => .fault (.faulted r)

/-- Level 1 of the spec as a machine (R5): the micro-step is its step. For any configuration and any ROM. -/
def microCore (cfg : Config) (rom : Rom) : Host.Core where
  State := State
  Fault := Fault
  Refusal := Refusal
  step := microStepWith cfg rom
  reset := State.resetWith cfg

/-- `n` micro-steps one after another. -/
def microRunWith (cfg : Config) (rom : Rom) (n : Nat) (s : State) :
    Host.Outcome State Fault Refusal :=
  (microCore cfg rom).run n s

/-- The micro-step of the reference machine: the spec's configuration and the ROM compiled from it. -/
def microStep (s : State) : Host.Outcome State Fault Refusal := microStepWith config referenceRom s

/-- Micro-steps until the instruction cycle ends: until `STEP` is back at 0 or `RUN` is no longer
`running` (R144), at most `fuel` of them. -/
def finishCycleWith (cfg : Config) (rom : Rom) : Nat → State → State
  | 0, s => s
  | fuel + 1, s =>
    let t := microStepRunning cfg rom s
    if t.run = .running ∧ t.stepCounter ≠ 0#4 then finishCycleWith cfg rom fuel t else t

/-- Level 2 (R5, R144) for any configuration and any ROM: the rest of the instruction cycle, which has at most
16 micro-steps. -/
def cycleWith (cfg : Config) (rom : Rom) (s : State) : Host.Outcome State Fault Refusal :=
  match s.run with
  | .running => .next (finishCycleWith cfg rom 16 s)
  | .halted => .fault .halted
  | .faulted r => .fault (.faulted r)

/-- The rest of the instruction cycle of a running reference machine. -/
def finishCycle (s : State) : State := finishCycleWith config referenceRom 16 s

end Sys2Proof.Machine
end

