-- ==== Sys2Proof/Machine/Step.lean ====
section
/-! DEFINITION. One step of the package: the rest of the current instruction cycle (R144). From an
instruction boundary it is fetch, decode and `exec`; from inside a cycle, which no run from reset
reaches, it is the micro-steps that are left. DESIGN CHOICE (log entries 1 and 5). -/

namespace Sys2Proof.Machine

/-- A step. When `RUN` is not `running` there is none (R40). -/
def step (s : State) : Host.Outcome State Fault Refusal :=
  match s.run with
  | .halted => .fault .halted
  | .faulted r => .fault (.faulted r)
  | .running =>
    if s.stepCounter = 0#4 then
      match fetchInstr s with
      | .ok i => exec i s
      | .error t => .next t
    else .next (finishCycle s)

/-- `s` with the instruction of a word of spec/opcode_table.json stored where `step` fetches next: it
stands for the host's load path (R283; log entry 11). -/
def State.withFetchWord (s : State) (nbits w : Nat) : State :=
  placeInstruction (tableBytes nbits w) s

end Sys2Proof.Machine
end

