-- ==== Sys2Proof/WellFormed.lean ====
section
/-! DEFINITION. What is well formed. Of an instruction nothing is asked: operand bytes are not checked and
every value is legal (30_encoding.md R79), and the operands' types already have the widths of R70. Of
a control word and of a ROM: the conditions W1 to W7 of 40_control_word_and_rom.md R118, which are
advice; the engine gives every word a meaning (R290). -/

namespace Sys2Proof

/-- Every instruction is well formed (R79). -/
def Instr.wellFormed : Instr → Bool
  | .lodi _ | .loda _ | .lodn _ | .stoa _ | .ston _ => true
  | .addi _ | .adda _ | .subi _ | .suba _ | .adci _ | .adca _ | .sbci _ | .sbca _ => true
  | .cmpi _ | .cmpa _ | .inc | .dec | .neg => true
  | .andi _ | .anda _ | .ori _ | .ora _ | .not => true
  | .bcs _ | .beq _ | .bne _ | .bcc _ | .bmi _ | .bpl _ | .bvs _ | .bvc _ | .jmp _ => true
  | .psha | .popa | .halt => true

namespace Machine

/-- How many of these signals a word asserts. -/
def assertedCount (cfg : Config) (cw : ControlWord) (signals : List Signal) : Nat :=
  (signals.filter (asserts cfg cw)).length

/-- W2 (R118): at most one address-bus driver. -/
def oneAddressDriver (cfg : Config) (cw : ControlWord) : Bool := assertedCount cfg cw [.pco, .spo, .mao] ≤ 1

/-- Whether the word's ALU field names a mode that drives the data bus. -/
def aluDrives (cfg : Config) (cw : ControlWord) : Bool :=
  match aluModeOfCode cfg (aluField cfg cw) with
  | some mode => drivesBus mode
  | none => false

/-- W3 (R118): at most one data-bus driver among `AO`, `MO` and the ALU. -/
def oneDataDriver (cfg : Config) (cw : ControlWord) : Bool :=
  assertedCount cfg cw [.ao, .mo] + (aluDrives cfg cw).toNat ≤ 1

/-- W4 (R118): no reserved ALU mode. -/
def namedAluMode (cfg : Config) (cw : ControlWord) : Bool := (aluModeOfCode cfg (aluField cfg cw)).isSome

/-- W5 (R118): the reserved bit is 0. -/
def reservedBitClear (cw : ControlWord) : Bool := !cw.getLsbD reservedBit

/-- W6 (R118): `HLT` with no other bit. -/
def haltAlone (cfg : Config) (cw : ControlWord) : Bool := !asserts cfg cw .hlt || cw == controlWord cfg ⟨.nop, [.hlt]⟩

/-- W7 (R118): `II` only in `FETCH1`. -/
def latchesIrOnlyInFetch (cfg : Config) (cw : ControlWord) : Bool := !asserts cfg cw .ii || cw == fetch1 cfg

/-- The conditions W2 to W7 on one word (R118). -/
def wordWellFormed (cfg : Config) (cw : ControlWord) : Bool :=
  oneAddressDriver cfg cw && oneDataDriver cfg cw && namedAluMode cfg cw && reservedBitClear cw
    && haltAlone cfg cw && latchesIrOnlyInFetch cfg cw

/-- W1 (R118; R115 a): rows 0 and 1 of every defined opcode are the shared fetch words. -/
def FetchRowsShared (cfg : Config) (rom : Rom) : Prop :=
  ∀ (f : BitVec 4) (op : Byte), definedOpcode cfg op = true →
    rom (romAddressOf f op 0) = fetch0 cfg ∧ rom (romAddressOf f op 1) = fetch1 cfg

/-- A well-formed ROM (R118). -/
def RomWellFormed (cfg : Config) (rom : Rom) : Prop :=
  FetchRowsShared cfg rom ∧ ∀ addr, wordWellFormed cfg (rom addr) = true

end Machine

end Sys2Proof
end

