-- ==== Sys2Proof/Safety.lean ====
section
/-! DEFINITION. The terms claims are stated in: instruction boundaries and cycles (R144), what the ROM
holds for an opcode (R110, R116), the invariants of a run, which instructions write what (R23, R37),
micro-step counts (R293), and what a safe run is (R12). -/

namespace Sys2Proof.Machine

/-! ### Boundaries and cycles -/

/-- The machine is at an instruction boundary (R144). -/
def State.AtBoundary (s : State) : Prop := s.run = .running ∧ s.stepCounter = 0#4

/-- At a boundary with a defined byte in `IR`, so that the look-ups of steps 0 and 1 succeed (R119, R289).
The reset state is such a state, and every step keeps it so (`State.Inv`). -/
def State.Ready (s : State) : Prop := s.AtBoundary ∧ definedOpcode config s.ir = true

/-- The bytes at the program counter decode to `i`. -/
def State.Fetches (s : State) (i : Instr) : Prop :=
  ∃ rest, decode (fetchBytes s) = .ok (i, rest)

/-- From `s` the reference machine's `n` micro-steps lead to `t`, and none before the last ends the
instruction cycle: in between the machine runs with `STEP` not 0. A micro-step that halts or faults is
counted. -/
def CycleTakes (n : Nat) (s t : State) : Prop :=
  microRunWith config referenceRom n s = .next t ∧
    ∀ k, 0 < k → k < n → ∃ u, microRunWith config referenceRom k s = .next u ∧
      u.run = .running ∧ u.stepCounter ≠ 0#4

/-- Where the machine is ready to fetch `i`, what `exec i` answers is what `n` micro-steps of the reference
ROM reach, in one instruction cycle (R5, R144). -/
def CycleCount (i : Instr) (s : State) (n : Nat) : Prop :=
  s.Ready → s.Fetches i → ∃ t, exec i s = .next t ∧ CycleTakes n s t

/-- All sixteen flag rows of opcode `op` hold `FETCH0`, `FETCH1`, the execute words and then zero words
(R110, R114, R116). -/
def RowsHold (op : Byte) (execute : List ControlWord) : Prop :=
  ∀ f st : BitVec 4, referenceRom (romAddressOf f op st)
    = (0x00000401#32 :: 0x00024010#32 :: execute).getD st.toNat 0

/-- One flag row of opcode `op` holds these words. -/
def RowHolds (f : BitVec 4) (op : Byte) (execute : List ControlWord) : Prop :=
  ∀ st : BitVec 4, referenceRom (romAddressOf f op st)
    = (0x00000401#32 :: 0x00024010#32 :: execute).getD st.toNat 0

/-! ### End states that several instruction rules share -/

/-- Scratch state, `PC`, `IR` and `STEP` after the immediate form (44_arithmetic.md, head). -/
def afterImmediate (op m dbus : Byte) (s : State) : State :=
  { s with b := m, pc := s.pc + 2#16, mar := s.pc + 1#16, abus := s.pc + 1#16, dbus := dbus, ir := op
           stepCounter := 0#4 }

/-- Scratch state, `PC`, `IR` and `STEP` after the absolute form. -/
def afterAbsolute (op : Byte) (ea : Word) (dbus : Byte) (s : State) : State :=
  { s with b := s.mem.read ea, pc := s.pc + 3#16, mar := ea, abus := ea, dbus := dbus, ir := op
           stepCounter := 0#4 }

/-- Scratch state, `PC`, `IR` and `STEP` after an instruction on `A` alone. -/
def afterAccumulator (op dbus : Byte) (s : State) : State :=
  { s with pc := s.pc + 1#16, mar := s.pc, abus := s.pc, dbus := dbus, ir := op, stepCounter := 0#4 }

/-- The result byte into `A` and the four flags written. -/
def withResult (x : Byte × Vncz) (s : State) : State :=
  { s with a := x.1, flags := writeVncz config s.flags x.2 }

/-- The state the operand fault of a three-byte instruction leaves (R266 a). -/
def operandFault (op : Byte) (s : State) : State :=
  { s with run := .faulted (.addressOutOfRange 0x10000), pc := 0xFFFF#16, mar := 0xFFFF#16
           abus := 0xFFFF#16, dbus := 0xFF#8, ir := op, stepCounter := 3#4 }

/-- The state the pointer-cell fault of LODN and STON leaves (R266 b). -/
def pointerFault (op : Byte) (s : State) : State :=
  { s with run := .faulted (.addressOutOfRange 0x10000), pc := s.pc + 3#16, mar := 0xFFFF#16
           abus := 0xFFFF#16, dbus := 0xFF#8, ir := op, stepCounter := 4#4 }

/-- What an instruction with an absolute address answers, and in how many micro-steps: `t` in `n`, or the
operand fault, raised by the fourth micro-step, when the operand's second byte would lie at 0x10000. -/
def AbsoluteForm (i : Instr) (op : Byte) (s t : State) (n : Nat) : Prop :=
  (s.pc + 1#16 ≠ 0xFFFF#16 → exec i s = .next t ∧ CycleCount i s n) ∧
    (s.pc + 1#16 = 0xFFFF#16 → exec i s = .next (operandFault op s) ∧ CycleCount i s 4)

/-! ### Invariants -/

/-- What `RUN` says of the other control state, between steps. -/
def State.RunInv (s : State) : Prop :=
  match s.run with
  | .running => s.stepCounter = 0#4 ∧ definedOpcode config s.ir = true
  | .halted => s.stepCounter = 2#4 ∧ s.ir = 0x22#8
  | .faulted (.undefinedOpcode b) => s.stepCounter = 2#4 ∧ s.ir = b ∧ definedOpcode config b = false
  | .faulted (.addressOutOfRange n) =>
    n = 0x10000 ∧ s.mar = 0xFFFF#16 ∧ (s.stepCounter = 3#4 ∨ s.stepCounter = 4#4)
  | .faulted (.reservedAluMode _) => False

/-- The invariant of a run of steps: memory in canonical form, `I` and the reserved flags zero (R36), and
`RUN` telling where the machine stands. -/
def State.Inv (s : State) : Prop :=
  s.mem.wf = true ∧ s.flags.extractLsb' 4 4 = 0#4 ∧ s.RunInv

/-- What `RUN` says of the other control state, between micro-steps of the reference ROM: an undefined
byte stands in `IR` at step 2 only (R119). -/
def State.MicroRunInv (s : State) : Prop :=
  match s.run with
  | .running => definedOpcode config s.ir = true ∨ s.stepCounter = 2#4
  | .halted => s.stepCounter = 2#4 ∧ s.ir = 0x22#8
  | .faulted (.undefinedOpcode b) => s.stepCounter = 2#4 ∧ s.ir = b ∧ definedOpcode config b = false
  | .faulted (.addressOutOfRange n) => n = 0x10000 ∧ s.mar = 0xFFFF#16 ∧ definedOpcode config s.ir = true
  | .faulted (.reservedAluMode _) => False

/-- The invariant of a run of micro-steps of the reference machine. -/
def State.MicroInv (s : State) : Prop :=
  s.mem.wf = true ∧ s.flags.extractLsb' 4 4 = 0#4 ∧ s.MicroRunInv

/-- Two states with the same `A`, `FLAGS`, `PC`, `SP` and `MEM`: what a program sees (R43). -/
def SameVisible (s t : State) : Prop :=
  s.a = t.a ∧ s.flags = t.flags ∧ s.pc = t.pc ∧ s.sp = t.sp ∧ s.mem = t.mem

/-! ### What each instruction may write (R23, R37, R27, R63) -/

/-- Instructions that write all of `V N C Z` (R37). -/
def writesVncz : Instr → Bool
  | .addi _ | .adda _ | .subi _ | .suba _ | .adci _ | .adca _ | .sbci _ | .sbca _ => true
  | .cmpi _ | .cmpa _ | .inc | .dec => true
  | _ => false

/-- Instructions that write `A` (R23). -/
def writesA : Instr → Bool
  | .lodi _ | .loda _ | .lodn _ | .popa => true
  | .addi _ | .adda _ | .subi _ | .suba _ | .adci _ | .adca _ | .sbci _ | .sbca _ => true
  | .inc | .dec | .neg | .andi _ | .anda _ | .ori _ | .ora _ | .not => true
  | _ => false

/-- Instructions that write `B` (R23). -/
def writesB : Instr → Bool
  | .addi _ | .adda _ | .subi _ | .suba _ | .adci _ | .adca _ | .sbci _ | .sbca _ => true
  | .cmpi _ | .cmpa _ | .andi _ | .anda _ | .ori _ | .ora _ => true
  | _ => false

/-- The address an instruction stores its byte at, if it stores one: the operand of STOA, the pointer STON
reads from its cell, `SP - 1` for PSHA (R193, R194, R250). -/
def storeAddress (i : Instr) (s : State) : Option Word :=
  match i with
  | .stoa addr16 => some addr16
  | .ston cell => (s.mem.readWord config cell).toOption
  | .psha => some (s.sp - 1#16)
  | _ => none

/-! ### Micro-step counts (R293) -/

/-- Micro-steps of an instruction that does not fault, fetch included; for HALT the halting look-up is the
third (R74, R293). -/
def microStepCount (i : Instr) (flags : Byte) : Nat :=
  match i with
  | .inc | .dec | .neg | .not => 3
  | .bcs _ => if getFlag config flags .c then 4 else 3
  | .beq _ => if getFlag config flags .z then 4 else 3
  | .bne _ | .bcc _ | .bmi _ | .bpl _ | .bvs _ | .bvc _ => 3
  | .lodi _ | .jmp _ | .popa => 4
  | .loda _ | .stoa _ | .psha => 5
  | .addi _ | .subi _ | .adci _ | .sbci _ | .cmpi _ | .andi _ | .ori _ => 5
  | .lodn _ | .ston _ => 6
  | .adda _ | .suba _ | .adca _ | .sbca _ | .cmpa _ | .anda _ | .ora _ => 6
  | .halt => 3

/-! ### Multi-byte arithmetic (R181) -/

/-- The number a little-endian list of bytes stands for. -/
def valueOf : List Byte → Nat
  | [] => 0
  | b :: rest => b.toNat + 256 * valueOf rest

/-- The result bytes and the last carry of a chain of additions over pairs of bytes, lowest first: the first
takes `cin`, each later one the carry of the one before (ADD then ADC). -/
def addChain (cfg : Config) : Bool → List (Byte × Byte) → List Byte × Bool
  | cin, [] => ([], cin)
  | cin, (x, y) :: rest =>
    let r := aluAdd cfg x y cin
    let tail := addChain cfg r.2.c rest
    (r.1 :: tail.1, tail.2)

/-- The same of subtractions, with borrow (SUB then SBC). -/
def subChain (cfg : Config) : Bool → List (Byte × Byte) → List Byte × Bool
  | cin, [] => ([], cin)
  | cin, (x, y) :: rest =>
    let r := aluSub cfg x y cin
    let tail := subChain cfg r.2.c rest
    (r.1 :: tail.1, tail.2)

/-! ### Safe runs (R12) -/

/-- `n` steps from `s` without an engine fault: no state on the way has `RUN = faulted`. -/
def SafeRun (n : Nat) (s : State) : Prop :=
  ∀ k ≤ n, ∀ t, Sys2Proof.core.run k s = .next t → ∀ r, t.run ≠ .faulted r

end Sys2Proof.Machine
end

