-- ==== Sys2Proof/Certificates/Slice0/Obligations.lean ====
section
/-! DEFINITION. The statements for the provers, from the numbered rules of spec/. -/

open Sys2Proof Sys2Proof.Machine

/-! ### Encoding -/

/-- A few words written out from the spec's encodings read as the instructions they stand for (R74; the
words of R87 and of 43 to 47). The opcode values are the spec's decision D10 (log entry 9). -/
def Obligations.SpecWordsDecode : Prop :=
  decode [0x00#8, 0x01#8, 0x22#8] = .ok (.lodi 0x01#8, [0x22#8]) ∧
    decode [0x06#8, 0x22#8, 0x00#8] = .ok (.adda 0x0022#16, []) ∧
    decode [0x13#8, 0x60#8, 0x00#8] = .ok (.anda 0x0060#16, []) ∧
    decode [0x17#8, 0xCD#8, 0xAB#8] = .ok (.bcs 0xABCD#16, []) ∧
    decode [0x20#8] = .ok (.psha, []) ∧ decode [0x22#8] = .ok (.halt, [])

/-- Decoding an encoded instruction gives it back, with the bytes after it (R70, R71, R74). -/
def Obligations.DecodeInvertsEncode : Prop :=
  ∀ (i : Instr) (rest : List Byte), decode (encode i ++ rest) = .ok (i, rest)

/-- What decodes to an instruction is its encoding: each mnemonic has one value (R73). -/
def Obligations.EncodeInvertsDecode : Prop :=
  ∀ (bytes rest : List Byte) (i : Instr), decode bytes = .ok (i, rest) → bytes = encode i ++ rest

/-- The defined opcodes are 0x00 to 0x22; every other first byte is rejected by name and no defined one is
(R73, R76). -/
def Obligations.UndefinedBytesAreRejected : Prop :=
  ∀ (b : Byte) (rest : List Byte),
    (definedOpcode config b = true ↔ b.toNat ≤ 0x22) ∧
      (decode (b :: rest) = .error (.undefinedOpcode b) ↔ 0x23 ≤ b.toNat)

/-! ### Control ROM -/

/-- `ROM_ADDR = (FLAGS & 0xF) << 12 | IR << 4 | STEP`, of the state as the look-up finds it (R108). -/
def Obligations.RomAddressIsFlagsOpcodeStep : Prop :=
  ∀ s : State,
    (romAddress s).toNat = s.flags.toNat % 16 * 4096 + s.ir.toNat * 16 + s.stepCounter.toNat ∧
      (romAddress s).getLsbD 15 = getFlag config s.flags .z ∧
      (romAddress s).getLsbD 14 = getFlag config s.flags .c ∧
      (romAddress s).getLsbD 13 = getFlag config s.flags .n ∧
      (romAddress s).getLsbD 12 = getFlag config s.flags .v ∧
      ∀ (cfg : Config) (rom : Rom), definedOpcode cfg s.ir = true →
        lookUp cfg rom s = .ok (rom (romAddress s))

/-- R115: fetch rows shared by all defined opcodes; BCS with the carry bit set and BEQ with the zero bit set
hold JMP's words, otherwise their own; every other opcode has sixteen identical flag rows. -/
def Obligations.FetchRowsAndOverrides : Prop :=
  (∀ (f : BitVec 4) (op : Byte), op.toNat ≤ 0x22 →
      referenceRom (romAddressOf f op 0#4) = 0x00000401#32 ∧
      referenceRom (romAddressOf f op 1#4) = 0x00024010#32) ∧
    (∀ f st : BitVec 4, f.getLsbD 2 = true →
      referenceRom (romAddressOf f 0x17#8 st) = referenceRom (romAddressOf f 0x1F#8 st)) ∧
    (∀ f st : BitVec 4, f.getLsbD 2 = false →
      referenceRom (romAddressOf f 0x17#8 st)
        = ([0x00000401#32, 0x00024010#32, 0x40040000#32] : List ControlWord).getD st.toNat 0) ∧
    (∀ f st : BitVec 4, f.getLsbD 3 = true →
      referenceRom (romAddressOf f 0x18#8 st) = referenceRom (romAddressOf f 0x1F#8 st)) ∧
    (∀ f st : BitVec 4, f.getLsbD 3 = false →
      referenceRom (romAddressOf f 0x18#8 st)
        = ([0x00000401#32, 0x00024010#32, 0x40040000#32] : List ControlWord).getD st.toNat 0) ∧
    (∀ (f g st : BitVec 4) (op : Byte), op ≠ 0x17#8 → op ≠ 0x18#8 →
      referenceRom (romAddressOf f op st) = referenceRom (romAddressOf g op st))

/-- R113: every word of an undefined opcode is the zero control word, and none is applied, because the look-up
faults first. -/
def Obligations.UndefinedOpcodeRowsAreZero : Prop :=
  (∀ (f st : BitVec 4) (op : Byte), 0x23 ≤ op.toNat →
      referenceRom (romAddressOf f op st) = 0#32) ∧
    ∀ (p : OpenParameters) (rom : Rom) (s : State), 0x23 ≤ s.ir.toNat →
      lookUp (specConfig p) rom s = .error (.undefinedOpcode s.ir)

/-- The reference ROM meets the conditions W1 to W7 at every address (R118). -/
def Obligations.ReferenceRomIsWellFormed : Prop := RomWellFormed config referenceRom

/-! ### Micro-step engine, for any ROM, and for any configuration where the rule does not name a decided value;
else for the spec's tables (`specConfig`) with any values of the open parameters -/

/-- R40: `RUN` is `running` after reset, and when it is not, neither a micro-step nor a step exists. -/
def Obligations.StoppedMachineTakesNoStep : Prop :=
  State.reset.run = .running ∧
    ∀ (cfg : Config) (rom : Rom) (s : State), s.run ≠ .running →
      (∀ t, microStepWith cfg rom s ≠ .next t) ∧ ∀ t, step s ≠ .next t

/-- A micro-step that halts or faults changes nothing but `RUN` (R133, R145, R264). -/
def Obligations.StoppingMicroStepChangesOnlyRun : Prop :=
  ∀ (cfg : Config) (rom : Rom) (s t : State), microStepWith cfg rom s = .next t →
    t.run ≠ .running → t = { s with run := t.run }

/-- R263: the first event met decides: undefined opcode, halt, address fault, reserved ALU mode; with none of
them the machine goes on. -/
def Obligations.FirstEventDecides : Prop :=
  ∀ (p : OpenParameters) (rom : Rom) (s : State), s.run = .running →
    let cfg := specConfig p
    let cw := rom (romAddress s)
    let addressFault := asserts cfg cw .mao = true ∧ s.mar = 0xFFFF#16
    let reserved := 4 ≤ (aluField cfg cw).toNat ∧ (aluField cfg cw).toNat ≤ 7
    (0x23 ≤ s.ir.toNat → microStepWith cfg rom s
        = .next { s with run := .faulted (.undefinedOpcode s.ir) }) ∧
      (s.ir.toNat ≤ 0x22 → asserts cfg cw .hlt = true →
        microStepWith cfg rom s = .next { s with run := .halted }) ∧
      (s.ir.toNat ≤ 0x22 → asserts cfg cw .hlt = false → addressFault → microStepWith cfg rom s
        = .next { s with run := .faulted (.addressOutOfRange 0x10000) }) ∧
      (s.ir.toNat ≤ 0x22 → asserts cfg cw .hlt = false → ¬addressFault → reserved →
        microStepWith cfg rom s
          = .next { s with run := .faulted (.reservedAluMode (aluField cfg cw)) }) ∧
      (s.ir.toNat ≤ 0x22 → asserts cfg cw .hlt = false → ¬addressFault → ¬reserved →
        ∃ t, applyWord cfg cw s = .ok t ∧ microStepWith cfg rom s = .next t ∧ t.run = .running)

/-- R146: with any ROM whose fetch rows are shared, every instruction cycle begins with FETCH and DECODE. -/
def Obligations.FetchStepsForAnyRom : Prop :=
  ∀ (p : OpenParameters) (rom : Rom) (s : State), FetchRowsShared config rom →
    p.dbusIdle = .everyStep → s.Ready →
    microRunWith (specConfig p) rom 1 s = .next { s with
        abus := s.pc, mar := s.pc, dbus := 0xFF#8, stepCounter := 1#4 } ∧
      microRunWith (specConfig p) rom 2 s = .next { s with
        ir := s.mem.read s.pc, mar := s.pc, abus := s.pc, dbus := s.mem.read s.pc
        pc := s.pc + 1#16, stepCounter := 2#4 }

/-- R103, R104: the zero control word asserts no signal, selects the mode NOP, idles the data bus and advances `STEP` and does nothing else; the
reserved bit has no effect and is clear in the reference ROM. -/
def Obligations.ZeroWordAndReservedBit : Prop :=
  (∀ (p : OpenParameters) (s : State), p.dbusIdle = .everyStep →
      (∀ signal, asserts (specConfig p) 0#32 signal = false) ∧
      aluModeOfCode (specConfig p) (aluField (specConfig p) 0#32) = some .nop ∧
      applyWord (specConfig p) 0#32 s
        = .ok { s with dbus := 0xFF#8, stepCounter := s.stepCounter + 1#4 }) ∧
    (∀ (p : OpenParameters) (cw : ControlWord) (s : State),
      applyWord (specConfig p) (cw ||| 0x20000000#32) s
        = applyWord (specConfig p) (cw &&& 0xDFFFFFFF#32) s ∧
      asserts (specConfig p) (cw ||| 0x20000000#32) .hlt
        = asserts (specConfig p) (cw &&& 0xDFFFFFFF#32) .hlt) ∧
    ∀ addr, (referenceRom addr).getLsbD 29 = false

/-- The buses and flags after a control word that does not fault (R136, R137, R138, R162): the last driver
in listing order wins, the ALU over `MO` over `AO`, and an undriven address bus keeps its value. -/
def Obligations.BusesAfterAControlWord : Prop :=
  ∀ (cfg : Config) (cw : ControlWord) (s t : State), applyWord cfg cw s = .ok t →
    t.abus = (if asserts cfg cw .mao then addressOfBytes cfg (s.mem.read s.mar) (s.mem.read (s.mar + 1#16))
      else if asserts cfg cw .spo then s.sp else if asserts cfg cw .pco then s.pc else s.abus) ∧
    ∃ mode, aluModeOfCode cfg (aluField cfg cw) = some mode ∧
      t.flags = (alu cfg mode s.a s.b s.flags).flags ∧
      t.dbus = (alu cfg mode s.a s.b s.flags).result.getD
        (if asserts cfg cw .mo then s.mem.read s.mar
          else if asserts cfg cw .ao then s.a else idle cfg s.dbus)

/-- The registers, memory and counter after a control word that does not fault, from the buses it leaves
(R140 to R143): `MW` at the new `MAR`, the bytes of `PC` on the loaded `PC`, deltas after loads, their sum
modulo 65536. -/
def Obligations.LatchesAfterAControlWord : Prop :=
  ∀ (p : OpenParameters) (cw : ControlWord) (s t : State),
    let cfg := specConfig p
    let mar := if asserts cfg cw .mi then t.abus else s.mar
    let pc := if asserts cfg cw .pci then t.abus else s.pc
    let delta (inc1 inc2 dec1 dec2 : Signal) : Int :=
      (asserts cfg cw inc1).toNat + 2 * (asserts cfg cw inc2).toNat
        - (asserts cfg cw dec1).toNat - 2 * (asserts cfg cw dec2).toNat
    applyWord cfg cw s = .ok t →
      t.mem = (if asserts cfg cw .mw then s.mem.write mar t.dbus else s.mem) ∧
      t.a = (if asserts cfg cw .ai then t.dbus else s.a) ∧
      t.b = (if asserts cfg cw .bi then t.dbus else s.b) ∧
      t.ir = (if asserts cfg cw .ii then t.dbus else s.ir) ∧
      t.mar = mar + BitVec.ofInt 16 (delta .mainc1 .mainc2 .madec1 .madec2) ∧
      t.sp = s.sp + BitVec.ofInt 16 (delta .spinc1 .spinc2 .spdec1 .spdec2) ∧
      t.pc = wordOfBytes (if asserts cfg cw .pcli then t.dbus else lowByte pc)
          (if asserts cfg cw .pchi then t.dbus else highByte pc)
        + BitVec.ofInt 16 (delta .pcinc1 .pcinc2 .pcdec1 .pcdec2) ∧
      t.stepCounter = (if asserts cfg cw .sr then 0#4 else s.stepCounter + 1#4) ∧ t.run = s.run

/-- A register after its net delta: the value plus the deltas of the asserted bits, modulo 65536, so that no
register overflow faults (R25, R101, R142). -/
def Obligations.NetDeltaIsTheSumOfDeltas : Prop :=
  ∀ (p : OpenParameters) (cw : ControlWord) (inc1 inc2 dec1 dec2 : Signal) (x : Word),
    let cfg := specConfig p
    ((cfg.registerAdd x (netDelta cfg cw inc1 inc2 dec1 dec2)).toNat : Int)
      = (x.toNat + (asserts cfg cw inc1).toNat + 2 * (asserts cfg cw inc2).toNat
          - (asserts cfg cw dec1).toNat - 2 * (asserts cfg cw dec2).toNat) % 65536

/-- R34: a micro-step writes flags only in the modes ADD, SUB, ADC, SBC, INC, DEC, CMP (V N C Z) and NEG (Z
and N), and never the bits 7:4 (R36). -/
def Obligations.FlagsWrittenByArithmeticModesOnly : Prop :=
  ∀ (p : OpenParameters) (rom : Rom) (s t : State), microStepWith (specConfig p) rom s = .next t →
    t.flags.extractLsb' 4 4 = s.flags.extractLsb' 4 4 ∧
      (t.flags ≠ s.flags → ∃ mode,
        aluModeOfCode config (aluField config (rom (romAddress s))) = some mode ∧
        mode ∈ [AluMode.add, .sub, .adc, .sbc, .inc, .dec, .cmp, .neg] ∧
        (mode = .neg → getFlag config t.flags .c = getFlag config s.flags .c ∧
          getFlag config t.flags .v = getFlag config s.flags .v))

/-! ### ALU -/

/-- The addition's result and flags as arithmetic (R170, R180): `C` unsigned carry, `V` signed overflow, `Z`
from the truncated result (the spec's choice D7, log entry 7), `N` bit 7. -/
def Obligations.AdditionLaws : Prop :=
  ∀ (op1 op2 : Byte) (cin : Bool),
    let x := aluAdd config op1 op2 cin
    let sum := op1.toNat + op2.toNat + cin.toNat
    let signed := op1.toInt + op2.toInt + cin.toNat
    x.1.toNat = sum % 256 ∧ (x.2.c = true ↔ 255 < sum) ∧
      (x.2.v = true ↔ signed < -128 ∨ 127 < signed) ∧ (x.2.z = true ↔ x.1 = 0#8) ∧
      x.2.n = x.1.getLsbD 7

/-- The subtraction's result and flags as arithmetic (R171, R180): `C` is the borrow the bit formula
yields, `V` signed overflow (the spec's choice D8, log entry 7). -/
def Obligations.SubtractionLaws : Prop :=
  ∀ (op1 op2 : Byte) (cin : Bool),
    let x := aluSub config op1 op2 cin
    let signed := op1.toInt - op2.toInt - cin.toNat
    (x.1.toNat : Int) = (op1.toNat - op2.toNat - cin.toNat : Int) % 256 ∧
      (x.2.c = true ↔ op1.toNat < op2.toNat + cin.toNat) ∧
      (x.2.v = true ↔ signed < -128 ∨ 127 < signed) ∧ (x.2.z = true ↔ x.1 = 0#8) ∧
      x.2.n = x.1.getLsbD 7

/-- The alternative parameter values change one flag and nothing else: `SUB_V_RULE = add_shape` the `V` of a
subtraction, as R172 says, and `ADD_Z_RULE = full_sum` the `Z` of an addition, exactly where the sum is
0x100 (R170). -/
def Obligations.AlternativeFlagRules : Prop :=
  ∀ (p : OpenParameters) (op1 op2 : Byte) (cin : Bool),
    let cfg := specConfig p
    (cfg.subVRule = .addShape →
      let x := aluSub cfg op1 op2 cin
      x.2.v = (op1.getLsbD 7 == op2.getLsbD 7 && x.1.getLsbD 7 != op1.getLsbD 7) ∧
        (op1.getLsbD 7 ≠ op2.getLsbD 7 → x.2.v = false) ∧
        (aluSub cfg 0x00#8 0x01#8 false).2.v = true ∧
        x = ((aluSub config op1 op2 cin).1, { (aluSub config op1 op2 cin).2 with v := x.2.v })) ∧
    (cfg.addZRule = .fullSum →
      let x := aluAdd cfg op1 op2 cin
      (x.2.z = true ↔ op1.toNat + op2.toNat + cin.toNat = 0) ∧
        x = ((aluAdd config op1 op2 cin).1, { (aluAdd config op1 op2 cin).2 with z := x.2.z }) ∧
        (x.2.z ≠ (aluAdd config op1 op2 cin).2.z ↔ op1.toNat + op2.toNat + cin.toNat = 0x100))

/-- R173: `WriteVNCZ` sets bits 0 to 3 and leaves `FLAGS[7:4]`. -/
def Obligations.WriteVnczReplacesFourBits : Prop :=
  ∀ (flags : Byte) (f : Vncz),
    (writeVncz config flags f).getLsbD 0 = f.v ∧ (writeVncz config flags f).getLsbD 1 = f.n ∧
      (writeVncz config flags f).getLsbD 2 = f.c ∧ (writeVncz config flags f).getLsbD 3 = f.z ∧
      (writeVncz config flags f).extractLsb' 4 4 = flags.extractLsb' 4 4

/-- R163 to R166: NOP drives nothing, AND, OR and NOT drive their result, and none writes a flag. -/
def Obligations.NonArithmeticModes : Prop :=
  ∀ (p : OpenParameters) (a b flags : Byte),
    let cfg := specConfig p
    alu cfg .nop a b flags = { result := none, flags := flags } ∧
      alu cfg .and a b flags = { result := some (a &&& b), flags := flags } ∧
      alu cfg .or a b flags = { result := some (a ||| b), flags := flags } ∧
      alu cfg .not a b flags = { result := some (~~~a), flags := flags }

/-- R179: after CMP `Z` says equal, `C` unsigned less, `N` different from `V` signed less; no result. -/
def Obligations.CompareOrders : Prop :=
  ∀ a b flags : Byte,
    let out := alu config .cmp a b flags
    out.result = none ∧ (getFlag config out.flags .z = true ↔ a = b) ∧
      (getFlag config out.flags .c = true ↔ a.toNat < b.toNat) ∧
      (getFlag config out.flags .n ≠ getFlag config out.flags .v ↔ a.toInt < b.toInt)

/-- R176, R177, R178: INC and DEC as addition and subtraction of 1 with all four flags; NEG writes `Z` and `N`
and leaves `C`, `V` and the bits 7:4. -/
def Obligations.IncrementDecrementNegate : Prop :=
  ∀ a b flags : Byte,
    let inc := alu config .inc a b flags
    let dec := alu config .dec a b flags
    let neg := alu config .neg a b flags
    (inc.result = some (a + 1#8) ∧ (getFlag config inc.flags .c = true ↔ a = 0xFF#8) ∧
        (getFlag config inc.flags .v = true ↔ a = 0x7F#8) ∧
        (getFlag config inc.flags .z = true ↔ a + 1#8 = 0#8) ∧
        getFlag config inc.flags .n = (a + 1#8).getLsbD 7 ∧
        inc.flags.extractLsb' 4 4 = flags.extractLsb' 4 4) ∧
      (dec.result = some (a - 1#8) ∧ (getFlag config dec.flags .c = true ↔ a = 0x00#8) ∧
        (getFlag config dec.flags .v = true ↔ a = 0x80#8) ∧
        (getFlag config dec.flags .z = true ↔ a - 1#8 = 0#8) ∧
        getFlag config dec.flags .n = (a - 1#8).getLsbD 7 ∧
        dec.flags.extractLsb' 4 4 = flags.extractLsb' 4 4) ∧
      (neg.result = some (0#8 - a) ∧ (getFlag config neg.flags .z = true ↔ 0#8 - a = 0#8) ∧
        getFlag config neg.flags .n = (0#8 - a).getLsbD 7 ∧
        getFlag config neg.flags .c = getFlag config flags .c ∧ getFlag config neg.flags .v = getFlag config flags .v ∧
        neg.flags.extractLsb' 4 4 = flags.extractLsb' 4 4)

/-- R181: a chain of additions, then of additions with carry, adds the multi-byte numbers, its last carry the
carry of the whole; so with subtractions and borrow. -/
def Obligations.CarryChainsAddAndSubtract : Prop :=
  ∀ (pairs : List (Byte × Byte)) (cin : Bool),
    let add := addChain config cin pairs
    let sub := subChain config cin pairs
    let x := valueOf (pairs.map Prod.fst)
    let y := valueOf (pairs.map Prod.snd)
    add.1.length = pairs.length ∧ sub.1.length = pairs.length ∧
      valueOf add.1 + 256 ^ pairs.length * add.2.toNat = x + y + cin.toNat ∧
      valueOf sub.1 + y + cin.toNat = x + 256 ^ pairs.length * sub.2.toNat

/-! ### Memory and the host's load -/

/-- The two-byte read is little-endian and faults at 0xFFFF without wrapping (R52, R54); it reads back a
pointer stored a byte at a time, low byte first (R55). -/
def Obligations.TwoByteReadIsLittleEndian : Prop :=
  ∀ (m : Memory) (addr w : Word),
    (addr ≠ 0xFFFF#16 → ∃ v, m.readWord config addr = .ok v ∧
        v.toNat = (m.read addr).toNat + 256 * (m.read (addr + 1#16)).toNat) ∧
      (addr = 0xFFFF#16 → m.readWord config addr = .error (.addressOutOfRange 0x10000)) ∧
      (addr ≠ 0xFFFF#16 →
        ((m.write addr (lowByte w)).write (addr + 1#16) (highByte w)).readWord config addr = .ok w)

/-- The host's image stands at its addresses and everything else of the state is as before; an image that
does not fit is refused (R283; refusing is U20's treatment). -/
def Obligations.LoadedImageStandsAtItsAddresses : Prop :=
  ∀ (base : Nat) (image : List Byte) (s : State),
    (65536 < base + image.length → loadImage base image s = none) ∧
      (base + image.length ≤ 65536 → ∃ t, loadImage base image s = some t ∧
        t = { s with mem := t.mem } ∧
        ∀ x : Word, t.mem.read x = if base ≤ x.toNat ∧ x.toNat < base + image.length
          then image.getD (x.toNat - base) 0#8 else s.mem.read x)

/-! ### Instructions: encoding, micro-program, effect and micro-steps of each -/

/-- R190. -/
def Obligations.LodiLoadsImmediate : Prop :=
  ∀ (imm8 : Byte) (s : State),
    encode (.lodi imm8) = [0x00#8, imm8] ∧ RowsHold 0x00#8 [0x00000401#32, 0x40021010#32] ∧
      exec (.lodi imm8) s = .next { s with
        a := imm8, pc := s.pc + 2#16, mar := s.pc + 1#16, abus := s.pc + 1#16, dbus := imm8
        ir := 0x00#8, stepCounter := 0#4 } ∧
      CycleCount (.lodi imm8) s 4

/-- R191. -/
def Obligations.LodaLoadsAbsolute : Prop :=
  ∀ (ea : Word) (s : State),
    encode (.loda ea) = [0x01#8, lowByte ea, highByte ea] ∧
      RowsHold 0x01#8 [0x00000401#32, 0x00040404#32, 0x40001010#32] ∧
      AbsoluteForm (.loda ea) 0x01#8 s { s with
        a := s.mem.read ea, pc := s.pc + 3#16, mar := ea, abus := ea, dbus := s.mem.read ea
        ir := 0x01#8, stepCounter := 0#4 } 5

/-- R192, with its two faults. -/
def Obligations.LodnLoadsThroughAPointer : Prop :=
  ∀ (cell : Word) (s : State),
    let ea := wordOfBytes (s.mem.read cell) (s.mem.read (cell + 1#16))
    encode (.lodn cell) = [0x02#8, lowByte cell, highByte cell] ∧
      RowsHold 0x02#8 [0x00000401#32, 0x00040404#32, 0x00000404#32, 0x40001010#32] ∧
      (s.pc + 1#16 = 0xFFFF#16 → exec (.lodn cell) s = .next (operandFault 0x02#8 s) ∧
        CycleCount (.lodn cell) s 4) ∧
      (s.pc + 1#16 ≠ 0xFFFF#16 → cell = 0xFFFF#16 →
        exec (.lodn cell) s = .next (pointerFault 0x02#8 s) ∧ CycleCount (.lodn cell) s 5) ∧
      (s.pc + 1#16 ≠ 0xFFFF#16 → cell ≠ 0xFFFF#16 →
        exec (.lodn cell) s = .next { s with
          a := s.mem.read ea, pc := s.pc + 3#16, mar := ea, abus := ea, dbus := s.mem.read ea
          ir := 0x02#8, stepCounter := 0#4 } ∧ CycleCount (.lodn cell) s 6)

/-- R193. -/
def Obligations.StoaStoresAbsolute : Prop :=
  ∀ (ea : Word) (s : State),
    encode (.stoa ea) = [0x03#8, lowByte ea, highByte ea] ∧
      RowsHold 0x03#8 [0x00000401#32, 0x00040404#32, 0x40000808#32] ∧
      AbsoluteForm (.stoa ea) 0x03#8 s { s with
        mem := s.mem.write ea s.a, pc := s.pc + 3#16, mar := ea, abus := ea, dbus := s.a
        ir := 0x03#8, stepCounter := 0#4 } 5

/-- R194, with its two faults. -/
def Obligations.StonStoresThroughAPointer : Prop :=
  ∀ (cell : Word) (s : State),
    let ea := wordOfBytes (s.mem.read cell) (s.mem.read (cell + 1#16))
    encode (.ston cell) = [0x04#8, lowByte cell, highByte cell] ∧
      RowsHold 0x04#8 [0x00000401#32, 0x00040404#32, 0x00000404#32, 0x40000808#32] ∧
      (s.pc + 1#16 = 0xFFFF#16 → exec (.ston cell) s = .next (operandFault 0x04#8 s) ∧
        CycleCount (.ston cell) s 4) ∧
      (s.pc + 1#16 ≠ 0xFFFF#16 → cell = 0xFFFF#16 →
        exec (.ston cell) s = .next (pointerFault 0x04#8 s) ∧ CycleCount (.ston cell) s 5) ∧
      (s.pc + 1#16 ≠ 0xFFFF#16 → cell ≠ 0xFFFF#16 →
        exec (.ston cell) s = .next { s with
          mem := s.mem.write ea s.a, pc := s.pc + 3#16, mar := ea, abus := ea, dbus := s.a
          ir := 0x04#8, stepCounter := 0#4 } ∧ CycleCount (.ston cell) s 6)

/-- R200, R202, R204, R206: ADDI, SUBI, ADCI, SBCI; after SUBI `C` means borrow. -/
def Obligations.ImmediateArithmetic : Prop :=
  ∀ (m : Byte) (s : State),
    let carry := getFlag config s.flags .c
    let add := aluAdd config s.a m false
    let sub := aluSub config s.a m false
    let adc := aluAdd config s.a m carry
    let sbc := aluSub config s.a m carry
    (encode (.addi m) = [0x05#8, m] ∧
        RowsHold 0x05#8 [0x00000401#32, 0x00022010#32, 0x40001100#32] ∧
        exec (.addi m) s = .next (withResult add (afterImmediate 0x05#8 m add.1 s)) ∧
        CycleCount (.addi m) s 5) ∧
      (encode (.subi m) = [0x07#8, m] ∧
        RowsHold 0x07#8 [0x00000401#32, 0x00022010#32, 0x40001120#32] ∧
        exec (.subi m) s = .next (withResult sub (afterImmediate 0x07#8 m sub.1 s)) ∧
        (sub.2.c = true ↔ s.a.toNat < m.toNat) ∧
        CycleCount (.subi m) s 5) ∧
      (encode (.adci m) = [0x09#8, m] ∧
        RowsHold 0x09#8 [0x00000401#32, 0x00022010#32, 0x40001140#32] ∧
        exec (.adci m) s = .next (withResult adc (afterImmediate 0x09#8 m adc.1 s)) ∧
        CycleCount (.adci m) s 5) ∧
      (encode (.sbci m) = [0x0B#8, m] ∧
        RowsHold 0x0B#8 [0x00000401#32, 0x00022010#32, 0x40001160#32] ∧
        exec (.sbci m) s = .next (withResult sbc (afterImmediate 0x0B#8 m sbc.1 s)) ∧
        CycleCount (.sbci m) s 5)

/-- R201, R203, R205, R207: ADDA, SUBA, ADCA, SBCA. -/
def Obligations.AbsoluteArithmetic : Prop :=
  ∀ (ea : Word) (s : State),
    let m := s.mem.read ea
    let carry := getFlag config s.flags .c
    let add := aluAdd config s.a m false
    let sub := aluSub config s.a m false
    let adc := aluAdd config s.a m carry
    let sbc := aluSub config s.a m carry
    (encode (.adda ea) = [0x06#8, lowByte ea, highByte ea] ∧
        RowsHold 0x06#8 [0x00000401#32, 0x00040404#32, 0x00002010#32, 0x40001100#32] ∧
        AbsoluteForm (.adda ea) 0x06#8 s (withResult add (afterAbsolute 0x06#8 ea add.1 s)) 6) ∧
      (encode (.suba ea) = [0x08#8, lowByte ea, highByte ea] ∧
        RowsHold 0x08#8 [0x00000401#32, 0x00040404#32, 0x00002010#32, 0x40001120#32] ∧
        AbsoluteForm (.suba ea) 0x08#8 s (withResult sub (afterAbsolute 0x08#8 ea sub.1 s)) 6) ∧
      (encode (.adca ea) = [0x0A#8, lowByte ea, highByte ea] ∧
        RowsHold 0x0A#8 [0x00000401#32, 0x00040404#32, 0x00002010#32, 0x40001140#32] ∧
        AbsoluteForm (.adca ea) 0x0A#8 s (withResult adc (afterAbsolute 0x0A#8 ea adc.1 s)) 6) ∧
      (encode (.sbca ea) = [0x0C#8, lowByte ea, highByte ea] ∧
        RowsHold 0x0C#8 [0x00000401#32, 0x00040404#32, 0x00002010#32, 0x40001160#32] ∧
        AbsoluteForm (.sbca ea) 0x0C#8 s (withResult sbc (afterAbsolute 0x0C#8 ea sbc.1 s)) 6)

/-- R208, R209: CMPI and CMPA write flags, `B` and scratch state and leave `A`; the data bus idles; after CMPI `Z`
says equal and `C` unsigned less. -/
def Obligations.CompareInstructions : Prop :=
  ∀ (m : Byte) (ea : Word) (s : State),
    let imm := (aluSub config s.a m false).2
    let mem := (aluSub config s.a (s.mem.read ea) false).2
    (encode (.cmpi m) = [0x0D#8, m] ∧
        RowsHold 0x0D#8 [0x00000401#32, 0x00022010#32, 0x400001E0#32] ∧
        exec (.cmpi m) s = .next { afterImmediate 0x0D#8 m 0xFF#8 s with
          flags := writeVncz config s.flags imm } ∧
        (imm.z = true ↔ s.a = m) ∧ (imm.c = true ↔ s.a.toNat < m.toNat) ∧
        CycleCount (.cmpi m) s 5) ∧
      (encode (.cmpa ea) = [0x0E#8, lowByte ea, highByte ea] ∧
        RowsHold 0x0E#8 [0x00000401#32, 0x00040404#32, 0x00002010#32, 0x400001E0#32] ∧
        AbsoluteForm (.cmpa ea) 0x0E#8 s { afterAbsolute 0x0E#8 ea 0xFF#8 s with
          flags := writeVncz config s.flags mem } 6)

/-- R210, R211, R212: INC, DEC, NEG. -/
def Obligations.AccumulatorArithmetic : Prop :=
  ∀ s : State,
    let inc := aluAdd config s.a 1#8 false
    let dec := aluSub config s.a 1#8 false
    let neg := 0#8 - s.a
    (encode .inc = [0x0F#8] ∧ RowsHold 0x0F#8 [0x400011A0#32] ∧
        exec .inc s = .next (withResult inc (afterAccumulator 0x0F#8 inc.1 s)) ∧
        CycleCount .inc s 3) ∧
      (encode .dec = [0x10#8] ∧ RowsHold 0x10#8 [0x400011C0#32] ∧
        exec .dec s = .next (withResult dec (afterAccumulator 0x10#8 dec.1 s)) ∧
        CycleCount .dec s 3) ∧
      (encode .neg = [0x11#8] ∧ RowsHold 0x11#8 [0x40001180#32] ∧
        exec .neg s = .next { afterAccumulator 0x11#8 neg s with
          a := neg, flags := setFlag config (setFlag config s.flags .z (neg == 0#8)) .n (neg.getLsbD 7) } ∧
        CycleCount .neg s 3)

/-- R220, R222, R224: ANDI, ORI, NOT; no flag is written. -/
def Obligations.LogicalImmediateAndNot : Prop :=
  ∀ (m : Byte) (s : State),
    (encode (.andi m) = [0x12#8, m] ∧
        RowsHold 0x12#8 [0x00000401#32, 0x00022010#32, 0x40001020#32] ∧
        exec (.andi m) s = .next { afterImmediate 0x12#8 m (s.a &&& m) s with a := s.a &&& m } ∧
        CycleCount (.andi m) s 5) ∧
      (encode (.ori m) = [0x14#8, m] ∧
        RowsHold 0x14#8 [0x00000401#32, 0x00022010#32, 0x40001040#32] ∧
        exec (.ori m) s = .next { afterImmediate 0x14#8 m (s.a ||| m) s with a := s.a ||| m } ∧
        CycleCount (.ori m) s 5) ∧
      (encode .not = [0x16#8] ∧ RowsHold 0x16#8 [0x40001060#32] ∧
        exec .not s = .next { afterAccumulator 0x16#8 (~~~s.a) s with a := ~~~s.a } ∧
        CycleCount .not s 3)

/-- R221, R223: ANDA and ORA; no flag is written. -/
def Obligations.LogicalAbsolute : Prop :=
  ∀ (ea : Word) (s : State),
    let m := s.mem.read ea
    (encode (.anda ea) = [0x13#8, lowByte ea, highByte ea] ∧
        RowsHold 0x13#8 [0x00000401#32, 0x00040404#32, 0x00002010#32, 0x40001020#32] ∧
        AbsoluteForm (.anda ea) 0x13#8 s
          { afterAbsolute 0x13#8 ea (s.a &&& m) s with a := s.a &&& m } 6) ∧
      (encode (.ora ea) = [0x15#8, lowByte ea, highByte ea] ∧
        RowsHold 0x15#8 [0x00000401#32, 0x00040404#32, 0x00002010#32, 0x40001040#32] ∧
        AbsoluteForm (.ora ea) 0x15#8 s
          { afterAbsolute 0x15#8 ea (s.a ||| m) s with a := s.a ||| m } 6)

/-- R230, R231: BCS and BEQ, taken when their flag is set. -/
def Obligations.WiredBranches : Prop :=
  ∀ (target : Word) (s : State),
    let skipped (op : Byte) : State := { s with
      pc := s.pc + 3#16, mar := s.pc, abus := s.pc, dbus := 0xFF#8, ir := op, stepCounter := 0#4 }
    let taken (op : Byte) : State := { s with
      pc := target, mar := s.pc + 1#16, abus := target, dbus := 0xFF#8, ir := op
      stepCounter := 0#4 }
    (encode (.bcs target) = [0x17#8, lowByte target, highByte target] ∧
        (∀ f : BitVec 4, RowHolds f 0x17#8
          (if f.getLsbD 2 then [0x00000401#32, 0x40000204#32] else [0x40040000#32])) ∧
        (getFlag config s.flags .c = false →
          exec (.bcs target) s = .next (skipped 0x17#8) ∧ CycleCount (.bcs target) s 3) ∧
        (getFlag config s.flags .c = true → AbsoluteForm (.bcs target) 0x17#8 s (taken 0x17#8) 4)) ∧
      (encode (.beq target) = [0x18#8, lowByte target, highByte target] ∧
        (∀ f : BitVec 4, RowHolds f 0x18#8
          (if f.getLsbD 3 then [0x00000401#32, 0x40000204#32] else [0x40040000#32])) ∧
        (getFlag config s.flags .z = false →
          exec (.beq target) s = .next (skipped 0x18#8) ∧ CycleCount (.beq target) s 3) ∧
        (getFlag config s.flags .z = true → AbsoluteForm (.beq target) 0x18#8 s (taken 0x18#8) 4))

/-- R232 to R237: the six unwired branches never branch, whatever `FLAGS` holds. -/
def Obligations.UnwiredBranchesSkipTheirOperand : Prop :=
  ∀ (target : Word) (s : State) (i : Instr) (op : Byte),
    (i, op) ∈ [(Instr.bne target, 0x19#8), (.bcc target, 0x1A#8), (.bmi target, 0x1B#8),
      (.bpl target, 0x1C#8), (.bvs target, 0x1D#8), (.bvc target, 0x1E#8)] →
    encode i = [op, lowByte target, highByte target] ∧ RowsHold op [0x40040000#32] ∧
      exec i s = .next { s with
        pc := s.pc + 3#16, mar := s.pc, abus := s.pc, dbus := 0xFF#8, ir := op
        stepCounter := 0#4 } ∧
      CycleCount i s 3

/-- R238. -/
def Obligations.JmpJumps : Prop :=
  ∀ (target : Word) (s : State),
    encode (.jmp target) = [0x1F#8, lowByte target, highByte target] ∧
      RowsHold 0x1F#8 [0x00000401#32, 0x40000204#32] ∧
      AbsoluteForm (.jmp target) 0x1F#8 s { s with
        pc := target, mar := s.pc + 1#16, abus := target, dbus := 0xFF#8, ir := 0x1F#8
        stepCounter := 0#4 } 4

/-- R250. -/
def Obligations.PshaPushes : Prop :=
  ∀ s : State,
    encode .psha = [0x20#8] ∧ RowsHold 0x20#8 [0x08000000#32, 0x00000402#32, 0x40000808#32] ∧
      exec .psha s = .next { s with
        sp := s.sp - 1#16, mem := s.mem.write (s.sp - 1#16) s.a, pc := s.pc + 1#16
        mar := s.sp - 1#16, abus := s.sp - 1#16, dbus := s.a, ir := 0x20#8, stepCounter := 0#4 } ∧
      CycleCount .psha s 5

/-- R251. -/
def Obligations.PopaPops : Prop :=
  ∀ s : State,
    encode .popa = [0x21#8] ∧ RowsHold 0x21#8 [0x00000402#32, 0x42001010#32] ∧
      exec .popa s = .next { s with
        a := s.mem.read s.sp, sp := s.sp + 1#16, pc := s.pc + 1#16, mar := s.sp, abus := s.sp
        dbus := s.mem.read s.sp, ir := 0x21#8, stepCounter := 0#4 } ∧
      CycleCount .popa s 4

/-- R252: HALT fetches and stops; after it no micro-step exists. -/
def Obligations.HaltStopsTheEngine : Prop :=
  ∀ s : State,
    encode .halt = [0x22#8] ∧ RowsHold 0x22#8 [0x80000000#32] ∧ CycleCount .halt s 3 ∧
      ∃ t, exec .halt s = .next t ∧ t = { s with
          pc := s.pc + 1#16, mar := s.pc, abus := s.pc, dbus := 0x22#8, ir := 0x22#8
          stepCounter := 2#4, run := .halted } ∧
        ∀ u, microStep t ≠ .next u ∧ step t ≠ .next u

/-! ### Frames over all instructions -/

/-- What an instruction leaves unchanged (R23, R27, R36, R37): `A` and `B` unless it writes them, `SP` but for
PSHA and POPA, all of `FLAGS` but for the writers of V N C Z and NEG, which leaves C, V and the bits 7:4,
`RUN` but for HALT and an address fault. -/
def Obligations.InstructionsWriteOnlyTheirDestinations : Prop :=
  ∀ (i : Instr) (s t : State), exec i s = .next t →
    (writesA i = false → t.a = s.a) ∧ (writesB i = false → t.b = s.b) ∧
      (i ≠ .psha → i ≠ .popa → t.sp = s.sp) ∧
      t.flags.extractLsb' 4 4 = s.flags.extractLsb' 4 4 ∧
      (writesVncz i = false → i ≠ .neg → t.flags = s.flags) ∧
      (i = .neg → getFlag config t.flags .c = getFlag config s.flags .c ∧
        getFlag config t.flags .v = getFlag config s.flags .v) ∧
      (i ≠ .halt → t.run = s.run ∨ t.run = .faulted (.addressOutOfRange 0x10000))

/-- Every byte of memory but the one an instruction stores to reads as before, and on a run without a fault
that one reads as `A` (R53, R193, R194, R250). -/
def Obligations.StoresChangeOneByte : Prop :=
  ∀ (i : Instr) (s t : State), exec i s = .next t → s.run = .running →
    (∀ x : Word, storeAddress i s ≠ some x → t.mem.read x = s.mem.read x) ∧
      ∀ x : Word, storeAddress i s = some x → t.run = .running → t.mem.read x = s.a

/-- An instruction that faults has written neither `A`, `B`, `FLAGS`, `SP` nor memory (R266, R291). -/
def Obligations.FaultedInstructionWritesNothing : Prop :=
  ∀ (i : Instr) (s t : State) (r : EngineFault), s.run = .running → exec i s = .next t →
    t.run = .faulted r → r = .addressOutOfRange 0x10000 ∧ t.mar = 0xFFFF#16 ∧
      t.abus = 0xFFFF#16 ∧ t.a = s.a ∧ t.b = s.b ∧ t.flags = s.flags ∧ t.sp = s.sp ∧ t.mem = s.mem

/-! ### The machine -/

/-- At a boundary with a defined `IR`, where the bytes at `PC` decode to `i`, a step is `exec i`: nothing is
added around it. -/
def Obligations.StepRunsTheDecodedInstruction : Prop :=
  ∀ (s : State) (i : Instr), s.Ready → s.Fetches i → step s = exec i s

/-- Level 1 governs (R5, R131, R144): from every running state, at a boundary or inside a cycle, with `IR`
defined or not, a step is the micro-steps of the reference ROM up to the end of the instruction cycle; and
running or not, it is the level 2 of the configured machine at the spec's configuration. -/
def Obligations.StepIsTheMicroStepCycle : Prop :=
  ∀ s : State, step s = cycleWith config referenceRom s ∧
    (s.run = .running → ∃ n t, 1 ≤ n ∧ n ≤ 16 ∧ step s = .next t ∧ CycleTakes n s t ∧
      (t.run = .running → t.stepCounter = 0#4))

/-- R293: the micro-steps of every instruction that does not fault. -/
def Obligations.MicroStepCountOfEveryInstruction : Prop :=
  ∀ (i : Instr) (s t : State), s.Ready → s.Fetches i → exec i s = .next t →
    (∀ r, t.run ≠ .faulted r) → CycleTakes (microStepCount i s.flags) s t

/-- R265: an undefined byte fetched faults the third look-up, steps 0 and 1 complete, and nothing continues:
no step follows and every later look-up would fault again. -/
def Obligations.UndefinedOpcodeFaultsAtStepTwo : Prop :=
  ∀ s : State, s.Ready → 0x23 ≤ (s.mem.read s.pc).toNat →
    ∃ t, step s = .next t ∧ t = { s with
        ir := s.mem.read s.pc, pc := s.pc + 1#16, mar := s.pc, abus := s.pc
        dbus := s.mem.read s.pc, stepCounter := 2#4
        run := .faulted (.undefinedOpcode (s.mem.read s.pc)) } ∧
      CycleTakes 3 s t ∧ (∀ u, step t ≠ .next u) ∧
      ∀ rom, lookUp config rom t = .error (.undefinedOpcode (s.mem.read s.pc))

/-- R44: the state after reset, and with the host's image in memory. The values are the spec's decision D20
(log entry 8). -/
def Obligations.ResetLeavesTheStatedValues : Prop :=
  State.reset.pc = 0x0000#16 ∧ State.reset.mar = 0x0000#16 ∧ State.reset.sp = 0x0000#16 ∧
    State.reset.ir = 0x00#8 ∧ State.reset.a = 0x00#8 ∧ State.reset.b = 0x00#8 ∧
    State.reset.flags = 0x00#8 ∧ State.reset.abus = 0x0000#16 ∧ State.reset.dbus = 0xFF#8 ∧
    State.reset.stepCounter = 0#4 ∧ State.reset.run = .running ∧
    (∀ x : Word, State.reset.mem.read x = 0x00#8) ∧
    ∀ (base : Nat) (image : List Byte) (t : State), loadImage base image State.reset = some t →
      t = { State.reset with mem := t.mem } ∧
      ∀ x : Word, t.mem.read x = if base ≤ x.toNat ∧ x.toNat < base + image.length
        then image.getD (x.toNat - base) 0#8 else 0x00#8

/-- The reset state meets both invariants. -/
def Obligations.ResetMeetsTheInvariants : Prop := State.reset.Inv ∧ State.reset.MicroInv

/-- Every step keeps the invariant: memory canonical, `I` and the reserved flags zero (R36), running only at a
boundary with a defined `IR` (R119), halted only by HALT (R252), faulted only as R265 and R266 say. -/
def Obligations.StepKeepsTheInvariant : Prop :=
  ∀ s t : State, s.Inv → step s = .next t → t.Inv

/-- Every micro-step of the reference machine keeps its invariant: an undefined byte stands in `IR` at step 2
only (R119), and no reserved ALU mode is met (R268). -/
def Obligations.MicroStepKeepsTheInvariant : Prop :=
  ∀ s t : State, s.MicroInv → microStep s = .next t → t.MicroInv

/-- A run of steps without a fault stands at a boundary ready to fetch, or at HALT (R12, R144, R252). -/
def Obligations.SafeRunsStandAtABoundaryOrHalt : Prop :=
  ∀ (n : Nat) (s t : State), s.Inv → SafeRun n s → Sys2Proof.core.run n s = .next t →
    t.Inv ∧ (t.Ready ∨ t.run = .halted ∧ t.ir = 0x22#8 ∧ t.stepCounter = 2#4)

/-- R43: no instruction's result depends on the `B`, `MAR`, `ABUS`, `DBUS` or `IR` it finds: two machines a
program cannot tell apart stay so, and their scratch state but `B` becomes equal. -/
def Obligations.ScratchStateIsUnobservable : Prop :=
  ∀ s t : State, s.Ready → t.Ready → SameVisible s t →
    ∃ s' t', step s = .next s' ∧ step t = .next t' ∧ SameVisible s' t' ∧ s'.run = t'.run ∧
      s'.ir = t'.ir ∧ s'.mar = t'.mar ∧ s'.abus = t'.abus ∧ s'.dbus = t'.dbus ∧
      s'.stepCounter = t'.stepCounter

/-- A push then a pop restores `A` and `SP` whatever stands in `A` between, and the pushed byte stays in
memory (R250, R251). -/
def Obligations.PopRestoresWhatPushSaved : Prop :=
  ∀ (s : State) (between : Byte), ∃ t u, exec .psha s = .next t ∧
    exec .popa { t with a := between } = .next u ∧ u.a = s.a ∧ u.sp = s.sp ∧
    u.mem.read (s.sp - 1#16) = s.a

/-- A store over the next opcode byte is seen by its fetch (R63): a stored 0x22 halts the machine there. -/
def Obligations.StoredCodeIsFetched : Prop :=
  ∀ s : State, s.Ready → s.Fetches (.stoa (s.pc + 3#16)) → s.pc + 1#16 ≠ 0xFFFF#16 →
    s.a = 0x22#8 →
    ∃ t u, step s = .next t ∧ step t = .next u ∧ u.run = .halted ∧ u.pc = s.pc + 4#16

/-- The two levels run together (R5): every run of steps is a run of the micro-step machine, and every run of
the micro-step machine leads on, in the rest of its cycle, to a state that a run of steps reaches. -/
def Obligations.RunsAreMicroStepRuns : Prop :=
  (∀ (n : Nat) (s t : State), Sys2Proof.core.run n s = .next t →
      ∃ m, n ≤ m ∧ m ≤ 16 * n ∧ (microCore config referenceRom).run m s = .next t) ∧
    ∀ (m : Nat) (s u : State), (microCore config referenceRom).run m s = .next u →
      ∃ n k t, n ≤ m + k ∧ k ≤ 15 ∧ (microCore config referenceRom).run k u = .next t ∧
        Sys2Proof.core.run n s = .next t
end

