-- ==== Sys2Proof/Laws/Encoding.lean ====
section
/-! SUPPORT. Taking an address apart into its bytes and putting it together (R52, R71). -/

namespace Sys2Proof

/-- The two bytes of an address, low byte first, make it again. -/
@[simp] theorem wordOfBytes_split (a : Word) : wordOfBytes (lowByte a) (highByte a) = a := by
  unfold wordOfBytes lowByte highByte
  apply BitVec.eq_of_toNat_eq
  have h : (a.extractLsb' 8 8 ++ a.extractLsb' 0 8).toNat =
      a.toNat / 256 % 256 * 256 + a.toNat % 256 := by
    rw [BitVec.toNat_append, ← Nat.shiftLeft_add_eq_or_of_lt (BitVec.isLt _)]
    simp [Nat.shiftLeft_eq, Nat.shiftRight_eq_div_pow]
  have := a.isLt
  refine h.trans ?_
  omega

@[simp] theorem lowByte_wordOfBytes (lo hi : Byte) : lowByte (wordOfBytes lo hi) = lo := by
  unfold wordOfBytes lowByte
  exact BitVec.extractLsb'_append_eq_right

@[simp] theorem highByte_wordOfBytes (lo hi : Byte) : highByte (wordOfBytes lo hi) = hi := by
  unfold wordOfBytes highByte
  exact BitVec.extractLsb'_append_eq_left

end Sys2Proof
end

