-- ==== Sys2Proof/Laws/Parameters.lean ====
section
/-! SUPPORT. The spec's configuration: its decided tables do not depend on the open parameters, so that every
function of the tables alone is written at `config`; the register wrap at the deltas that occur; opcode
bytes and mnemonics both ways. -/

namespace Sys2Proof.Machine

/-! ### Functions of the decided tables, at any open parameters -/

@[simp] theorem specConfig_openDefaults : specConfig openDefaults = config := rfl
@[simp] theorem getFlag_specConfig (p : OpenParameters) : getFlag (specConfig p) = getFlag config := rfl
@[simp] theorem setFlag_specConfig (p : OpenParameters) : setFlag (specConfig p) = setFlag config := rfl
@[simp] theorem writeVncz_specConfig (p : OpenParameters) :
    writeVncz (specConfig p) = writeVncz config := rfl
@[simp] theorem aluModeOfCode_specConfig (p : OpenParameters) :
    aluModeOfCode (specConfig p) = aluModeOfCode config := rfl
@[simp] theorem asserts_specConfig (p : OpenParameters) : asserts (specConfig p) = asserts config := rfl
@[simp] theorem aluField_specConfig (p : OpenParameters) :
    aluField (specConfig p) = aluField config := rfl
@[simp] theorem controlWord_specConfig (p : OpenParameters) :
    controlWord (specConfig p) = controlWord config := rfl
@[simp] theorem netDelta_specConfig (p : OpenParameters) :
    netDelta (specConfig p) = netDelta config := rfl
@[simp] theorem mnemonicOf_specConfig (p : OpenParameters) :
    mnemonicOf (specConfig p) = mnemonicOf config := rfl
@[simp] theorem definedOpcode_specConfig (p : OpenParameters) :
    definedOpcode (specConfig p) = definedOpcode config := rfl
@[simp] theorem readWord_specConfig (p : OpenParameters) (m : Memory) (addr : Word) :
    m.readWord (specConfig p) addr = m.readWord config addr := rfl
@[simp] theorem lookUp_specConfig (p : OpenParameters) : lookUp (specConfig p) = lookUp config := rfl
@[simp] theorem compiledRom_specConfig (p : OpenParameters) :
    compiledRom (specConfig p) = referenceRom := rfl

/-! ### The reference values -/

@[simp] theorem addressOfBytes_config (lo hi : Byte) :
    addressOfBytes config lo hi = wordOfBytes lo hi := rfl
@[simp] theorem addressBytes_config (a : Word) : addressBytes config a = [lowByte a, highByte a] := rfl
@[simp] theorem idle_config (last : Byte) : idle config last = 0xFF#8 := rfl
@[simp] theorem faultsAtLatch_specConfig (p : OpenParameters) (cw : ControlWord) (data : Byte) :
    faultsAtLatch (specConfig p) cw data = false := rfl
@[simp] theorem faultsAtLatch_config (cw : ControlWord) (data : Byte) :
    faultsAtLatch config cw data = false := rfl

/-! ### The register wrap -/

@[simp] theorem registerAdd_specConfig (p : OpenParameters) (x : Word) (d : Int) :
    (specConfig p).registerAdd x d = config.registerAdd x d := rfl
theorem registerAdd_config (x : Word) (d : Int) : config.registerAdd x d = x + BitVec.ofInt 16 d := rfl
@[simp] theorem registerAdd_zero (x : Word) : config.registerAdd x 0 = x := by
  simp [registerAdd_config]
@[simp] theorem registerAdd_one (x : Word) : config.registerAdd x 1 = x + 1#16 := rfl
@[simp] theorem registerAdd_two (x : Word) : config.registerAdd x 2 = x + 2#16 := rfl
@[simp] theorem registerAdd_three (x : Word) : config.registerAdd x 3 = x + 3#16 := rfl
@[simp] theorem registerAdd_neg_one (x : Word) : config.registerAdd x (-1) = x - 1#16 := by
  rw [registerAdd_config, BitVec.sub_eq_add_neg]; rfl

/-- A register after a delta, as an integer modulo 65536 (R25 to R27, R142). -/
theorem registerAdd_toNat (x : Word) (d : Int) :
    ((config.registerAdd x d).toNat : Int) = (x.toNat + d) % 65536 := by
  have h : ((BitVec.ofInt 16 d).toNat : Int) = d % 65536 := by
    rw [BitVec.toNat_ofInt]; omega
  rw [registerAdd_config, BitVec.toNat_add]
  omega

/-! ### The opcode map -/

/-- Every mnemonic's opcode byte reads back as the mnemonic: one value per mnemonic (R73). -/
@[simp] theorem mnemonicOf_opcodeByte (m : Mnemonic) :
    mnemonicOf config (config.opcodeByte m) = some m := by
  cases m <;> decide

/-- A byte stands for a mnemonic only if it is that mnemonic's opcode: one mnemonic per value (R73). -/
theorem opcodeByte_of_mnemonicOf {b : Byte} {m : Mnemonic} (h : mnemonicOf config b = some m) :
    config.opcodeByte m = b := by
  simpa using List.find?_some h

/-- The defined opcodes are the bytes 0x00 to 0x22 (R73). -/
theorem definedOpcode_iff (b : Byte) : definedOpcode config b = true ↔ b.toNat ≤ 0x22 := by
  revert b; decide

/-- There are 35 defined opcodes (R8). -/
theorem nOpcodes_config : config.nOpcodes = 35 := rfl

end Sys2Proof.Machine
end

