-- ==== Sys2Proof/Laws/Flags.lean ====
section
/-! SUPPORT. Reading a flag after writing one, and the ALU modes' codes, at the spec's tables. -/

namespace Sys2Proof.Machine

/-- The flag written is read back. -/
@[simp] theorem getFlag_setFlag_same (flags : Byte) (f : Flag) (x : Bool) :
    getFlag config (setFlag config flags f x) f = x := by
  cases f <;> cases x <;> simp [getFlag, setFlag, config, specConfig, flagBits]

/-- Writing a flag leaves every other one. -/
theorem getFlag_setFlag_other (flags : Byte) {f g : Flag} (x : Bool) (h : f ≠ g) :
    getFlag config (setFlag config flags f x) g = getFlag config flags g := by
  cases f <;> cases g <;> cases x <;> simp_all [getFlag, setFlag, config, specConfig, flagBits]

/-- Each mode's code reads back as the mode (R161). -/
@[simp] theorem aluModeOfCode_aluCode (mode : AluMode) :
    aluModeOfCode config (config.aluCode mode) = some mode := by
  cases mode <;> rfl

/-- A code names a mode exactly when it is not 4 to 7 (R161, R167). -/
theorem aluModeOfCode_eq_none (code : BitVec 4) :
    aluModeOfCode config code = none ↔ 4 ≤ code.toNat ∧ code.toNat ≤ 7 := by
  revert code; decide

/-- The operands of the ALU are `A` and `B` (R160, D6). -/
@[simp] theorem aluOperand_op1 (p : OpenParameters) (a b : Byte) :
    aluOperand a b (specConfig p).aluOp1 = a := rfl

@[simp] theorem aluOperand_op2 (p : OpenParameters) (a b : Byte) :
    aluOperand a b (specConfig p).aluOp2 = b := rfl

end Sys2Proof.Machine
end

