-- ==== Sys2Proof/Laws/Memory.lean ====
section
/-! SUPPORT. Memory: a read after a write, and the canonical form every memory operation keeps. The read
laws hold of any list of cells, canonical or not. -/

namespace Sys2Proof.Machine

theorem readAt_eraseAt_same (m : Memory) (n : Nat) : (m.eraseAt n).readAt n = unlistedByte := by
  induction m with
  | nil => rfl
  | cons cell rest ih =>
    obtain ⟨k, v⟩ := cell
    by_cases h : k = n
    · simpa [Memory.eraseAt, h] using ih
    · simpa [Memory.eraseAt, h, Memory.readAt] using ih

theorem readAt_eraseAt_other (m : Memory) {n k : Nat} (hk : k ≠ n) :
    (m.eraseAt n).readAt k = m.readAt k := by
  induction m with
  | nil => rfl
  | cons cell rest ih =>
    obtain ⟨j, v⟩ := cell
    by_cases h : j = n
    · simpa [Memory.eraseAt, h, Memory.readAt, Ne.symm hk] using ih
    · by_cases hj : j = k
      · simp [Memory.eraseAt, hj, hk, Memory.readAt]
      · simpa [Memory.eraseAt, h, hj, Memory.readAt] using ih

theorem readAt_insertAt_same (m : Memory) (n : Nat) (v : Byte) (h : ∀ c ∈ m, c.1 ≠ n) :
    (m.insertAt n v).readAt n = v := by
  induction m with
  | nil => simp [Memory.insertAt, Memory.readAt]
  | cons cell rest ih =>
    obtain ⟨k, w⟩ := cell
    have hk : k ≠ n := h (k, w) (by simp)
    simp only [Memory.insertAt]
    split
    · simp [Memory.readAt]
    · simpa [Memory.readAt, hk] using ih fun c hc => h c (by simp [hc])

theorem readAt_insertAt_other (m : Memory) {n k : Nat} (v : Byte) (hk : k ≠ n) :
    (m.insertAt n v).readAt k = m.readAt k := by
  induction m with
  | nil => simp [Memory.insertAt, Memory.readAt, Ne.symm hk]
  | cons cell rest ih =>
    obtain ⟨j, w⟩ := cell
    simp only [Memory.insertAt]
    split
    · simp [Memory.readAt, Ne.symm hk]
    · simp [Memory.readAt, ih]

theorem eraseAt_ne (m : Memory) (n : Nat) : ∀ c ∈ m.eraseAt n, c.1 ≠ n := by
  intro c hc
  simpa using (List.mem_filter.mp hc).2

/-- The byte written is read back (R53, R60). -/
@[simp] theorem read_write_same (m : Memory) (addr : Word) (v : Byte) :
    (m.write addr v).read addr = v := by
  unfold Memory.write Memory.read
  split
  · next h => rw [readAt_eraseAt_same, h]
  · exact readAt_insertAt_same _ _ _ (eraseAt_ne m _)

/-- A write changes no other byte (R53). -/
@[simp] theorem read_write_other (m : Memory) {addr x : Word} (v : Byte) (h : x ≠ addr) :
    (m.write addr v).read x = m.read x := by
  have h' : x.toNat ≠ addr.toNat := fun e => h (BitVec.eq_of_toNat_eq e)
  unfold Memory.write Memory.read
  split
  · exact readAt_eraseAt_other m h'
  · rw [readAt_insertAt_other _ _ h', readAt_eraseAt_other m h']

/-- The canonical form said of the whole list. -/
theorem wf_iff (m : Memory) : m.wf = true ↔
    (m.Pairwise fun c d => c.1 < d.1) ∧ ∀ c ∈ m, c.1 < 65536 ∧ c.2 ≠ unlistedByte := by
  induction m with
  | nil => simp [Memory.wf]
  | cons c rest ih =>
    obtain ⟨k, v⟩ := c
    cases rest with
    | nil => simp [Memory.wf]
    | cons d rest =>
      obtain ⟨k', v'⟩ := d
      simp only [Memory.wf, Bool.and_eq_true, decide_eq_true_eq, bne_iff_ne, ih]
      constructor
      · rintro ⟨⟨hk, hv⟩, hp, hall⟩
        have hp' := List.pairwise_cons.mp hp
        refine ⟨List.pairwise_cons.mpr ⟨?_, hp⟩, ?_⟩
        · intro e he
          rcases List.mem_cons.mp he with rfl | he
          · exact hk
          · exact lt_trans hk (hp'.1 e he)
        · intro e he
          rcases List.mem_cons.mp he with rfl | he
          · exact ⟨lt_trans hk (hall (k', v') (by simp)).1, hv⟩
          · exact hall e he
      · rintro ⟨hp, hall⟩
        have hp' := List.pairwise_cons.mp hp
        exact ⟨⟨hp'.1 (k', v') (by simp), (hall (k, v) (by simp)).2⟩, hp'.2,
          fun e he => hall e (List.mem_cons_of_mem _ he)⟩

theorem wf_eraseAt {m : Memory} (n : Nat) (h : m.wf = true) : (m.eraseAt n).wf = true := by
  rw [wf_iff] at h ⊢
  exact ⟨h.1.filter _, fun c hc => h.2 c (List.mem_filter.mp hc).1⟩

theorem mem_insertAt (m : Memory) (n : Nat) (v : Byte) (c : Host.Cell) :
    c ∈ m.insertAt n v ↔ c = (n, v) ∨ c ∈ m := by
  induction m with
  | nil => simp [Memory.insertAt]
  | cons d rest ih =>
    obtain ⟨k, w⟩ := d
    simp only [Memory.insertAt]
    split
    · simp
    · simp only [List.mem_cons, ih]
      tauto

theorem wf_insertAt {m : Memory} {n : Nat} {v : Byte} (h : m.wf = true) (hn : n < 65536)
    (hv : v ≠ unlistedByte) (hne : ∀ c ∈ m, c.1 ≠ n) : (m.insertAt n v).wf = true := by
  rw [wf_iff] at h ⊢
  refine ⟨?_, ?_⟩
  · induction m with
    | nil => simp [Memory.insertAt]
    | cons d rest ih =>
      obtain ⟨k, w⟩ := d
      have hp := List.pairwise_cons.mp h.1
      simp only [Memory.insertAt]
      split
      · next hlt =>
        refine List.pairwise_cons.mpr ⟨?_, h.1⟩
        intro e he
        rcases List.mem_cons.mp he with rfl | he
        · exact hlt
        · exact lt_trans hlt (hp.1 e he)
      · next hge =>
        have hk : k ≠ n := hne (k, w) (by simp)
        refine List.pairwise_cons.mpr ⟨?_, ih ⟨hp.2, fun c hc => h.2 c (by simp [hc])⟩
          fun c hc => hne c (by simp [hc])⟩
        intro e he
        rcases (mem_insertAt rest n v e).mp he with rfl | he
        · exact lt_of_le_of_ne (not_lt.mp hge) hk
        · exact hp.1 e he
  · intro c hc
    rcases (mem_insertAt m n v c).mp hc with rfl | hc
    · exact ⟨hn, hv⟩
    · exact h.2 c hc

/-- A write keeps the canonical form. -/
theorem wf_write {m : Memory} (addr : Word) (v : Byte) (h : m.wf = true) :
    (m.write addr v).wf = true := by
  unfold Memory.write
  split
  · exact wf_eraseAt _ h
  · next hv => exact wf_insertAt (wf_eraseAt _ h) addr.isLt hv (eraseAt_ne m _)

/-- The host's load keeps the canonical form. -/
theorem wf_writeBytes (bytes : List Byte) : ∀ {m : Memory} (addr : Word), m.wf = true →
    (writeBytes m addr bytes).wf = true := by
  induction bytes with
  | nil => intro m addr h; exact h
  | cons v rest ih => intro m addr h; exact ih (addr + 1#16) (wf_write addr v h)

/-- The host's load, byte by byte: an image that fits stands at its addresses (R283). -/
theorem read_writeBytes (bytes : List Byte) : ∀ (m : Memory) (addr x : Word),
    addr.toNat + bytes.length ≤ 65536 →
    (writeBytes m addr bytes).read x =
      if addr.toNat ≤ x.toNat ∧ x.toNat < addr.toNat + bytes.length
      then bytes.getD (x.toNat - addr.toNat) 0#8 else m.read x := by
  induction bytes with
  | nil => intro m addr x _; rw [if_neg (by simp)]; rfl
  | cons v rest ih =>
    intro m addr x h
    simp only [List.length_cons] at h ⊢
    unfold writeBytes
    have hs : rest = [] ∨ (addr + 1#16).toNat = addr.toNat + 1 := by
      rcases rest with _ | ⟨w, rest⟩
      · exact .inl rfl
      · right; simp only [List.length_cons] at h; bv_omega
    rcases eq_or_ne x addr with rfl | hx
    · rcases hs with rfl | hs
      · simp [writeBytes]
      · rw [ih _ _ _ (by omega), if_neg (by omega), if_pos (by omega)]; simp
    · have hn : x.toNat ≠ addr.toNat := fun e => hx (BitVec.eq_of_toNat_eq e)
      rcases hs with rfl | hs
      · simp only [writeBytes, List.length_nil]
        rw [if_neg (by omega)]; simp [hx]
      · rw [ih _ _ _ (by omega)]
        by_cases hc : addr.toNat ≤ x.toNat ∧ x.toNat < addr.toNat + (rest.length + 1)
        · rw [if_pos (by omega), if_pos hc, hs]
          obtain ⟨k, hk⟩ : ∃ k, x.toNat - addr.toNat = k + 1 := ⟨x.toNat - addr.toNat - 1, by omega⟩
          rw [hk, List.getD_cons_succ]; congr 1; omega
        · rw [if_neg (by omega), if_neg hc]; simp [hx]

theorem wf_reset : State.reset.mem.wf = true := rfl

/-- The pair at an address is in range exactly when the address is not 0xFFFF (R54). -/
theorem checkPair_ok_iff (addr : Word) : checkPair addr = .ok () ↔ addr ≠ 0xFFFF#16 := by
  have h := addr.isLt
  unfold checkPair
  constructor
  · rintro h1 rfl
    simp at h1
  · intro hne
    have : addr.toNat ≠ 0xFFFF := fun e => hne (BitVec.eq_of_toNat_eq (by simpa using e))
    rw [if_pos (by omega)]

/-- The range check either passes, or the address is 0xFFFF and the fault records 0x10000 (R54). -/
theorem checkPair_cases (addr : Word) :
    (addr ≠ 0xFFFF#16 ∧ checkPair addr = .ok ()) ∨
      (addr = 0xFFFF#16 ∧ checkPair addr = .error (.addressOutOfRange 0x10000)) := by
  by_cases h : addr = 0xFFFF#16
  · subst h; exact .inr ⟨rfl, rfl⟩
  · exact .inl ⟨h, (checkPair_ok_iff addr).mpr h⟩

/-- A two-byte read either gives the two bytes in the configured order, or faults at 0xFFFF. -/
theorem readWord_cases (cfg : Config) (m : Memory) (addr : Word) :
    (addr ≠ 0xFFFF#16 ∧ m.readWord cfg addr
        = .ok (addressOfBytes cfg (m.read addr) (m.read (addr + 1#16)))) ∨
      (addr = 0xFFFF#16 ∧ m.readWord cfg addr = .error (.addressOutOfRange 0x10000)) := by
  rcases checkPair_cases addr with ⟨h, e⟩ | ⟨h, e⟩
  · exact .inl ⟨h, by simp [Memory.readWord, e]⟩
  · exact .inr ⟨h, by simp [Memory.readWord, e]⟩

/-- A load of an image keeps every field but memory, and is refused when the image does not fit. -/
theorem loadImage_eq_some {base : Nat} {image : List Byte} {s t : State}
    (h : loadImage base image s = some t) :
    base + image.length ≤ 65536 ∧
      t = { s with mem := writeBytes s.mem (BitVec.ofNat 16 base) image } := by
  unfold loadImage at h
  split at h
  · next hle => exact ⟨hle, (Option.some.inj h).symm⟩
  · cases h

end Sys2Proof.Machine
end

