-- ==== Sys2Proof/Laws/State.lean ====
section
/-! SUPPORT. One lemma per field for each named update of `State`, so that no later proof unfolds one. -/

namespace Sys2Proof.Machine

/-! ### `raiseFault` -/

@[simp] theorem raiseFault_pc (r : EngineFault) (s : State) : (raiseFault r s).pc = s.pc := rfl
@[simp] theorem raiseFault_mar (r : EngineFault) (s : State) : (raiseFault r s).mar = s.mar := rfl
@[simp] theorem raiseFault_sp (r : EngineFault) (s : State) : (raiseFault r s).sp = s.sp := rfl
@[simp] theorem raiseFault_ir (r : EngineFault) (s : State) : (raiseFault r s).ir = s.ir := rfl
@[simp] theorem raiseFault_a (r : EngineFault) (s : State) : (raiseFault r s).a = s.a := rfl
@[simp] theorem raiseFault_b (r : EngineFault) (s : State) : (raiseFault r s).b = s.b := rfl
@[simp] theorem raiseFault_flags (r : EngineFault) (s : State) :
    (raiseFault r s).flags = s.flags := rfl
@[simp] theorem raiseFault_abus (r : EngineFault) (s : State) :
    (raiseFault r s).abus = s.abus := rfl
@[simp] theorem raiseFault_dbus (r : EngineFault) (s : State) :
    (raiseFault r s).dbus = s.dbus := rfl
@[simp] theorem raiseFault_stepCounter (r : EngineFault) (s : State) :
    (raiseFault r s).stepCounter = s.stepCounter := rfl
@[simp] theorem raiseFault_run (r : EngineFault) (s : State) :
    (raiseFault r s).run = .faulted r := rfl
@[simp] theorem raiseFault_mem (r : EngineFault) (s : State) : (raiseFault r s).mem = s.mem := rfl

/-! ### `haltEngine` -/

@[simp] theorem haltEngine_pc (s : State) : (haltEngine s).pc = s.pc := rfl
@[simp] theorem haltEngine_mar (s : State) : (haltEngine s).mar = s.mar := rfl
@[simp] theorem haltEngine_sp (s : State) : (haltEngine s).sp = s.sp := rfl
@[simp] theorem haltEngine_ir (s : State) : (haltEngine s).ir = s.ir := rfl
@[simp] theorem haltEngine_a (s : State) : (haltEngine s).a = s.a := rfl
@[simp] theorem haltEngine_b (s : State) : (haltEngine s).b = s.b := rfl
@[simp] theorem haltEngine_flags (s : State) : (haltEngine s).flags = s.flags := rfl
@[simp] theorem haltEngine_abus (s : State) : (haltEngine s).abus = s.abus := rfl
@[simp] theorem haltEngine_dbus (s : State) : (haltEngine s).dbus = s.dbus := rfl
@[simp] theorem haltEngine_stepCounter (s : State) :
    (haltEngine s).stepCounter = s.stepCounter := rfl
@[simp] theorem haltEngine_run (s : State) : (haltEngine s).run = .halted := rfl
@[simp] theorem haltEngine_mem (s : State) : (haltEngine s).mem = s.mem := rfl

/-! ### `endCycle` -/

@[simp] theorem endCycle_pc (s : State) : (endCycle s).pc = s.pc := rfl
@[simp] theorem endCycle_mar (s : State) : (endCycle s).mar = s.mar := rfl
@[simp] theorem endCycle_sp (s : State) : (endCycle s).sp = s.sp := rfl
@[simp] theorem endCycle_ir (s : State) : (endCycle s).ir = s.ir := rfl
@[simp] theorem endCycle_a (s : State) : (endCycle s).a = s.a := rfl
@[simp] theorem endCycle_b (s : State) : (endCycle s).b = s.b := rfl
@[simp] theorem endCycle_flags (s : State) : (endCycle s).flags = s.flags := rfl
@[simp] theorem endCycle_abus (s : State) : (endCycle s).abus = s.abus := rfl
@[simp] theorem endCycle_dbus (s : State) : (endCycle s).dbus = s.dbus := rfl
@[simp] theorem endCycle_stepCounter (s : State) : (endCycle s).stepCounter = 0#4 := rfl
@[simp] theorem endCycle_run (s : State) : (endCycle s).run = s.run := rfl
@[simp] theorem endCycle_mem (s : State) : (endCycle s).mem = s.mem := rfl

/-! ### `afterFetch` -/

@[simp] theorem afterFetch_pc (cfg : Config) (op : Byte) (s : State) :
    (afterFetch cfg op s).pc = cfg.registerAdd s.pc 1 := rfl
@[simp] theorem afterFetch_mar (cfg : Config) (op : Byte) (s : State) :
    (afterFetch cfg op s).mar = s.pc := rfl
@[simp] theorem afterFetch_sp (cfg : Config) (op : Byte) (s : State) :
    (afterFetch cfg op s).sp = s.sp := rfl
@[simp] theorem afterFetch_ir (cfg : Config) (op : Byte) (s : State) :
    (afterFetch cfg op s).ir = op := rfl
@[simp] theorem afterFetch_a (cfg : Config) (op : Byte) (s : State) :
    (afterFetch cfg op s).a = s.a := rfl
@[simp] theorem afterFetch_b (cfg : Config) (op : Byte) (s : State) :
    (afterFetch cfg op s).b = s.b := rfl
@[simp] theorem afterFetch_flags (cfg : Config) (op : Byte) (s : State) :
    (afterFetch cfg op s).flags = s.flags := rfl
@[simp] theorem afterFetch_abus (cfg : Config) (op : Byte) (s : State) :
    (afterFetch cfg op s).abus = s.pc := rfl
@[simp] theorem afterFetch_dbus (cfg : Config) (op : Byte) (s : State) :
    (afterFetch cfg op s).dbus = op := rfl
@[simp] theorem afterFetch_stepCounter (cfg : Config) (op : Byte) (s : State) :
    (afterFetch cfg op s).stepCounter = 2#4 := rfl
@[simp] theorem afterFetch_run (cfg : Config) (op : Byte) (s : State) :
    (afterFetch cfg op s).run = s.run := rfl
@[simp] theorem afterFetch_mem (cfg : Config) (op : Byte) (s : State) :
    (afterFetch cfg op s).mem = s.mem := rfl

/-! ### `atOperand` -/

@[simp] theorem atOperand_pc (cfg : Config) (op : Byte) (s : State) :
    (atOperand cfg op s).pc = cfg.registerAdd s.pc 1 := rfl
@[simp] theorem atOperand_mar (cfg : Config) (op : Byte) (s : State) :
    (atOperand cfg op s).mar = cfg.registerAdd s.pc 1 := rfl
@[simp] theorem atOperand_sp (cfg : Config) (op : Byte) (s : State) :
    (atOperand cfg op s).sp = s.sp := rfl
@[simp] theorem atOperand_ir (cfg : Config) (op : Byte) (s : State) :
    (atOperand cfg op s).ir = op := rfl
@[simp] theorem atOperand_a (cfg : Config) (op : Byte) (s : State) :
    (atOperand cfg op s).a = s.a := rfl
@[simp] theorem atOperand_b (cfg : Config) (op : Byte) (s : State) :
    (atOperand cfg op s).b = s.b := rfl
@[simp] theorem atOperand_flags (cfg : Config) (op : Byte) (s : State) :
    (atOperand cfg op s).flags = s.flags := rfl
@[simp] theorem atOperand_abus (cfg : Config) (op : Byte) (s : State) :
    (atOperand cfg op s).abus = cfg.registerAdd s.pc 1 := rfl
@[simp] theorem atOperand_dbus (cfg : Config) (op : Byte) (s : State) :
    (atOperand cfg op s).dbus = idle cfg op := rfl
@[simp] theorem atOperand_stepCounter (cfg : Config) (op : Byte) (s : State) :
    (atOperand cfg op s).stepCounter = 3#4 := rfl
@[simp] theorem atOperand_run (cfg : Config) (op : Byte) (s : State) :
    (atOperand cfg op s).run = s.run := rfl
@[simp] theorem atOperand_mem (cfg : Config) (op : Byte) (s : State) :
    (atOperand cfg op s).mem = s.mem := rfl

/-! ### `immediate` -/

@[simp] theorem immediate_pc (cfg : Config) (op m : Byte) (s : State) :
    (immediate cfg op m s).pc = cfg.registerAdd s.pc 2 := rfl
@[simp] theorem immediate_mar (cfg : Config) (op m : Byte) (s : State) :
    (immediate cfg op m s).mar = cfg.registerAdd s.pc 1 := rfl
@[simp] theorem immediate_sp (cfg : Config) (op m : Byte) (s : State) :
    (immediate cfg op m s).sp = s.sp := rfl
@[simp] theorem immediate_ir (cfg : Config) (op m : Byte) (s : State) :
    (immediate cfg op m s).ir = op := rfl
@[simp] theorem immediate_a (cfg : Config) (op m : Byte) (s : State) :
    (immediate cfg op m s).a = s.a := rfl
@[simp] theorem immediate_b (cfg : Config) (op m : Byte) (s : State) :
    (immediate cfg op m s).b = s.b := rfl
@[simp] theorem immediate_flags (cfg : Config) (op m : Byte) (s : State) :
    (immediate cfg op m s).flags = s.flags := rfl
@[simp] theorem immediate_abus (cfg : Config) (op m : Byte) (s : State) :
    (immediate cfg op m s).abus = cfg.registerAdd s.pc 1 := rfl
@[simp] theorem immediate_dbus (cfg : Config) (op m : Byte) (s : State) :
    (immediate cfg op m s).dbus = m := rfl
@[simp] theorem immediate_stepCounter (cfg : Config) (op m : Byte) (s : State) :
    (immediate cfg op m s).stepCounter = 4#4 := rfl
@[simp] theorem immediate_run (cfg : Config) (op m : Byte) (s : State) :
    (immediate cfg op m s).run = s.run := rfl
@[simp] theorem immediate_mem (cfg : Config) (op m : Byte) (s : State) :
    (immediate cfg op m s).mem = s.mem := rfl

/-! ### `atAddress` -/

@[simp] theorem atAddress_pc (cfg : Config) (op : Byte) (addr : Word) (s : State) :
    (atAddress cfg op addr s).pc = cfg.registerAdd s.pc 3 := rfl
@[simp] theorem atAddress_mar (cfg : Config) (op : Byte) (addr : Word) (s : State) :
    (atAddress cfg op addr s).mar = addr := rfl
@[simp] theorem atAddress_sp (cfg : Config) (op : Byte) (addr : Word) (s : State) :
    (atAddress cfg op addr s).sp = s.sp := rfl
@[simp] theorem atAddress_ir (cfg : Config) (op : Byte) (addr : Word) (s : State) :
    (atAddress cfg op addr s).ir = op := rfl
@[simp] theorem atAddress_a (cfg : Config) (op : Byte) (addr : Word) (s : State) :
    (atAddress cfg op addr s).a = s.a := rfl
@[simp] theorem atAddress_b (cfg : Config) (op : Byte) (addr : Word) (s : State) :
    (atAddress cfg op addr s).b = s.b := rfl
@[simp] theorem atAddress_flags (cfg : Config) (op : Byte) (addr : Word) (s : State) :
    (atAddress cfg op addr s).flags = s.flags := rfl
@[simp] theorem atAddress_abus (cfg : Config) (op : Byte) (addr : Word) (s : State) :
    (atAddress cfg op addr s).abus = addr := rfl
@[simp] theorem atAddress_dbus (cfg : Config) (op : Byte) (addr : Word) (s : State) :
    (atAddress cfg op addr s).dbus = idle cfg op := rfl
@[simp] theorem atAddress_stepCounter (cfg : Config) (op : Byte) (addr : Word) (s : State) :
    (atAddress cfg op addr s).stepCounter = 4#4 := rfl
@[simp] theorem atAddress_run (cfg : Config) (op : Byte) (addr : Word) (s : State) :
    (atAddress cfg op addr s).run = s.run := rfl
@[simp] theorem atAddress_mem (cfg : Config) (op : Byte) (addr : Word) (s : State) :
    (atAddress cfg op addr s).mem = s.mem := rfl

/-! ### `loadA` -/

@[simp] theorem loadA_pc (s : State) : (loadA s).pc = s.pc := rfl
@[simp] theorem loadA_mar (s : State) : (loadA s).mar = s.mar := rfl
@[simp] theorem loadA_sp (s : State) : (loadA s).sp = s.sp := rfl
@[simp] theorem loadA_ir (s : State) : (loadA s).ir = s.ir := rfl
@[simp] theorem loadA_a (s : State) : (loadA s).a = s.mem.read s.mar := rfl
@[simp] theorem loadA_b (s : State) : (loadA s).b = s.b := rfl
@[simp] theorem loadA_flags (s : State) : (loadA s).flags = s.flags := rfl
@[simp] theorem loadA_abus (s : State) : (loadA s).abus = s.abus := rfl
@[simp] theorem loadA_dbus (s : State) : (loadA s).dbus = s.mem.read s.mar := rfl
@[simp] theorem loadA_stepCounter (s : State) : (loadA s).stepCounter = 0#4 := rfl
@[simp] theorem loadA_run (s : State) : (loadA s).run = s.run := rfl
@[simp] theorem loadA_mem (s : State) : (loadA s).mem = s.mem := rfl

/-! ### `storeA` -/

@[simp] theorem storeA_pc (s : State) : (storeA s).pc = s.pc := rfl
@[simp] theorem storeA_mar (s : State) : (storeA s).mar = s.mar := rfl
@[simp] theorem storeA_sp (s : State) : (storeA s).sp = s.sp := rfl
@[simp] theorem storeA_ir (s : State) : (storeA s).ir = s.ir := rfl
@[simp] theorem storeA_a (s : State) : (storeA s).a = s.a := rfl
@[simp] theorem storeA_b (s : State) : (storeA s).b = s.b := rfl
@[simp] theorem storeA_flags (s : State) : (storeA s).flags = s.flags := rfl
@[simp] theorem storeA_abus (s : State) : (storeA s).abus = s.abus := rfl
@[simp] theorem storeA_dbus (s : State) : (storeA s).dbus = s.a := rfl
@[simp] theorem storeA_stepCounter (s : State) : (storeA s).stepCounter = 0#4 := rfl
@[simp] theorem storeA_run (s : State) : (storeA s).run = s.run := rfl
@[simp] theorem storeA_mem (s : State) : (storeA s).mem = s.mem.write s.mar s.a := rfl

/-! ### `loadB` -/

@[simp] theorem loadB_pc (s : State) : (loadB s).pc = s.pc := rfl
@[simp] theorem loadB_mar (s : State) : (loadB s).mar = s.mar := rfl
@[simp] theorem loadB_sp (s : State) : (loadB s).sp = s.sp := rfl
@[simp] theorem loadB_ir (s : State) : (loadB s).ir = s.ir := rfl
@[simp] theorem loadB_a (s : State) : (loadB s).a = s.a := rfl
@[simp] theorem loadB_b (s : State) : (loadB s).b = s.mem.read s.mar := rfl
@[simp] theorem loadB_flags (s : State) : (loadB s).flags = s.flags := rfl
@[simp] theorem loadB_abus (s : State) : (loadB s).abus = s.abus := rfl
@[simp] theorem loadB_dbus (s : State) : (loadB s).dbus = s.mem.read s.mar := rfl
@[simp] theorem loadB_stepCounter (s : State) : (loadB s).stepCounter = s.stepCounter + 1#4 := rfl
@[simp] theorem loadB_run (s : State) : (loadB s).run = s.run := rfl
@[simp] theorem loadB_mem (s : State) : (loadB s).mem = s.mem := rfl

/-! ### `latchB` -/

@[simp] theorem latchB_pc (s : State) : (latchB s).pc = s.pc := rfl
@[simp] theorem latchB_mar (s : State) : (latchB s).mar = s.mar := rfl
@[simp] theorem latchB_sp (s : State) : (latchB s).sp = s.sp := rfl
@[simp] theorem latchB_ir (s : State) : (latchB s).ir = s.ir := rfl
@[simp] theorem latchB_a (s : State) : (latchB s).a = s.a := rfl
@[simp] theorem latchB_b (s : State) : (latchB s).b = s.dbus := rfl
@[simp] theorem latchB_flags (s : State) : (latchB s).flags = s.flags := rfl
@[simp] theorem latchB_abus (s : State) : (latchB s).abus = s.abus := rfl
@[simp] theorem latchB_dbus (s : State) : (latchB s).dbus = s.dbus := rfl
@[simp] theorem latchB_stepCounter (s : State) : (latchB s).stepCounter = s.stepCounter := rfl
@[simp] theorem latchB_run (s : State) : (latchB s).run = s.run := rfl
@[simp] theorem latchB_mem (s : State) : (latchB s).mem = s.mem := rfl

/-! ### `aluStep` -/

@[simp] theorem aluStep_pc (cfg : Config) (mode : AluMode) (s : State) :
    (aluStep cfg mode s).pc = s.pc := rfl
@[simp] theorem aluStep_mar (cfg : Config) (mode : AluMode) (s : State) :
    (aluStep cfg mode s).mar = s.mar := rfl
@[simp] theorem aluStep_sp (cfg : Config) (mode : AluMode) (s : State) :
    (aluStep cfg mode s).sp = s.sp := rfl
@[simp] theorem aluStep_ir (cfg : Config) (mode : AluMode) (s : State) :
    (aluStep cfg mode s).ir = s.ir := rfl
@[simp] theorem aluStep_a (cfg : Config) (mode : AluMode) (s : State) :
    (aluStep cfg mode s).a = (alu cfg mode s.a s.b s.flags).result.getD s.a := rfl
@[simp] theorem aluStep_b (cfg : Config) (mode : AluMode) (s : State) :
    (aluStep cfg mode s).b = s.b := rfl
@[simp] theorem aluStep_flags (cfg : Config) (mode : AluMode) (s : State) :
    (aluStep cfg mode s).flags = (alu cfg mode s.a s.b s.flags).flags := rfl
@[simp] theorem aluStep_abus (cfg : Config) (mode : AluMode) (s : State) :
    (aluStep cfg mode s).abus = s.abus := rfl
@[simp] theorem aluStep_dbus (cfg : Config) (mode : AluMode) (s : State) :
    (aluStep cfg mode s).dbus = (alu cfg mode s.a s.b s.flags).result.getD (idle cfg s.dbus) := rfl
@[simp] theorem aluStep_stepCounter (cfg : Config) (mode : AluMode) (s : State) :
    (aluStep cfg mode s).stepCounter = 0#4 := rfl
@[simp] theorem aluStep_run (cfg : Config) (mode : AluMode) (s : State) :
    (aluStep cfg mode s).run = s.run := rfl
@[simp] theorem aluStep_mem (cfg : Config) (mode : AluMode) (s : State) :
    (aluStep cfg mode s).mem = s.mem := rfl

/-! ### `phaseIdle` -/

@[simp] theorem phaseIdle_pc (cfg : Config) (s : State) : (phaseIdle cfg s).pc = s.pc := rfl
@[simp] theorem phaseIdle_mar (cfg : Config) (s : State) : (phaseIdle cfg s).mar = s.mar := rfl
@[simp] theorem phaseIdle_sp (cfg : Config) (s : State) : (phaseIdle cfg s).sp = s.sp := rfl
@[simp] theorem phaseIdle_ir (cfg : Config) (s : State) : (phaseIdle cfg s).ir = s.ir := rfl
@[simp] theorem phaseIdle_a (cfg : Config) (s : State) : (phaseIdle cfg s).a = s.a := rfl
@[simp] theorem phaseIdle_b (cfg : Config) (s : State) : (phaseIdle cfg s).b = s.b := rfl
@[simp] theorem phaseIdle_flags (cfg : Config) (s : State) :
    (phaseIdle cfg s).flags = s.flags := rfl
@[simp] theorem phaseIdle_abus (cfg : Config) (s : State) : (phaseIdle cfg s).abus = s.abus := rfl
@[simp] theorem phaseIdle_dbus (cfg : Config) (s : State) :
    (phaseIdle cfg s).dbus = idle cfg s.dbus := rfl
@[simp] theorem phaseIdle_stepCounter (cfg : Config) (s : State) :
    (phaseIdle cfg s).stepCounter = s.stepCounter := rfl
@[simp] theorem phaseIdle_run (cfg : Config) (s : State) : (phaseIdle cfg s).run = s.run := rfl
@[simp] theorem phaseIdle_mem (cfg : Config) (s : State) : (phaseIdle cfg s).mem = s.mem := rfl

/-! ### `phaseCount` -/

@[simp] theorem phaseCount_pc (cfg : Config) (cw : ControlWord) (s : State) :
    (phaseCount cfg cw s).pc = cfg.registerAdd s.pc (netDelta cfg cw .pcinc1 .pcinc2 .pcdec1 .pcdec2) := rfl
@[simp] theorem phaseCount_mar (cfg : Config) (cw : ControlWord) (s : State) :
    (phaseCount cfg cw s).mar = cfg.registerAdd s.mar (netDelta cfg cw .mainc1 .mainc2 .madec1 .madec2) := rfl
@[simp] theorem phaseCount_sp (cfg : Config) (cw : ControlWord) (s : State) :
    (phaseCount cfg cw s).sp = cfg.registerAdd s.sp (netDelta cfg cw .spinc1 .spinc2 .spdec1 .spdec2) := rfl
@[simp] theorem phaseCount_ir (cfg : Config) (cw : ControlWord) (s : State) :
    (phaseCount cfg cw s).ir = s.ir := rfl
@[simp] theorem phaseCount_a (cfg : Config) (cw : ControlWord) (s : State) :
    (phaseCount cfg cw s).a = s.a := rfl
@[simp] theorem phaseCount_b (cfg : Config) (cw : ControlWord) (s : State) :
    (phaseCount cfg cw s).b = s.b := rfl
@[simp] theorem phaseCount_flags (cfg : Config) (cw : ControlWord) (s : State) :
    (phaseCount cfg cw s).flags = s.flags := rfl
@[simp] theorem phaseCount_abus (cfg : Config) (cw : ControlWord) (s : State) :
    (phaseCount cfg cw s).abus = s.abus := rfl
@[simp] theorem phaseCount_dbus (cfg : Config) (cw : ControlWord) (s : State) :
    (phaseCount cfg cw s).dbus = s.dbus := rfl
@[simp] theorem phaseCount_stepCounter (cfg : Config) (cw : ControlWord) (s : State) :
    (phaseCount cfg cw s).stepCounter = s.stepCounter := rfl
@[simp] theorem phaseCount_run (cfg : Config) (cw : ControlWord) (s : State) :
    (phaseCount cfg cw s).run = s.run := rfl
@[simp] theorem phaseCount_mem (cfg : Config) (cw : ControlWord) (s : State) :
    (phaseCount cfg cw s).mem = s.mem := rfl

/-! ### `phaseStep` -/

@[simp] theorem phaseStep_pc (cfg : Config) (cw : ControlWord) (s : State) :
    (phaseStep cfg cw s).pc = s.pc := rfl
@[simp] theorem phaseStep_mar (cfg : Config) (cw : ControlWord) (s : State) :
    (phaseStep cfg cw s).mar = s.mar := rfl
@[simp] theorem phaseStep_sp (cfg : Config) (cw : ControlWord) (s : State) :
    (phaseStep cfg cw s).sp = s.sp := rfl
@[simp] theorem phaseStep_ir (cfg : Config) (cw : ControlWord) (s : State) :
    (phaseStep cfg cw s).ir = s.ir := rfl
@[simp] theorem phaseStep_a (cfg : Config) (cw : ControlWord) (s : State) :
    (phaseStep cfg cw s).a = s.a := rfl
@[simp] theorem phaseStep_b (cfg : Config) (cw : ControlWord) (s : State) :
    (phaseStep cfg cw s).b = s.b := rfl
@[simp] theorem phaseStep_flags (cfg : Config) (cw : ControlWord) (s : State) :
    (phaseStep cfg cw s).flags = s.flags := rfl
@[simp] theorem phaseStep_abus (cfg : Config) (cw : ControlWord) (s : State) :
    (phaseStep cfg cw s).abus = s.abus := rfl
@[simp] theorem phaseStep_dbus (cfg : Config) (cw : ControlWord) (s : State) :
    (phaseStep cfg cw s).dbus = s.dbus := rfl
@[simp] theorem phaseStep_stepCounter (cfg : Config) (cw : ControlWord) (s : State) :
    (phaseStep cfg cw s).stepCounter = if asserts cfg cw .sr then 0#4 else s.stepCounter + 1#4 := rfl
@[simp] theorem phaseStep_run (cfg : Config) (cw : ControlWord) (s : State) :
    (phaseStep cfg cw s).run = s.run := rfl
@[simp] theorem phaseStep_mem (cfg : Config) (cw : ControlWord) (s : State) :
    (phaseStep cfg cw s).mem = s.mem := rfl

/-! ### `placeInstruction` -/

@[simp] theorem placeInstruction_pc (bytes : List Byte) (s : State) :
    (placeInstruction bytes s).pc = s.pc := rfl
@[simp] theorem placeInstruction_mar (bytes : List Byte) (s : State) :
    (placeInstruction bytes s).mar = s.mar := rfl
@[simp] theorem placeInstruction_sp (bytes : List Byte) (s : State) :
    (placeInstruction bytes s).sp = s.sp := rfl
@[simp] theorem placeInstruction_ir (bytes : List Byte) (s : State) :
    (placeInstruction bytes s).ir = if definedOpcode config s.ir then s.ir else opcode (.lodi 0x00#8) := rfl
@[simp] theorem placeInstruction_a (bytes : List Byte) (s : State) :
    (placeInstruction bytes s).a = s.a := rfl
@[simp] theorem placeInstruction_b (bytes : List Byte) (s : State) :
    (placeInstruction bytes s).b = s.b := rfl
@[simp] theorem placeInstruction_flags (bytes : List Byte) (s : State) :
    (placeInstruction bytes s).flags = s.flags := rfl
@[simp] theorem placeInstruction_abus (bytes : List Byte) (s : State) :
    (placeInstruction bytes s).abus = s.abus := rfl
@[simp] theorem placeInstruction_dbus (bytes : List Byte) (s : State) :
    (placeInstruction bytes s).dbus = s.dbus := rfl
@[simp] theorem placeInstruction_stepCounter (bytes : List Byte) (s : State) :
    (placeInstruction bytes s).stepCounter = 0#4 := rfl
@[simp] theorem placeInstruction_run (bytes : List Byte) (s : State) :
    (placeInstruction bytes s).run = .running := rfl
@[simp] theorem placeInstruction_mem (bytes : List Byte) (s : State) :
    (placeInstruction bytes s).mem = writeBytes s.mem s.pc bytes := rfl

end Sys2Proof.Machine
end

