-- ==== Sys2Proof/Laws/MicroStep.lean ====
section
/-! SUPPORT. What the micro-step engine can do, said once, for any configuration and any ROM. -/

namespace Sys2Proof.Machine

/-- The look-up answers the ROM's word, or faults on an undefined opcode (R119). -/
theorem lookUp_cases (cfg : Config) (rom : Rom) (s : State) :
    (definedOpcode cfg s.ir = true ∧ lookUp cfg rom s = .ok (rom (romAddress s))) ∨
      (definedOpcode cfg s.ir = false ∧ lookUp cfg rom s = .error (.undefinedOpcode s.ir)) := by
  cases h : definedOpcode cfg s.ir
  · exact .inr ⟨rfl, by simp [lookUp, h]⟩
  · exact .inl ⟨rfl, by simp [lookUp, h]⟩

/-- Phase 1 changes `ABUS` alone, or faults on `MAO` at 0xFFFF (R136). -/
theorem phaseAddressOut_cases (cfg : Config) (cw : ControlWord) (s : State) :
    (∃ w, phaseAddressOut cfg cw s = .ok { s with abus := w }) ∨
      (asserts cfg cw .mao = true ∧ s.mar = 0xFFFF#16 ∧
        phaseAddressOut cfg cw s = .error (.addressOutOfRange 0x10000)) := by
  cases hp : asserts cfg cw .pco <;> cases hs : asserts cfg cw .spo <;> cases hm : asserts cfg cw .mao
  all_goals first
    | (left; exact ⟨_, by simp only [phaseAddressOut, hp, hs, hm]; rfl⟩)
    | (rcases readWord_cases cfg s.mem s.mar with ⟨h, e⟩ | ⟨h, e⟩
       · left; exact ⟨_, by simp [phaseAddressOut, hp, hs, hm, e]; rfl⟩
       · right; exact ⟨rfl, h, by simp [phaseAddressOut, hp, hs, hm, e]⟩)

/-- Phase 2 changes `DBUS` alone (R137). -/
theorem phaseDataOut_eq (cfg : Config) (cw : ControlWord) (s : State) :
    phaseDataOut cfg cw s = { s with
      dbus := if asserts cfg cw .mo then s.mem.read s.mar else if asserts cfg cw .ao then s.a else s.dbus } := by
  cases hm : asserts cfg cw .mo <;> cases ha : asserts cfg cw .ao <;> simp [phaseDataOut, hm, ha]

/-- Phase 3 changes `DBUS` and `FLAGS` alone, or faults on a reserved mode (R162, R167). -/
theorem phaseAlu_cases (cfg : Config) (cw : ControlWord) (s : State) :
    (∃ mode, aluModeOfCode cfg (aluField cfg cw) = some mode ∧ phaseAlu cfg cw s = .ok { s with
        dbus := (alu cfg mode s.a s.b s.flags).result.getD s.dbus
        flags := (alu cfg mode s.a s.b s.flags).flags }) ∨
      (aluModeOfCode cfg (aluField cfg cw) = none ∧
        phaseAlu cfg cw s = .error (.reservedAluMode (aluField cfg cw))) := by
  cases h : aluModeOfCode cfg (aluField cfg cw) with
  | none => exact .inr ⟨rfl, by simp [phaseAlu, h]⟩
  | some mode => exact .inl ⟨mode, rfl, by simp [phaseAlu, h]⟩

/-- Phase 4 (R140): `PC`, `MAR` and memory alone, the write at the new `MAR`. -/
theorem phaseAddressIn_eq (cfg : Config) (cw : ControlWord) (s : State) :
    phaseAddressIn cfg cw s = { s with
      pc := if asserts cfg cw .pci then s.abus else s.pc
      mar := if asserts cfg cw .mi then s.abus else s.mar
      mem := if asserts cfg cw .mw then
          s.mem.write (if asserts cfg cw .mi then s.abus else s.mar) s.dbus else s.mem } := by
  cases hp : asserts cfg cw .pci <;> cases hm : asserts cfg cw .mi <;> cases hw : asserts cfg cw .mw <;>
    simp [phaseAddressIn, hp, hm, hw]

/-- Phase 5 (R141): `A`, `B`, `IR` and the bytes of `PC` alone. -/
theorem phaseDataIn_eq (cfg : Config) (cw : ControlWord) (s : State) :
    phaseDataIn cfg cw s = { s with
      a := if asserts cfg cw .ai then s.dbus else s.a
      b := if asserts cfg cw .bi then s.dbus else s.b
      ir := if asserts cfg cw .ii then s.dbus else s.ir
      pc := (phaseDataIn cfg cw s).pc } := by
  cases ha : asserts cfg cw .ai <;> cases hb : asserts cfg cw .bi <;> cases hi : asserts cfg cw .ii <;>
    cases hh : asserts cfg cw .pchi <;> cases hl : asserts cfg cw .pcli <;>
    simp [phaseDataIn, ha, hb, hi, hh, hl]

/-- A control word's phases succeed together or leave one of the faults of its phases. -/
theorem applyWord_cases (cfg : Config) (cw : ControlWord) (s : State) :
    (∃ s1 s3, phaseAddressOut cfg cw (phaseIdle cfg s) = .ok s1 ∧
        phaseAlu cfg cw (phaseDataOut cfg cw s1) = .ok s3 ∧
        faultsAtLatch cfg cw s3.dbus = false ∧ applyWord cfg cw s = .ok
          (phaseStep cfg cw (phaseCount cfg cw (phaseDataIn cfg cw (phaseAddressIn cfg cw s3))))) ∨
      (∃ r, applyWord cfg cw s = .error r) := by
  cases h1 : phaseAddressOut cfg cw (phaseIdle cfg s) with
  | error r => exact .inr ⟨r, by simp [applyWord, h1]⟩
  | ok s1 =>
    cases h3 : phaseAlu cfg cw (phaseDataOut cfg cw s1) with
    | error r => exact .inr ⟨r, by simp [applyWord, h1, h3]⟩
    | ok s3 =>
      cases hl : faultsAtLatch cfg cw s3.dbus with
      | true => exact .inr ⟨_, by simp [applyWord, h1, h3, hl]; rfl⟩
      | false => exact .inl ⟨s1, s3, rfl, h3, hl, by simp [applyWord, h1, h3, hl]⟩

/-- A running machine's micro-step: a look-up fault, a halt, an applied word or a phase fault. -/
theorem microStepRunning_cases (cfg : Config) (rom : Rom) (s : State) :
    (definedOpcode cfg s.ir = false ∧
        microStepRunning cfg rom s = raiseFault (.undefinedOpcode s.ir) s) ∨
      (definedOpcode cfg s.ir = true ∧ asserts cfg (rom (romAddress s)) .hlt = true ∧
        microStepRunning cfg rom s = haltEngine s) ∨
      (definedOpcode cfg s.ir = true ∧ asserts cfg (rom (romAddress s)) .hlt = false ∧
        ∃ t, applyWord cfg (rom (romAddress s)) s = .ok t ∧ microStepRunning cfg rom s = t) ∨
      (definedOpcode cfg s.ir = true ∧ asserts cfg (rom (romAddress s)) .hlt = false ∧
        ∃ r, applyWord cfg (rom (romAddress s)) s = .error r ∧
          microStepRunning cfg rom s = raiseFault r s) := by
  rcases lookUp_cases cfg rom s with ⟨hd, e⟩ | ⟨hd, e⟩
  · cases hh : asserts cfg (rom (romAddress s)) .hlt with
    | true => exact .inr (.inl ⟨hd, rfl, by simp [microStepRunning, e, hh]⟩)
    | false =>
      cases ha : applyWord cfg (rom (romAddress s)) s with
      | ok t => exact .inr (.inr (.inl ⟨hd, rfl, t, rfl, by simp [microStepRunning, e, hh, ha]⟩))
      | error r => exact .inr (.inr (.inr ⟨hd, rfl, r, rfl, by simp [microStepRunning, e, hh, ha]⟩))
  · exact .inl ⟨hd, by simp [microStepRunning, e]⟩

/-- A micro-step exists exactly when the machine runs (R40). -/
theorem microStepWith_next {cfg : Config} {rom : Rom} {s t : State}
    (h : microStepWith cfg rom s = .next t) : s.run = .running ∧ t = microStepRunning cfg rom s := by
  unfold microStepWith at h
  split at h
  · next hr => exact ⟨hr, (Host.Outcome.next.inj h).symm⟩
  · cases h
  · cases h

/-- No micro-step is a run that stays. -/
@[simp] theorem microRunWith_zero (cfg : Config) (rom : Rom) (s : State) :
    microRunWith cfg rom 0 s = .next s := rfl

/-- A first micro-step, then the rest of the run. -/
theorem microRunWith_succ (cfg : Config) (rom : Rom) (n : Nat) {s : State} (h : s.run = .running) :
    microRunWith cfg rom (n + 1) s = microRunWith cfg rom n (microStepRunning cfg rom s) := by
  simp only [microRunWith, Host.Core.run, microCore, microStepWith, h]

/-- A stopped machine takes no run of micro-steps but the empty one (R40). -/
theorem microRunWith_stopped {cfg : Config} {rom : Rom} {n : Nat} {s t : State}
    (hs : s.run ≠ .running) (h : microRunWith cfg rom n s = .next t) : n = 0 ∧ t = s := by
  cases n with
  | zero => exact ⟨rfl, (Host.Outcome.next.inj h).symm⟩
  | succ n =>
    cases hr : s.run with
    | running => exact absurd hr hs
    | halted => simp [microRunWith, Host.Core.run, microCore, microStepWith, hr] at h
    | faulted r => simp [microRunWith, Host.Core.run, microCore, microStepWith, hr] at h

end Sys2Proof.Machine
end

