-- ==== Sys2Proof/Laws/Ops.lean ====
section
/-! SUPPORT. What each shared operation can do, said once: the operand forms, the ends of instructions, the
fetch, `exec` (always a next state) and `step`. -/

namespace Sys2Proof.Machine

/-! ### Operand forms -/

/-- The absolute form: at the operand's address, or the operand fault of an opcode at 0xFFFE. -/
theorem absolute_cases (cfg : Config) (op : Byte) (addr : Word) (s : State) :
    (cfg.registerAdd s.pc 1 ≠ 0xFFFF#16 ∧ absolute cfg op addr s = .ok (atAddress cfg op addr s)) ∨
      (cfg.registerAdd s.pc 1 = 0xFFFF#16 ∧
        absolute cfg op addr s = .error (raiseFault (.addressOutOfRange 0x10000) (atOperand cfg op s))) := by
  rcases checkPair_cases (cfg.registerAdd s.pc 1) with ⟨h, e⟩ | ⟨h, e⟩
  · exact .inl ⟨h, by simp only [absolute, e]⟩
  · exact .inr ⟨h, by simp only [absolute, e]⟩

/-- The indirect form: at the address the cell holds, or one of its two faults. -/
theorem indirect_cases (cfg : Config) (op : Byte) (cell : Word) (s : State) :
    (cfg.registerAdd s.pc 1 ≠ 0xFFFF#16 ∧ cell ≠ 0xFFFF#16 ∧ indirect cfg op cell s
        = .ok { atAddress cfg op cell s with
            mar := addressOfBytes cfg (s.mem.read cell) (s.mem.read (cell + 1#16))
            abus := addressOfBytes cfg (s.mem.read cell) (s.mem.read (cell + 1#16))
            stepCounter := 5#4 }) ∨
      (cfg.registerAdd s.pc 1 ≠ 0xFFFF#16 ∧ cell = 0xFFFF#16 ∧ indirect cfg op cell s
        = .error (raiseFault (.addressOutOfRange 0x10000) (atAddress cfg op cell s))) ∨
      (cfg.registerAdd s.pc 1 = 0xFFFF#16 ∧ indirect cfg op cell s
        = .error (raiseFault (.addressOutOfRange 0x10000) (atOperand cfg op s))) := by
  rcases absolute_cases cfg op cell s with ⟨h, e⟩ | ⟨h, e⟩
  · rcases readWord_cases cfg s.mem cell with ⟨hc, er⟩ | ⟨hc, er⟩
    · exact .inl ⟨h, hc, by simp [indirect, e, er]⟩
    · exact .inr (.inl ⟨h, hc, by simp [indirect, e, er]⟩)
  · exact .inr (.inr ⟨h, by simp [indirect, e]⟩)

/-- After an operand form there is always a next state. -/
theorem thenDo_next (x : Except State State) (f : State → State) :
    ∃ t, thenDo x f = .next t ∧ ((∃ u, x = .ok u ∧ t = f u) ∨ x = .error t) := by
  cases x with
  | ok u => exact ⟨f u, rfl, .inl ⟨u, rfl, rfl⟩⟩
  | error u => exact ⟨u, rfl, .inr rfl⟩

/-- A taken transfer: the target in `PC` and `ABUS`, or the operand fault. -/
theorem jumpTo_cases (cfg : Config) (op : Byte) (addr : Word) (s : State) :
    (cfg.registerAdd s.pc 1 ≠ 0xFFFF#16 ∧ jumpTo cfg op addr s
        = .next (endCycle { atOperand cfg op s with pc := addr, abus := addr })) ∨
      (cfg.registerAdd s.pc 1 = 0xFFFF#16 ∧ jumpTo cfg op addr s
        = .next (raiseFault (.addressOutOfRange 0x10000) (atOperand cfg op s))) := by
  rcases checkPair_cases (cfg.registerAdd s.pc 1) with ⟨h, e⟩ | ⟨h, e⟩
  · exact .inl ⟨h, by simp only [jumpTo, e]⟩
  · exact .inr ⟨h, by simp only [jumpTo, e]⟩

/-- The absolute two-operand form: the ALU step on the byte at the address, or the operand fault. -/
theorem aluAbsolute_cases (cfg : Config) (mode : AluMode) (op : Byte) (addr : Word) (s : State) :
    (cfg.registerAdd s.pc 1 ≠ 0xFFFF#16 ∧
        aluAbsolute cfg mode op addr s = .next (aluStep cfg mode (loadB (atAddress cfg op addr s)))) ∨
      (cfg.registerAdd s.pc 1 = 0xFFFF#16 ∧ aluAbsolute cfg mode op addr s
        = .next (raiseFault (.addressOutOfRange 0x10000) (atOperand cfg op s))) := by
  rcases absolute_cases cfg op addr s with ⟨h, e⟩ | ⟨h, e⟩
  · exact .inl ⟨h, by simp [aluAbsolute, thenDo, e]⟩
  · exact .inr ⟨h, by simp [aluAbsolute, thenDo, e]⟩

/-! ### Fetch and decode -/

/-- With three bytes in hand the decoder rejects only an undefined opcode. -/
theorem decode_three_error {b lo hi : Byte} {e : DecodeError} (h : decode [b, lo, hi] = .error e) :
    e = .undefinedOpcode b ∧ definedOpcode config b = false := by
  cases hm : mnemonicOf config b with
  | none =>
    simp only [decode, decodeWith, hm, Option.map_none] at h
    exact ⟨(Except.error.inj h).symm, by simp [definedOpcode, hm]⟩
  | some m => cases m <;> simp [decode, decodeWith, hm, rowForm] at h

/-- What a fetch gives: an instruction, or the state of one of the two undefined-opcode faults. -/
theorem fetchInstr_cases (s : State) :
    (∃ i rest, definedOpcode config s.ir = true ∧ decode (fetchBytes s) = .ok (i, rest) ∧
        fetchInstr s = .ok i) ∨
      (definedOpcode config s.ir = true ∧ definedOpcode config (s.mem.read s.pc) = false ∧
        fetchInstr s = .error (raiseFault (.undefinedOpcode (s.mem.read s.pc))
          (afterFetch config (s.mem.read s.pc) s))) ∨
      (definedOpcode config s.ir = false ∧
        fetchInstr s = .error (raiseFault (.undefinedOpcode s.ir) s)) := by
  cases hd : definedOpcode config s.ir with
  | false => exact .inr (.inr ⟨rfl, by simp [fetchInstr, hd]⟩)
  | true =>
    cases hx : decode (fetchBytes s) with
    | ok p => exact .inl ⟨p.1, p.2, rfl, rfl, by simp [fetchInstr, hd, hx]⟩
    | error e =>
      exact .inr (.inl ⟨rfl, (decode_three_error hx).2, by simp [fetchInstr, hd, hx]⟩)

/-! ### `exec` and `step` -/

/-- Every instruction answers a next state, from every state: a fault it takes is one too (R264). -/
theorem exec_next (i : Instr) (s : State) : ∃ t, exec i s = .next t := by
  have jump : ∀ op addr, ∃ t, jumpTo config op addr s = .next t := fun op addr => by
    rcases jumpTo_cases config op addr s with ⟨-, e⟩ | ⟨-, e⟩ <;> exact ⟨_, e⟩
  have after : ∀ x f, ∃ t, thenDo x f = .next t := fun x f =>
    ⟨_, (thenDo_next x f).choose_spec.1⟩
  cases i
  case bcs addr16 => by_cases h : getFlag config s.flags .c <;> simp [exec, execBcs, h, jump, skipOperand]
  case beq addr16 => by_cases h : getFlag config s.flags .z <;> simp [exec, execBeq, h, jump, skipOperand]
  all_goals first | exact jump _ _ | exact after _ _ | exact ⟨_, rfl⟩

/-- Everything a step can do. -/
theorem step_cases (s : State) :
    (s.run = .halted ∧ step s = .fault .halted) ∨
      (∃ r, s.run = .faulted r ∧ step s = .fault (.faulted r)) ∨
      (s.run = .running ∧ s.stepCounter = 0#4 ∧ ∃ i, fetchInstr s = .ok i ∧ step s = exec i s) ∨
      (s.run = .running ∧ s.stepCounter = 0#4 ∧ ∃ t, fetchInstr s = .error t ∧ step s = .next t) ∨
      (s.run = .running ∧ s.stepCounter ≠ 0#4 ∧ step s = .next (finishCycle s)) := by
  cases hr : s.run with
  | halted => exact .inl ⟨rfl, by simp [step, hr]⟩
  | faulted r => exact .inr (.inl ⟨r, rfl, by simp [step, hr]⟩)
  | running =>
    by_cases hs : s.stepCounter = 0#4
    · cases hf : fetchInstr s with
      | ok i => exact .inr (.inr (.inl ⟨rfl, hs, i, rfl, by simp [step, hr, hs, hf]⟩))
      | error t => exact .inr (.inr (.inr (.inl ⟨rfl, hs, t, rfl, by simp [step, hr, hs, hf]⟩)))
    · exact .inr (.inr (.inr (.inr ⟨rfl, hs, by simp [step, hr, hs]⟩)))

end Sys2Proof.Machine
end

