-- ==== Sys2Proof/Laws/PerInstr.lean ====
section
/-! SUPPORT. Statements for all instructions, one lemma per constructor. `EncodeShape`: an instruction is
well formed and its bytes are a defined opcode and the operand bytes of its format (R70, R74). -/

namespace Sys2Proof.Laws.EncodeShape

open Sys2Proof.Machine (config)

/-- Well formed, first byte defined, one to three bytes (R70, R73, R79). -/
def Statement (i : Instr) : Prop :=
  i.wellFormed = true ∧ definedOpcode config (opcode i) = true ∧
    1 ≤ (encode i).length ∧ (encode i).length ≤ 3

theorem lodi (imm8 : Byte) : Statement (.lodi imm8) := ⟨rfl, rfl, (by decide : 1 ≤ 2), (by decide : 2 ≤ 3)⟩

theorem loda (addr16 : Word) : Statement (.loda addr16) := ⟨rfl, rfl, (by decide : 1 ≤ 3), (by decide : 3 ≤ 3)⟩

theorem lodn (addr16 : Word) : Statement (.lodn addr16) := ⟨rfl, rfl, (by decide : 1 ≤ 3), (by decide : 3 ≤ 3)⟩

theorem stoa (addr16 : Word) : Statement (.stoa addr16) := ⟨rfl, rfl, (by decide : 1 ≤ 3), (by decide : 3 ≤ 3)⟩

theorem ston (addr16 : Word) : Statement (.ston addr16) := ⟨rfl, rfl, (by decide : 1 ≤ 3), (by decide : 3 ≤ 3)⟩

theorem addi (imm8 : Byte) : Statement (.addi imm8) := ⟨rfl, rfl, (by decide : 1 ≤ 2), (by decide : 2 ≤ 3)⟩

theorem adda (addr16 : Word) : Statement (.adda addr16) := ⟨rfl, rfl, (by decide : 1 ≤ 3), (by decide : 3 ≤ 3)⟩

theorem subi (imm8 : Byte) : Statement (.subi imm8) := ⟨rfl, rfl, (by decide : 1 ≤ 2), (by decide : 2 ≤ 3)⟩

theorem suba (addr16 : Word) : Statement (.suba addr16) := ⟨rfl, rfl, (by decide : 1 ≤ 3), (by decide : 3 ≤ 3)⟩

theorem adci (imm8 : Byte) : Statement (.adci imm8) := ⟨rfl, rfl, (by decide : 1 ≤ 2), (by decide : 2 ≤ 3)⟩

theorem adca (addr16 : Word) : Statement (.adca addr16) := ⟨rfl, rfl, (by decide : 1 ≤ 3), (by decide : 3 ≤ 3)⟩

theorem sbci (imm8 : Byte) : Statement (.sbci imm8) := ⟨rfl, rfl, (by decide : 1 ≤ 2), (by decide : 2 ≤ 3)⟩

theorem sbca (addr16 : Word) : Statement (.sbca addr16) := ⟨rfl, rfl, (by decide : 1 ≤ 3), (by decide : 3 ≤ 3)⟩

theorem cmpi (imm8 : Byte) : Statement (.cmpi imm8) := ⟨rfl, rfl, (by decide : 1 ≤ 2), (by decide : 2 ≤ 3)⟩

theorem cmpa (addr16 : Word) : Statement (.cmpa addr16) := ⟨rfl, rfl, (by decide : 1 ≤ 3), (by decide : 3 ≤ 3)⟩

theorem inc : Statement .inc := ⟨rfl, rfl, (by decide : 1 ≤ 1), (by decide : 1 ≤ 3)⟩

theorem dec : Statement .dec := ⟨rfl, rfl, (by decide : 1 ≤ 1), (by decide : 1 ≤ 3)⟩

theorem neg : Statement .neg := ⟨rfl, rfl, (by decide : 1 ≤ 1), (by decide : 1 ≤ 3)⟩

theorem andi (imm8 : Byte) : Statement (.andi imm8) := ⟨rfl, rfl, (by decide : 1 ≤ 2), (by decide : 2 ≤ 3)⟩

theorem anda (addr16 : Word) : Statement (.anda addr16) := ⟨rfl, rfl, (by decide : 1 ≤ 3), (by decide : 3 ≤ 3)⟩

theorem ori (imm8 : Byte) : Statement (.ori imm8) := ⟨rfl, rfl, (by decide : 1 ≤ 2), (by decide : 2 ≤ 3)⟩

theorem ora (addr16 : Word) : Statement (.ora addr16) := ⟨rfl, rfl, (by decide : 1 ≤ 3), (by decide : 3 ≤ 3)⟩

theorem not : Statement .not := ⟨rfl, rfl, (by decide : 1 ≤ 1), (by decide : 1 ≤ 3)⟩

theorem bcs (addr16 : Word) : Statement (.bcs addr16) := ⟨rfl, rfl, (by decide : 1 ≤ 3), (by decide : 3 ≤ 3)⟩

theorem beq (addr16 : Word) : Statement (.beq addr16) := ⟨rfl, rfl, (by decide : 1 ≤ 3), (by decide : 3 ≤ 3)⟩

theorem bne (addr16 : Word) : Statement (.bne addr16) := ⟨rfl, rfl, (by decide : 1 ≤ 3), (by decide : 3 ≤ 3)⟩

theorem bcc (addr16 : Word) : Statement (.bcc addr16) := ⟨rfl, rfl, (by decide : 1 ≤ 3), (by decide : 3 ≤ 3)⟩

theorem bmi (addr16 : Word) : Statement (.bmi addr16) := ⟨rfl, rfl, (by decide : 1 ≤ 3), (by decide : 3 ≤ 3)⟩

theorem bpl (addr16 : Word) : Statement (.bpl addr16) := ⟨rfl, rfl, (by decide : 1 ≤ 3), (by decide : 3 ≤ 3)⟩

theorem bvs (addr16 : Word) : Statement (.bvs addr16) := ⟨rfl, rfl, (by decide : 1 ≤ 3), (by decide : 3 ≤ 3)⟩

theorem bvc (addr16 : Word) : Statement (.bvc addr16) := ⟨rfl, rfl, (by decide : 1 ≤ 3), (by decide : 3 ≤ 3)⟩

theorem jmp (addr16 : Word) : Statement (.jmp addr16) := ⟨rfl, rfl, (by decide : 1 ≤ 3), (by decide : 3 ≤ 3)⟩

theorem psha : Statement .psha := ⟨rfl, rfl, (by decide : 1 ≤ 1), (by decide : 1 ≤ 3)⟩

theorem popa : Statement .popa := ⟨rfl, rfl, (by decide : 1 ≤ 1), (by decide : 1 ≤ 3)⟩

theorem halt : Statement .halt := ⟨rfl, rfl, (by decide : 1 ≤ 1), (by decide : 1 ≤ 3)⟩

end Sys2Proof.Laws.EncodeShape
end

