-- ==== Sys2Proof/Laws/Rom.lean ====
section
/-! SUPPORT. The ROM addresser: the fields of an address are read back, so the ROM at a composed address is
the compiled word of its parts. -/

namespace Sys2Proof.Machine

theorem romAddressOf_flags (f : BitVec 4) (op : Byte) (st : BitVec 4) :
    (romAddressOf f op st).extractLsb' 12 4 = f := by
  ext i hi
  interval_cases i <;> simp [romAddressOf]

theorem romAddressOf_opcode (f : BitVec 4) (op : Byte) (st : BitVec 4) :
    (romAddressOf f op st).extractLsb' 4 8 = op := by
  ext i hi
  interval_cases i <;> simp [romAddressOf]

theorem romAddressOf_step (f : BitVec 4) (op : Byte) (st : BitVec 4) :
    (romAddressOf f op st).extractLsb' 0 4 = st := by
  ext i hi
  interval_cases i <;> simp [romAddressOf]

/-- The ROM compiled from a configuration at `f << 12 | op << 4 | st` (R110). -/
@[simp] theorem compiledRom_romAddressOf (cfg : Config) (f : BitVec 4) (op : Byte) (st : BitVec 4) :
    compiledRom cfg (romAddressOf f op st) = compiledWord cfg f op st := by
  simp only [compiledRom, romAddressOf_flags, romAddressOf_opcode, romAddressOf_step]

/-- The reference ROM at `f << 12 | op << 4 | st` (R110). -/
@[simp] theorem referenceRom_romAddressOf (f : BitVec 4) (op : Byte) (st : BitVec 4) :
    referenceRom (romAddressOf f op st) = compiledWord config f op st :=
  compiledRom_romAddressOf config f op st

end Sys2Proof.Machine
end

