-- ==== Sys2Proof/Tests/Slice0.lean ====
section
/-! SUPPORT. Tests. Expected values are the vectors of spec/95_test_vectors.md (their ids stand in the names) or
hand calculation from the rules; `witness_` theorems show states that meet the hypotheses of the
statements, at the edges of their ranges. -/

namespace Sys2Proof.Tests

open Sys2Proof Sys2Proof.Machine

/-- The reset state with `PC` at an address and bytes stored from there. -/
def boot (at' : Word) (bytes : List Byte) : State :=
  { State.reset with pc := at', mem := writeBytes [] at' bytes }

/-- `s` with more bytes stored. -/
def poke (addr : Word) (bytes : List Byte) (s : State) : State :=
  { s with mem := writeBytes s.mem addr bytes }

/-- The state of an outcome that has one. -/
def after (o : Host.Outcome State Fault Refusal) : Option State :=
  match o with
  | .next t => some t
  | _ => none

/-- `A`, `B`, `FLAGS`, `PC`, `MAR`, `ABUS`, `DBUS` after one step that ends the cycle with `RUN = running`. -/
def regs (s : State) : Option (Byte × Byte × Byte × Word × Word × Word × Byte) :=
  match after (step s) with
  | some t => if t.run = .running ∧ t.stepCounter = 0#4 then
      some (t.a, t.b, t.flags, t.pc, t.mar, t.abus, t.dbus) else none
  | none => none

/-- `RUN`, `STEP`, `PC`, `MAR`, `IR`, `A` after one step. -/
def stop (s : State) : Option (RunState × BitVec 4 × Word × Word × Byte × Byte) :=
  (after (step s)).map fun t => (t.run, t.stepCounter, t.pc, t.mar, t.ir, t.a)

/-! ### WellFormed: each condition refuses an ill-formed word (no condition is put on an instruction, R79) -/

theorem test_w2_two_address_drivers : oneAddressDriver config 0x00000003#32 = false := by decide
theorem test_w3_two_data_drivers : oneDataDriver config 0x00000018#32 = false := by decide
theorem test_w3_driver_and_alu : oneDataDriver config 0x00000068#32 = false := by decide
theorem test_w4_reserved_mode : namedAluMode config 0x00000080#32 = false := by decide
theorem test_w5_reserved_bit : reservedBitClear 0x20000000#32 = false := by decide
theorem test_w6_halt_not_alone : haltAlone config 0xC0021000#32 = false := by decide
theorem test_w7_ir_latch_elsewhere : latchesIrOnlyInFetch config 0x00004010#32 = false := by decide
theorem test_word_ill_formed : wordWellFormed config 0x00000003#32 = false := by decide
theorem test_word_well_formed : wordWellFormed config 0x42001010#32 = true := by decide
theorem test_w1_zero_rom_refused : ¬ FetchRowsShared config (fun _ => 0#32) := fun h =>
  absurd (h 0#4 0x00#8 (by decide)).1 (by decide)
theorem test_instr_well_formed : (Instr.loda 0xFFFF#16).wellFormed = true := by decide

/-! ### Decoding: every constructor, from its encoding row of spec/opcode_table.json written bit by bit -/

theorem test_decode_lodi :
    decode [0b00000000#8, 0b10100101#8] = .ok (.lodi 0xA5#8, []) := by decide
theorem test_decode_loda :
    decode [0b00000001#8, 0b11001101#8, 0b10101011#8] = .ok (.loda 0xABCD#16, []) := by decide
theorem test_decode_lodn :
    decode [0b00000010#8, 0b11001101#8, 0b10101011#8] = .ok (.lodn 0xABCD#16, []) := by decide
theorem test_decode_stoa :
    decode [0b00000011#8, 0b11001101#8, 0b10101011#8] = .ok (.stoa 0xABCD#16, []) := by decide
theorem test_decode_ston :
    decode [0b00000100#8, 0b11001101#8, 0b10101011#8] = .ok (.ston 0xABCD#16, []) := by decide
theorem test_decode_addi :
    decode [0b00000101#8, 0b10100101#8] = .ok (.addi 0xA5#8, []) := by decide
theorem test_decode_adda :
    decode [0b00000110#8, 0b11001101#8, 0b10101011#8] = .ok (.adda 0xABCD#16, []) := by decide
theorem test_decode_subi :
    decode [0b00000111#8, 0b10100101#8] = .ok (.subi 0xA5#8, []) := by decide
theorem test_decode_suba :
    decode [0b00001000#8, 0b11001101#8, 0b10101011#8] = .ok (.suba 0xABCD#16, []) := by decide
theorem test_decode_adci :
    decode [0b00001001#8, 0b10100101#8] = .ok (.adci 0xA5#8, []) := by decide
theorem test_decode_adca :
    decode [0b00001010#8, 0b11001101#8, 0b10101011#8] = .ok (.adca 0xABCD#16, []) := by decide
theorem test_decode_sbci :
    decode [0b00001011#8, 0b10100101#8] = .ok (.sbci 0xA5#8, []) := by decide
theorem test_decode_sbca :
    decode [0b00001100#8, 0b11001101#8, 0b10101011#8] = .ok (.sbca 0xABCD#16, []) := by decide
theorem test_decode_cmpi :
    decode [0b00001101#8, 0b10100101#8] = .ok (.cmpi 0xA5#8, []) := by decide
theorem test_decode_cmpa :
    decode [0b00001110#8, 0b11001101#8, 0b10101011#8] = .ok (.cmpa 0xABCD#16, []) := by decide
theorem test_decode_inc :
    decode [0b00001111#8] = .ok (.inc, []) := by decide
theorem test_decode_dec :
    decode [0b00010000#8] = .ok (.dec, []) := by decide
theorem test_decode_neg :
    decode [0b00010001#8] = .ok (.neg, []) := by decide
theorem test_decode_andi :
    decode [0b00010010#8, 0b10100101#8] = .ok (.andi 0xA5#8, []) := by decide
theorem test_decode_anda :
    decode [0b00010011#8, 0b11001101#8, 0b10101011#8] = .ok (.anda 0xABCD#16, []) := by decide
theorem test_decode_ori :
    decode [0b00010100#8, 0b10100101#8] = .ok (.ori 0xA5#8, []) := by decide
theorem test_decode_ora :
    decode [0b00010101#8, 0b11001101#8, 0b10101011#8] = .ok (.ora 0xABCD#16, []) := by decide
theorem test_decode_not :
    decode [0b00010110#8] = .ok (.not, []) := by decide
theorem test_decode_bcs :
    decode [0b00010111#8, 0b11001101#8, 0b10101011#8] = .ok (.bcs 0xABCD#16, []) := by decide
theorem test_decode_beq :
    decode [0b00011000#8, 0b11001101#8, 0b10101011#8] = .ok (.beq 0xABCD#16, []) := by decide
theorem test_decode_bne :
    decode [0b00011001#8, 0b11001101#8, 0b10101011#8] = .ok (.bne 0xABCD#16, []) := by decide
theorem test_decode_bcc :
    decode [0b00011010#8, 0b11001101#8, 0b10101011#8] = .ok (.bcc 0xABCD#16, []) := by decide
theorem test_decode_bmi :
    decode [0b00011011#8, 0b11001101#8, 0b10101011#8] = .ok (.bmi 0xABCD#16, []) := by decide
theorem test_decode_bpl :
    decode [0b00011100#8, 0b11001101#8, 0b10101011#8] = .ok (.bpl 0xABCD#16, []) := by decide
theorem test_decode_bvs :
    decode [0b00011101#8, 0b11001101#8, 0b10101011#8] = .ok (.bvs 0xABCD#16, []) := by decide
theorem test_decode_bvc :
    decode [0b00011110#8, 0b11001101#8, 0b10101011#8] = .ok (.bvc 0xABCD#16, []) := by decide
theorem test_decode_jmp :
    decode [0b00011111#8, 0b11001101#8, 0b10101011#8] = .ok (.jmp 0xABCD#16, []) := by decide
theorem test_decode_psha :
    decode [0b00100000#8] = .ok (.psha, []) := by decide
theorem test_decode_popa :
    decode [0b00100001#8] = .ok (.popa, []) := by decide
theorem test_decode_halt :
    decode [0b00100010#8] = .ok (.halt, []) := by decide
theorem test_decode_undefined_first : decode [0x23#8] = .error (.undefinedOpcode 0x23#8) := by decide
theorem test_decode_undefined_last : decode [0xFF#8, 0x00#8] = .error (.undefinedOpcode 0xFF#8) := by decide
theorem test_decode_truncated : decode [0x1F#8, 0x00#8] = .error .truncated := by decide
theorem test_encode_bcs : encode (.bcs 0xABCD#16) = [0x17#8, 0xCD#8, 0xAB#8] := by decide
theorem test_table_word_short : decodeTableWord 8 0xFF17 = some (.bcs 0x0000#16) := by decide
theorem test_table_word_long : decodeTableWord 24 0xABCD17 = some (.bcs 0xABCD#16) := by decide
theorem test_table_word_undefined : decodeTableWord 8 0x23 = none := by decide

/-! ### ALU (95, part 2; S3, S4) -/

theorem test_add_s3 : aluAdd config 0xFF#8 0x01#8 false = (0x00#8, ⟨false, false, true, true⟩) := by decide
theorem test_add_wrap_with_carry : aluAdd config 0xFF#8 0xFF#8 true = (0xFF#8, ⟨false, true, true, false⟩) := by decide
theorem test_add_overflow_and_carry : aluAdd config 0x80#8 0x80#8 false = (0x00#8, ⟨true, false, true, true⟩) := by decide
theorem test_sub_s4 : aluSub config 0x00#8 0x01#8 false = (0xFF#8, ⟨false, true, true, false⟩) := by decide
theorem test_sub_overflow : aluSub config 0x80#8 0x7F#8 true = (0x00#8, ⟨true, false, false, true⟩) := by decide
theorem test_sub_borrow_in : aluSub config 0x00#8 0xFF#8 true = (0x00#8, ⟨false, false, true, true⟩) := by decide
theorem test_add_z_full_sum : (aluAdd (specConfig ⟨.fullSum, .signed, .everyStep⟩) 0xFF#8 0x01#8 false).2.z = false := by decide
theorem test_sub_v_add_shape : (aluSub (specConfig ⟨.truncated, .addShape, .everyStep⟩) 0x80#8 0x80#8 false).2.v = true := by decide

/-! ### Control words and ROM (R105, R116; 95, part 4) -/

theorem test_fetch0 : fetch0 config = 0x00000401#32 := by decide
theorem test_fetch1 : fetch1 config = 0x00024010#32 := by decide
theorem test_rom_lodi_0 : referenceRom 0x0000#16 = 0x00000401#32 := by decide
theorem test_rom_halt_1 : referenceRom 0xF221#16 = 0x00024010#32 := by decide
theorem test_rom_bcs_clear : referenceRom 0x0172#16 = 0x40040000#32 := by decide
theorem test_rom_bcs_set_2 : referenceRom 0x4172#16 = 0x00000401#32 := by decide
theorem test_rom_bcs_set_3 : referenceRom 0x4173#16 = 0x40000204#32 := by decide
theorem test_rom_bcs_zero_only : referenceRom 0x8172#16 = 0x40040000#32 := by decide
theorem test_rom_beq_set_3 : referenceRom 0x8183#16 = 0x40000204#32 := by decide
theorem test_rom_beq_carry_only : referenceRom 0x4182#16 = 0x40040000#32 := by decide
theorem test_rom_bne : referenceRom 0xF192#16 = 0x40040000#32 := by decide
theorem test_rom_lodn_5 : referenceRom 0x3025#16 = 0x40001010#32 := by decide
theorem test_rom_halt_padding : referenceRom 0x0223#16 = 0x00000000#32 := by decide
theorem test_rom_undefined : referenceRom 0x7FF1#16 = 0x00000000#32 := by decide

/-! ### Micro-steps (95, part 3) -/

/-- The common start state of the micro-step vectors. -/
def micro : State :=
  { pc := 0x1000#16, mar := 0x2000#16, sp := 0x3000#16, ir := 0x00#8, a := 0x5A#8, b := 0x0F#8
    flags := 0x00#8, abus := 0x4000#16, dbus := 0x77#8, stepCounter := 5#4, run := .running
    mem := [(0x2000, 0x34#8), (0x2001, 0x12#8)] }

/-- The micro-step of one control word. -/
def one (cw : ControlWord) (s : State) : Option State := after (microStepWith config (fun _ => cw) s)

theorem test_M1_zero_word : one 0x00000000#32 micro = some { micro with
    dbus := 0xFF#8, stepCounter := 6#4 } := by decide
theorem test_M3_pci_pcinc1 : one 0x00020200#32 micro = some { micro with
    pc := 0x4001#16, dbus := 0xFF#8, stepCounter := 6#4 } := by decide
theorem test_M6_spinc2_spdec1 : one 0x0C000000#32 micro = some { micro with
    sp := 0x3001#16, dbus := 0xFF#8, stepCounter := 6#4 } := by decide
theorem test_M7_madec2_mainc1 : one 0x01200000#32 micro = some { micro with
    mar := 0x1FFF#16, dbus := 0xFF#8, stepCounter := 6#4 } := by decide
theorem test_M8_pcdec2_wraps : one 0x00100000#32 { micro with pc := 0x0001#16 } = some { { micro with pc := 0x0001#16 } with
    pc := 0xFFFF#16, dbus := 0xFF#8, stepCounter := 6#4 } := by decide
theorem test_M9_store_at_new_mar : one 0x00000C0A#32 micro = some { micro with
    abus := 0x3000#16, mar := 0x3000#16, dbus := 0x5A#8, stepCounter := 6#4
    mem := [(0x2000, 0x34#8), (0x2001, 0x12#8), (0x3000, 0x5A#8)] } := by decide
theorem test_M10_store_undriven : one 0x00000800#32 micro = some { micro with
    mem := [(0x2000, 0xFF#8), (0x2001, 0x12#8)], dbus := 0xFF#8, stepCounter := 6#4 } := by decide
theorem test_M13_last_address_driver : one 0x00000007#32 micro = some { micro with
    abus := 0x1234#16, dbus := 0xFF#8, stepCounter := 6#4 } := by decide
theorem test_M14_memory_over_a : one 0x00002018#32 micro = some { micro with
    b := 0x34#8, dbus := 0x34#8, stepCounter := 6#4 } := by decide
theorem test_M15_alu_over_a : one 0x00002068#32 micro = some { micro with
    b := 0xA5#8, dbus := 0xA5#8, stepCounter := 6#4 } := by decide
theorem test_M16_cmp_drives_nothing : one 0x000021F0#32 micro = some { micro with
    b := 0x34#8, dbus := 0x34#8, stepCounter := 6#4 } := by decide
theorem test_M17_pchi : one 0x00008010#32 micro = some { micro with
    pc := 0x3400#16, dbus := 0x34#8, stepCounter := 6#4 } := by decide
theorem test_M19_pci_then_pcli : one 0x00010214#32 micro = some { micro with
    abus := 0x1234#16, pc := 0x1234#16, dbus := 0x34#8, stepCounter := 6#4 } := by decide
theorem test_M21_add_old_operands : one 0x00003100#32 micro = some { micro with
    a := 0x69#8, b := 0x69#8, dbus := 0x69#8, stepCounter := 6#4 } := by decide
theorem test_M23_reserved_mode : one 0x400010E0#32 micro = some { micro with
    run := .faulted (.reservedAluMode 7#4) } := by decide
theorem test_M24_halt_first : one 0xC0021000#32 micro = some { micro with
    run := .halted } := by decide
theorem test_M25_bit_29 : one 0x20000000#32 micro = some { micro with
    dbus := 0xFF#8, stepCounter := 6#4 } := by decide
theorem test_M26_step_wraps : one 0x00000000#32 { micro with stepCounter := 15#4 } = some { { micro with stepCounter := 15#4 } with
    dbus := 0xFF#8, stepCounter := 0#4 } := by decide
theorem test_M27_mao_at_ffff : one 0x00040404#32 { micro with mar := 0xFFFF#16 } = some { { micro with mar := 0xFFFF#16 } with
    run := .faulted (.addressOutOfRange 0x10000) } := by decide
theorem test_M29_adc : one 0x00001140#32 { micro with flags := 0x04#8 } = some { { micro with flags := 0x04#8 } with
    a := 0x6A#8, flags := 0x00#8, dbus := 0x6A#8, stepCounter := 6#4 } := by decide
theorem test_M30_undefined : one 0x00000000#32 { micro with ir := 0x40#8 } = some { { micro with ir := 0x40#8 } with
    run := .faulted (.undefinedOpcode 0x40#8) } := by decide

/-! ### Instructions, one step each (95, part 5) -/

theorem test_lodi_I3 : regs { boot 0x0000#16 [0x00#8, 0x80#8] with flags := 0x0F#8 }
    = some (0x80#8, 0x00#8, 0x0F#8, 0x0002#16, 0x0001#16, 0x0001#16, 0x80#8) := by decide
theorem test_lodi_I10_wraps : regs (boot 0xFFFF#16 [0x00#8, 0x42#8])
    = some (0x42#8, 0x00#8, 0x00#8, 0x0001#16, 0x0000#16, 0x0000#16, 0x42#8) := by decide
theorem test_loda_I9 : regs (poke 0x0040#16 [0xAB#8] (boot 0xFFFD#16 [0x01#8, 0x40#8, 0x00#8]))
    = some (0xAB#8, 0x00#8, 0x00#8, 0x0000#16, 0x0040#16, 0x0040#16, 0xAB#8) := by decide
theorem test_loda_I8_own_operand : regs (boot 0x0000#16 [0x01#8, 0x01#8, 0x00#8])
    = some (0x01#8, 0x00#8, 0x00#8, 0x0003#16, 0x0001#16, 0x0001#16, 0x01#8) := by decide
theorem test_lodn_I5 : regs (poke 0x1234#16 [0x5C#8] (poke 0x0040#16 [0x34#8, 0x12#8]
      (boot 0x0000#16 [0x02#8, 0x40#8, 0x00#8])))
    = some (0x5C#8, 0x00#8, 0x00#8, 0x0003#16, 0x1234#16, 0x1234#16, 0x5C#8) := by decide
theorem test_lodn_I12_cell_at_ffff : stop (boot 0x0000#16 [0x02#8, 0xFF#8, 0xFF#8])
    = some (.faulted (.addressOutOfRange 0x10000), 4#4, 0x0003#16, 0xFFFF#16, 0x02#8, 0x00#8) := by decide
theorem test_loda_I11_operand_fault : stop (boot 0xFFFE#16 [0x01#8, 0x40#8])
    = some (.faulted (.addressOutOfRange 0x10000), 3#4, 0xFFFF#16, 0xFFFF#16, 0x01#8, 0x00#8) := by decide
theorem test_stoa_I6 : (after (step { boot 0x0000#16 [0x03#8, 0x50#8, 0x00#8] with a := 0x99#8 })).map (·.mem)
    = some [(0, 0x03#8), (1, 0x50#8), (0x50, 0x99#8)] := by decide
theorem test_stoa_zero_removes_the_cell : (after (step (boot 0x0000#16 [0x03#8, 0x01#8, 0x00#8]))).map (·.mem)
    = some [(0, 0x03#8)] := by decide
theorem test_ston_I7 : (after (step (poke 0x0040#16 [0x34#8, 0x12#8]
      { boot 0x0000#16 [0x04#8, 0x40#8, 0x00#8] with a := 0x77#8 }))).map (fun t => (t.mem.read 0x1234#16, t.pc))
    = some (0x77#8, 0x0003#16) := by decide
theorem test_ston_I13_writes_nothing : (after (step { boot 0x0000#16 [0x04#8, 0xFF#8, 0xFF#8] with a := 0x12#8 })).map
    (fun t => (t.mem, t.stepCounter)) = some ([(0, 0x04#8), (1, 0xFF#8), (2, 0xFF#8)], 4#4) := by decide
theorem test_addi_A1 : regs { boot 0x0000#16 [0x05#8, 0x01#8] with a := 0xFF#8 }
    = some (0x00#8, 0x01#8, 0x0C#8, 0x0002#16, 0x0001#16, 0x0001#16, 0x00#8) := by decide
theorem test_addi_A4_carry_ignored : regs { boot 0x0000#16 [0x05#8, 0x34#8] with a := 0x12#8, flags := 0x04#8 }
    = some (0x46#8, 0x34#8, 0x00#8, 0x0002#16, 0x0001#16, 0x0001#16, 0x46#8) := by decide
theorem test_adda_A5 : regs { poke 0x0040#16 [0x50#8] (boot 0x0000#16 [0x06#8, 0x40#8, 0x00#8]) with a := 0x50#8 }
    = some (0xA0#8, 0x50#8, 0x03#8, 0x0003#16, 0x0040#16, 0x0040#16, 0xA0#8) := by decide
theorem test_subi_A6 : regs { boot 0x0000#16 [0x07#8, 0x01#8] with a := 0x00#8 }
    = some (0xFF#8, 0x01#8, 0x06#8, 0x0002#16, 0x0001#16, 0x0001#16, 0xFF#8) := by decide
theorem test_subi_A8 : regs { boot 0x0000#16 [0x07#8, 0x01#8] with a := 0x80#8 }
    = some (0x7F#8, 0x01#8, 0x01#8, 0x0002#16, 0x0001#16, 0x0001#16, 0x7F#8) := by decide
theorem test_suba_A9 : regs { poke 0x0040#16 [0xB0#8] (boot 0x0000#16 [0x08#8, 0x40#8, 0x00#8]) with a := 0x50#8 }
    = some (0xA0#8, 0xB0#8, 0x07#8, 0x0003#16, 0x0040#16, 0x0040#16, 0xA0#8) := by decide
theorem test_adci_A10 : regs { boot 0x0000#16 [0x09#8, 0x00#8] with a := 0xFF#8, flags := 0x04#8 }
    = some (0x00#8, 0x00#8, 0x0C#8, 0x0002#16, 0x0001#16, 0x0001#16, 0x00#8) := by decide
theorem test_adci_A12 : regs { boot 0x0000#16 [0x09#8, 0x20#8] with a := 0x10#8 }
    = some (0x30#8, 0x20#8, 0x00#8, 0x0002#16, 0x0001#16, 0x0001#16, 0x30#8) := by decide
theorem test_adca_A13 : regs { poke 0x0040#16 [0xFF#8] (boot 0x0000#16 [0x0A#8, 0x40#8, 0x00#8]) with a := 0xFF#8, flags := 0x04#8 }
    = some (0xFF#8, 0xFF#8, 0x06#8, 0x0003#16, 0x0040#16, 0x0040#16, 0xFF#8) := by decide
theorem test_sbci_A14 : regs { boot 0x0000#16 [0x0B#8, 0x00#8] with a := 0x00#8, flags := 0x04#8 }
    = some (0xFF#8, 0x00#8, 0x06#8, 0x0002#16, 0x0001#16, 0x0001#16, 0xFF#8) := by decide
theorem test_sbci_A16 : regs { boot 0x0000#16 [0x0B#8, 0x05#8] with a := 0x10#8 }
    = some (0x0B#8, 0x05#8, 0x00#8, 0x0002#16, 0x0001#16, 0x0001#16, 0x0B#8) := by decide
theorem test_sbca_A17 : regs { poke 0x0040#16 [0x7F#8] (boot 0x0000#16 [0x0C#8, 0x40#8, 0x00#8]) with a := 0x80#8, flags := 0x04#8 }
    = some (0x00#8, 0x7F#8, 0x09#8, 0x0003#16, 0x0040#16, 0x0040#16, 0x00#8) := by decide
theorem test_cmpi_A18 : regs { boot 0x0000#16 [0x0D#8, 0x42#8] with a := 0x42#8 }
    = some (0x42#8, 0x42#8, 0x08#8, 0x0002#16, 0x0001#16, 0x0001#16, 0xFF#8) := by decide
theorem test_cmpi_A21 : regs { boot 0x0000#16 [0x0D#8, 0x01#8] with a := 0x80#8 }
    = some (0x80#8, 0x01#8, 0x01#8, 0x0002#16, 0x0001#16, 0x0001#16, 0xFF#8) := by decide
theorem test_cmpa_A22 : regs { poke 0x0040#16 [0xFF#8] (boot 0x0000#16 [0x0E#8, 0x40#8, 0x00#8]) with a := 0x7F#8 }
    = some (0x7F#8, 0xFF#8, 0x07#8, 0x0003#16, 0x0040#16, 0x0040#16, 0xFF#8) := by decide
theorem test_inc_A23 : regs { boot 0x0000#16 [0x0F#8] with a := 0xFF#8 }
    = some (0x00#8, 0x00#8, 0x0C#8, 0x0001#16, 0x0000#16, 0x0000#16, 0x00#8) := by decide
theorem test_inc_A25 : regs { boot 0x0000#16 [0x0F#8] with b := 0xAA#8 }
    = some (0x01#8, 0xAA#8, 0x00#8, 0x0001#16, 0x0000#16, 0x0000#16, 0x01#8) := by decide
theorem test_dec_A26 : regs { boot 0x0000#16 [0x10#8] with a := 0x00#8 }
    = some (0xFF#8, 0x00#8, 0x06#8, 0x0001#16, 0x0000#16, 0x0000#16, 0xFF#8) := by decide
theorem test_dec_A27 : regs { boot 0x0000#16 [0x10#8] with a := 0x80#8 }
    = some (0x7F#8, 0x00#8, 0x01#8, 0x0001#16, 0x0000#16, 0x0000#16, 0x7F#8) := by decide
theorem test_neg_A29 : regs { boot 0x0000#16 [0x11#8] with a := 0x00#8, flags := 0x05#8 }
    = some (0x00#8, 0x00#8, 0x0D#8, 0x0001#16, 0x0000#16, 0x0000#16, 0x00#8) := by decide
theorem test_neg_A30 : regs { boot 0x0000#16 [0x11#8] with a := 0x80#8, flags := 0x0D#8 }
    = some (0x80#8, 0x00#8, 0x07#8, 0x0001#16, 0x0000#16, 0x0000#16, 0x80#8) := by decide
theorem test_andi_G1 : regs { boot 0x0000#16 [0x12#8, 0x3C#8] with a := 0xF0#8, flags := 0x0F#8 }
    = some (0x30#8, 0x3C#8, 0x0F#8, 0x0002#16, 0x0001#16, 0x0001#16, 0x30#8) := by decide
theorem test_anda_G3 : regs { poke 0x0060#16 [0x0F#8] (boot 0x0000#16 [0x13#8, 0x60#8, 0x00#8]) with a := 0xAA#8 }
    = some (0x0A#8, 0x0F#8, 0x00#8, 0x0003#16, 0x0060#16, 0x0060#16, 0x0A#8) := by decide
theorem test_ori_G4 : regs { boot 0x0000#16 [0x14#8, 0x06#8] with a := 0x81#8 }
    = some (0x87#8, 0x06#8, 0x00#8, 0x0002#16, 0x0001#16, 0x0001#16, 0x87#8) := by decide
theorem test_ora_G5 : regs { poke 0x0061#16 [0x10#8] (boot 0x0000#16 [0x15#8, 0x61#8, 0x00#8]) with a := 0x01#8 }
    = some (0x11#8, 0x10#8, 0x00#8, 0x0003#16, 0x0061#16, 0x0061#16, 0x11#8) := by decide
theorem test_not_G6 : regs { boot 0x0000#16 [0x16#8] with a := 0x5A#8, flags := 0x08#8 }
    = some (0xA5#8, 0x00#8, 0x08#8, 0x0001#16, 0x0000#16, 0x0000#16, 0xA5#8) := by decide
theorem test_bcs_B1 : regs { boot 0x0003#16 [0x17#8, 0x09#8, 0x00#8] with flags := 0x04#8 }
    = some (0x00#8, 0x00#8, 0x04#8, 0x0009#16, 0x0004#16, 0x0009#16, 0xFF#8) := by decide
theorem test_bcs_B4 : regs { boot 0x0003#16 [0x17#8, 0x09#8, 0x00#8] with flags := 0x0B#8 }
    = some (0x00#8, 0x00#8, 0x0B#8, 0x0006#16, 0x0003#16, 0x0003#16, 0xFF#8) := by decide
theorem test_beq_B5 : regs { boot 0x0003#16 [0x18#8, 0x09#8, 0x00#8] with flags := 0x08#8 }
    = some (0x00#8, 0x00#8, 0x08#8, 0x0009#16, 0x0004#16, 0x0009#16, 0xFF#8) := by decide
theorem test_beq_B7 : regs { boot 0x0003#16 [0x18#8, 0x09#8, 0x00#8] with flags := 0x07#8 }
    = some (0x00#8, 0x00#8, 0x07#8, 0x0006#16, 0x0003#16, 0x0003#16, 0xFF#8) := by decide
theorem test_bcs_B20_not_taken_at_fffe : regs (boot 0xFFFE#16 [0x17#8, 0x02#8])
    = some (0x00#8, 0x00#8, 0x00#8, 0x0001#16, 0xFFFE#16, 0xFFFE#16, 0xFF#8) := by decide
theorem test_bne_B9 : regs { boot 0x0003#16 [0x19#8, 0x09#8, 0x00#8] with flags := 0x00#8 }
    = some (0x00#8, 0x00#8, 0x00#8, 0x0006#16, 0x0003#16, 0x0003#16, 0xFF#8) := by decide
theorem test_bcc_B10 : regs { boot 0x0003#16 [0x1A#8, 0x09#8, 0x00#8] with flags := 0x00#8 }
    = some (0x00#8, 0x00#8, 0x00#8, 0x0006#16, 0x0003#16, 0x0003#16, 0xFF#8) := by decide
theorem test_bmi_B11 : regs { boot 0x0003#16 [0x1B#8, 0x09#8, 0x00#8] with flags := 0x02#8 }
    = some (0x00#8, 0x00#8, 0x02#8, 0x0006#16, 0x0003#16, 0x0003#16, 0xFF#8) := by decide
theorem test_bpl_B12 : regs { boot 0x0003#16 [0x1C#8, 0x09#8, 0x00#8] with flags := 0x00#8 }
    = some (0x00#8, 0x00#8, 0x00#8, 0x0006#16, 0x0003#16, 0x0003#16, 0xFF#8) := by decide
theorem test_bvs_B13 : regs { boot 0x0003#16 [0x1D#8, 0x09#8, 0x00#8] with flags := 0x01#8 }
    = some (0x00#8, 0x00#8, 0x01#8, 0x0006#16, 0x0003#16, 0x0003#16, 0xFF#8) := by decide
theorem test_bvc_B14 : regs { boot 0x0003#16 [0x1E#8, 0x09#8, 0x00#8] with flags := 0x00#8 }
    = some (0x00#8, 0x00#8, 0x00#8, 0x0006#16, 0x0003#16, 0x0003#16, 0xFF#8) := by decide
theorem test_jmp_B15 : regs (boot 0x0006#16 [0x1F#8, 0x02#8, 0x00#8])
    = some (0x00#8, 0x00#8, 0x00#8, 0x0002#16, 0x0007#16, 0x0002#16, 0xFF#8) := by decide
theorem test_jmp_B17_operand_wraps : regs (boot 0xFFFF#16 [0x1F#8, 0x34#8, 0x12#8])
    = some (0x00#8, 0x00#8, 0x00#8, 0x1234#16, 0x0000#16, 0x1234#16, 0xFF#8) := by decide
theorem test_popa_K4_pops_its_opcode : regs (boot 0x0000#16 [0x21#8])
    = some (0x21#8, 0x00#8, 0x00#8, 0x0001#16, 0x0000#16, 0x0000#16, 0x21#8) := by decide
theorem test_bcs_B19_operand_fault : stop { boot 0xFFFE#16 [0x17#8, 0x02#8] with flags := 0x04#8 }
    = some (.faulted (.addressOutOfRange 0x10000), 3#4, 0xFFFF#16, 0xFFFF#16, 0x17#8, 0x00#8) := by decide
theorem test_psha_K1 : (after (step { boot 0x0000#16 [0x20#8] with a := 0x05#8 })).map
    (fun t => (t.sp, t.mem, t.pc, t.mar, t.dbus))
    = some (0xFFFF#16, [(0, 0x20#8), (0xFFFF, 0x05#8)], 0x0001#16, 0xFFFF#16, 0x05#8) := by decide
theorem test_psha_K2 : (after (step { boot 0x0000#16 [0x20#8] with a := 0xC3#8, sp := 0x8000#16 })).map
    (fun t => (t.sp, t.mem.read 0x7FFF#16)) = some (0x7FFF#16, 0xC3#8) := by decide
theorem test_popa_K3 : (after (step (poke 0xFFFF#16 [0x05#8] { boot 0x0000#16 [0x21#8] with sp := 0xFFFF#16 }))).map
    (fun t => (t.a, t.sp, t.mar)) = some (0x05#8, 0x0000#16, 0xFFFF#16) := by decide
theorem test_halt_K7 : stop (boot 0xFFFF#16 [0x22#8])
    = some (.halted, 2#4, 0x0000#16, 0xFFFF#16, 0x22#8, 0x00#8) := by decide
theorem test_undefined_X2 : stop { boot 0x0010#16 [0xFF#8] with a := 0x05#8 }
    = some (.faulted (.undefinedOpcode 0xFF#8), 2#4, 0x0011#16, 0x0010#16, 0xFF#8, 0x05#8) := by decide
theorem test_halted_machine_is_stuck : after (step { State.reset with run := .halted }) = none := by decide
theorem test_step_mid_cycle_ends_the_cycle : (after (step { boot 0x0000#16 [0x0F#8] with
    stepCounter := 2#4, ir := 0x0F#8 })).map (fun t => (t.a, t.stepCounter, t.pc)) = some (0x01#8, 0#4, 0x0000#16) := by
  decide

/-! ### The configuration is read (R8): another value of a decided parameter makes another machine -/

theorem test_flag_position_read :
    getFlag { config with flagBit := fun _ => 7 } 0x80#8 .c = true := by decide
theorem test_signal_position_read :
    asserts { config with signalBit := fun g => 31 - signalBits g } 0x00000001#32 .hlt = true := by decide
theorem test_byte_order_read :
    (writeBytes [] 0x0010#16 [0x12#8, 0x34#8]).readWord { config with byteOrder := .big } 0x0010#16
      = .ok 0x1234#16 := by decide
theorem test_opcode_byte_read : decodeWith { config with opcodes := [.halt], opcodeByte := fun _ => 0x76#8 }
    [0x76#8] = .ok (.halt, []) := by decide
theorem test_micro_program_read :
    compiledRom { config with execute := fun _ => [⟨.nop, [.hlt]⟩] } 0x0002#16 = 0x80000000#32 := by decide
theorem test_alu_operand_read :
    (alu { config with aluOp2 := .accumulator } .add 0x21#8 0x05#8 0x00#8).result = some 0x42#8 := by decide
theorem test_alu_code_read :
    aluModeOfCode { config with aluCode := fun m => aluCodes m + 1#4 } 0x9#4 = some .add := by decide
theorem test_register_add_read : (phaseCount { config with registerAdd := fun x _ => x }
    0x00020000#32 { State.reset with pc := 0xFFFF#16 }).pc = 0xFFFF#16 := by decide
theorem test_reset_read :
    (State.resetWith { config with reset := { resetValues with pc := 0x0020#16 } }).pc = 0x0020#16 := by decide
theorem test_latch_rule_read :
    (after (cycleWith { config with undefinedOpcode := .atLatch } referenceRom (boot 0x0010#16 [0xFF#8]))).map
      (fun t => (t.run, t.stepCounter, t.pc, t.ir))
      = some (.faulted (.undefinedOpcode 0xFF#8), 1#4, 0x0010#16, 0x00#8) := by decide
theorem test_micro_core_run : (after ((microCore config referenceRom).run 2 (boot 0x0010#16 [0x22#8]))).map
    (fun t => (t.ir, t.pc, t.stepCounter)) = some (0x22#8, 0x0011#16, 2#4) := by decide
theorem test_cycle_with_fetches : after (cycleWith config referenceRom (boot 0xFFFF#16 [0x0F#8]))
    = after (step (boot 0xFFFF#16 [0x0F#8])) := by decide

/-! ### The host's words -/

theorem test_fetch_word_runs : after (step (State.reset.withFetchWord 8 0x0F))
    = after (exec .inc (State.reset.withFetchWord 8 0x0F)) := by decide
theorem test_fetch_word_operand : (after (step (State.reset.withFetchWord 24 0x12341F))).map (·.pc) = some 0x1234#16 := by
  decide
theorem test_fetch_word_restarts : (after (step (({ State.reset with run := .halted, ir := 0x40#8, stepCounter := 2#4 } :
    State).withFetchWord 16 0x7F00))).map (·.a) = some 0x7F#8 := by decide
theorem test_reset_is_changed_in_memory_alone : State.reset.withFetchWord 16 0x7F00
    = { State.reset with mem := [(1, 0x7F#8)] } := by decide
theorem test_image_too_long_refused : loadImage 65535 [0x00#8, 0x01#8] State.reset = none := by decide
theorem test_image_at_the_top : (loadImage 65535 [0x07#8] State.reset).map (·.mem) = some [(65535, 0x07#8)] := by decide
theorem test_halted_output : haltedOutput { State.reset with run := .halted } = true := by decide
theorem test_fault_output : faultOutput { State.reset with run := .faulted (.reservedAluMode 4#4) }
    = some (.reservedAluMode 4#4) := by decide

/-! ### Witnesses: states and operands that meet the statements' hypotheses -/

theorem ready_boot (at' : Word) (bytes : List Byte) : (boot at' bytes).Ready := ⟨⟨rfl, rfl⟩, rfl⟩

/-- A ready machine about to fetch `i`, with `PC + 1` inside or at the end of memory. -/
def Meets (i : Instr) (s : State) : Prop := s.Ready ∧ s.Fetches i

theorem witness_encodeInvertsDecode :
    decode [0x22#8, 0x99#8] = .ok (.halt, [0x99#8]) := by decide
theorem witness_undefinedBytes :
    (0x23 ≤ (0x23#8 : Byte).toNat) ∧ (0x22#8 : Byte).toNat ≤ 0x22 := by decide
theorem witness_romAddress :
    definedOpcode config State.reset.ir = true := by decide
theorem witness_fetchRowsAndOverrides :
    (0x22#8 : Byte).toNat ≤ 0x22 ∧ (4#4).getLsbD 2 = true ∧ (11#4).getLsbD 2 = false ∧
      (8#4).getLsbD 3 = true ∧ (7#4).getLsbD 3 = false ∧ (0x19#8 : Byte) ≠ 0x17#8 ∧ (0x19#8 : Byte) ≠ 0x18#8 := by decide
theorem witness_undefinedOpcodeRows :
    0x23 ≤ (0x23#8 : Byte).toNat ∧ 0x23 ≤ (0xFF#8 : Byte).toNat := by decide
theorem witness_resetWithImage :
    (loadImage 65535 [0x07#8] State.reset).isSome = true ∧ (loadImage 0 [] State.reset).isSome = true := by decide
theorem witness_stoppedMachine :
    ({ State.reset with run := .halted } : State).run ≠ .running := by decide
theorem witness_stoppingMicroStep :
    (one 0x00000080#32 micro).map (fun t => decide (t.run ≠ .running)) = some true := by decide
theorem witness_firstEvent_undefined :
    ({ micro with ir := 0x23#8 } : State).run = .running ∧ 0x23 ≤ (0x23#8 : Byte).toNat := by decide
theorem witness_firstEvent_halt :
    micro.ir.toNat ≤ 0x22 ∧ asserts config 0x80000000#32 .hlt = true := by decide
theorem witness_firstEvent_address :
    asserts config 0x00000004#32 .hlt = false ∧ asserts config 0x00000004#32 .mao = true ∧
      ({ micro with mar := 0xFFFF#16 } : State).mar = 0xFFFF#16 := by decide
theorem witness_firstEvent_reserved :
    asserts config 0x00000080#32 .hlt = false ∧ asserts config 0x00000080#32 .mao = false ∧
      4 ≤ (aluField config 0x00000080#32).toNat ∧ (aluField config 0x000000E0#32).toNat ≤ 7 := by decide
theorem witness_firstEvent_none :
    micro.run = .running ∧ micro.ir.toNat ≤ 0x22 ∧ asserts config 0x00000100#32 .hlt = false ∧
      asserts config 0x00000100#32 .mao = false ∧ ¬ (aluField config 0x00000100#32).toNat ≤ 7 := by decide
theorem witness_fetchSteps :
    FetchRowsShared config (fun addr => if addr.extractLsb' 0 4 = 0#4 then fetch0 config else fetch1 config) ∧
      config.dbusIdle = .everyStep ∧ (boot 0xFFFF#16 [0x22#8]).Ready := by
  refine ⟨fun f op _ => ?_, rfl, ready_boot _ _⟩
  simp only [romAddressOf_step]
  decide
theorem witness_wordApplied :
    (match applyWord config 0x00003100#32 micro with | .ok _ => true | .error _ => false) = true := by decide
theorem witness_alternativeRules_v :
    (specConfig ⟨.truncated, .addShape, .everyStep⟩).subVRule = .addShape ∧
      (0x80#8 : Byte).getLsbD 7 ≠ (0x7F#8 : Byte).getLsbD 7 := by decide
theorem witness_alternativeRules_z :
    (specConfig ⟨.fullSum, .signed, .everyStep⟩).addZRule = .fullSum := by decide
theorem witness_flagsWritten :
    (one 0x00000180#32 micro).map (fun t => decide (t.flags ≠ micro.flags)) = some true := by decide
theorem witness_twoByteRead :
    (0xFFFE#16 : Word) ≠ 0xFFFF#16 ∧ (0xFFFF#16 : Word) = 0xFFFF#16 := by decide
theorem witness_loadedImage :
    65536 < 65535 + ([0x00#8, 0x01#8] : List Byte).length ∧ 65535 + ([0x07#8] : List Byte).length ≤ 65536 := by decide
theorem witness_lodi :
    Meets (.lodi 0x42#8) (boot 0xFFFF#16 [0x00#8, 0x42#8]) := ⟨⟨⟨rfl, rfl⟩, by decide⟩, ⟨_, rfl⟩⟩
theorem witness_loda :
    Meets (.loda 0xFFFF#16) (boot 0xFFFD#16 [0x01#8, 0xFF#8, 0xFF#8]) ∧ ((boot 0xFFFD#16 [0x01#8, 0xFF#8, 0xFF#8]) : State).pc + 1#16 ≠ 0xFFFF#16 := ⟨⟨⟨⟨rfl, rfl⟩, by decide⟩, ⟨_, rfl⟩⟩, by decide⟩
theorem witness_loda_faults :
    Meets (.loda 0x0034#16) (boot 0xFFFE#16 [0x01#8, 0x34#8]) ∧ ((boot 0xFFFE#16 [0x01#8, 0x34#8]) : State).pc + 1#16 = 0xFFFF#16 := ⟨⟨⟨⟨rfl, rfl⟩, by decide⟩, ⟨_, rfl⟩⟩, by decide⟩
theorem witness_stoa :
    Meets (.stoa 0xFFFF#16) (boot 0xFFFD#16 [0x03#8, 0xFF#8, 0xFF#8]) ∧ ((boot 0xFFFD#16 [0x03#8, 0xFF#8, 0xFF#8]) : State).pc + 1#16 ≠ 0xFFFF#16 := ⟨⟨⟨⟨rfl, rfl⟩, by decide⟩, ⟨_, rfl⟩⟩, by decide⟩
theorem witness_stoa_faults :
    Meets (.stoa 0x0034#16) (boot 0xFFFE#16 [0x03#8, 0x34#8]) ∧ ((boot 0xFFFE#16 [0x03#8, 0x34#8]) : State).pc + 1#16 = 0xFFFF#16 := ⟨⟨⟨⟨rfl, rfl⟩, by decide⟩, ⟨_, rfl⟩⟩, by decide⟩
theorem witness_adda :
    Meets (.adda 0xFFFF#16) (boot 0xFFFD#16 [0x06#8, 0xFF#8, 0xFF#8]) ∧ ((boot 0xFFFD#16 [0x06#8, 0xFF#8, 0xFF#8]) : State).pc + 1#16 ≠ 0xFFFF#16 := ⟨⟨⟨⟨rfl, rfl⟩, by decide⟩, ⟨_, rfl⟩⟩, by decide⟩
theorem witness_adda_faults :
    Meets (.adda 0x0034#16) (boot 0xFFFE#16 [0x06#8, 0x34#8]) ∧ ((boot 0xFFFE#16 [0x06#8, 0x34#8]) : State).pc + 1#16 = 0xFFFF#16 := ⟨⟨⟨⟨rfl, rfl⟩, by decide⟩, ⟨_, rfl⟩⟩, by decide⟩
theorem witness_suba :
    Meets (.suba 0xFFFF#16) (boot 0xFFFD#16 [0x08#8, 0xFF#8, 0xFF#8]) ∧ ((boot 0xFFFD#16 [0x08#8, 0xFF#8, 0xFF#8]) : State).pc + 1#16 ≠ 0xFFFF#16 := ⟨⟨⟨⟨rfl, rfl⟩, by decide⟩, ⟨_, rfl⟩⟩, by decide⟩
theorem witness_suba_faults :
    Meets (.suba 0x0034#16) (boot 0xFFFE#16 [0x08#8, 0x34#8]) ∧ ((boot 0xFFFE#16 [0x08#8, 0x34#8]) : State).pc + 1#16 = 0xFFFF#16 := ⟨⟨⟨⟨rfl, rfl⟩, by decide⟩, ⟨_, rfl⟩⟩, by decide⟩
theorem witness_adca :
    Meets (.adca 0xFFFF#16) (boot 0xFFFD#16 [0x0A#8, 0xFF#8, 0xFF#8]) ∧ ((boot 0xFFFD#16 [0x0A#8, 0xFF#8, 0xFF#8]) : State).pc + 1#16 ≠ 0xFFFF#16 := ⟨⟨⟨⟨rfl, rfl⟩, by decide⟩, ⟨_, rfl⟩⟩, by decide⟩
theorem witness_adca_faults :
    Meets (.adca 0x0034#16) (boot 0xFFFE#16 [0x0A#8, 0x34#8]) ∧ ((boot 0xFFFE#16 [0x0A#8, 0x34#8]) : State).pc + 1#16 = 0xFFFF#16 := ⟨⟨⟨⟨rfl, rfl⟩, by decide⟩, ⟨_, rfl⟩⟩, by decide⟩
theorem witness_sbca :
    Meets (.sbca 0xFFFF#16) (boot 0xFFFD#16 [0x0C#8, 0xFF#8, 0xFF#8]) ∧ ((boot 0xFFFD#16 [0x0C#8, 0xFF#8, 0xFF#8]) : State).pc + 1#16 ≠ 0xFFFF#16 := ⟨⟨⟨⟨rfl, rfl⟩, by decide⟩, ⟨_, rfl⟩⟩, by decide⟩
theorem witness_sbca_faults :
    Meets (.sbca 0x0034#16) (boot 0xFFFE#16 [0x0C#8, 0x34#8]) ∧ ((boot 0xFFFE#16 [0x0C#8, 0x34#8]) : State).pc + 1#16 = 0xFFFF#16 := ⟨⟨⟨⟨rfl, rfl⟩, by decide⟩, ⟨_, rfl⟩⟩, by decide⟩
theorem witness_cmpa :
    Meets (.cmpa 0xFFFF#16) (boot 0xFFFD#16 [0x0E#8, 0xFF#8, 0xFF#8]) ∧ ((boot 0xFFFD#16 [0x0E#8, 0xFF#8, 0xFF#8]) : State).pc + 1#16 ≠ 0xFFFF#16 := ⟨⟨⟨⟨rfl, rfl⟩, by decide⟩, ⟨_, rfl⟩⟩, by decide⟩
theorem witness_cmpa_faults :
    Meets (.cmpa 0x0034#16) (boot 0xFFFE#16 [0x0E#8, 0x34#8]) ∧ ((boot 0xFFFE#16 [0x0E#8, 0x34#8]) : State).pc + 1#16 = 0xFFFF#16 := ⟨⟨⟨⟨rfl, rfl⟩, by decide⟩, ⟨_, rfl⟩⟩, by decide⟩
theorem witness_anda :
    Meets (.anda 0xFFFF#16) (boot 0xFFFD#16 [0x13#8, 0xFF#8, 0xFF#8]) ∧ ((boot 0xFFFD#16 [0x13#8, 0xFF#8, 0xFF#8]) : State).pc + 1#16 ≠ 0xFFFF#16 := ⟨⟨⟨⟨rfl, rfl⟩, by decide⟩, ⟨_, rfl⟩⟩, by decide⟩
theorem witness_anda_faults :
    Meets (.anda 0x0034#16) (boot 0xFFFE#16 [0x13#8, 0x34#8]) ∧ ((boot 0xFFFE#16 [0x13#8, 0x34#8]) : State).pc + 1#16 = 0xFFFF#16 := ⟨⟨⟨⟨rfl, rfl⟩, by decide⟩, ⟨_, rfl⟩⟩, by decide⟩
theorem witness_ora :
    Meets (.ora 0xFFFF#16) (boot 0xFFFD#16 [0x15#8, 0xFF#8, 0xFF#8]) ∧ ((boot 0xFFFD#16 [0x15#8, 0xFF#8, 0xFF#8]) : State).pc + 1#16 ≠ 0xFFFF#16 := ⟨⟨⟨⟨rfl, rfl⟩, by decide⟩, ⟨_, rfl⟩⟩, by decide⟩
theorem witness_ora_faults :
    Meets (.ora 0x0034#16) (boot 0xFFFE#16 [0x15#8, 0x34#8]) ∧ ((boot 0xFFFE#16 [0x15#8, 0x34#8]) : State).pc + 1#16 = 0xFFFF#16 := ⟨⟨⟨⟨rfl, rfl⟩, by decide⟩, ⟨_, rfl⟩⟩, by decide⟩
theorem witness_jmp :
    Meets (.jmp 0xFFFF#16) (boot 0xFFFD#16 [0x1F#8, 0xFF#8, 0xFF#8]) ∧ ((boot 0xFFFD#16 [0x1F#8, 0xFF#8, 0xFF#8]) : State).pc + 1#16 ≠ 0xFFFF#16 := ⟨⟨⟨⟨rfl, rfl⟩, by decide⟩, ⟨_, rfl⟩⟩, by decide⟩
theorem witness_jmp_faults :
    Meets (.jmp 0x0034#16) (boot 0xFFFE#16 [0x1F#8, 0x34#8]) ∧ ((boot 0xFFFE#16 [0x1F#8, 0x34#8]) : State).pc + 1#16 = 0xFFFF#16 := ⟨⟨⟨⟨rfl, rfl⟩, by decide⟩, ⟨_, rfl⟩⟩, by decide⟩
theorem witness_lodn :
    Meets (.lodn 0xFFFE#16) (boot 0xFFFD#16 [0x02#8, 0xFE#8, 0xFF#8]) ∧ ((boot 0xFFFD#16 [0x02#8, 0xFE#8, 0xFF#8]) : State).pc + 1#16 ≠ 0xFFFF#16 ∧ (0xFFFE#16 : Word) ≠ 0xFFFF#16 := ⟨⟨⟨⟨rfl, rfl⟩, by decide⟩, ⟨_, rfl⟩⟩, by decide⟩
theorem witness_lodn_cell_faults :
    Meets (.lodn 0xFFFF#16) (boot 0xFFFD#16 [0x02#8, 0xFF#8, 0xFF#8]) ∧ ((boot 0xFFFD#16 [0x02#8, 0xFF#8, 0xFF#8]) : State).pc + 1#16 ≠ 0xFFFF#16 := ⟨⟨⟨⟨rfl, rfl⟩, by decide⟩, ⟨_, rfl⟩⟩, by decide⟩
theorem witness_lodn_operand_faults :
    Meets (.lodn 0x0034#16) (boot 0xFFFE#16 [0x02#8, 0x34#8]) ∧ ((boot 0xFFFE#16 [0x02#8, 0x34#8]) : State).pc + 1#16 = 0xFFFF#16 := ⟨⟨⟨⟨rfl, rfl⟩, by decide⟩, ⟨_, rfl⟩⟩, by decide⟩
theorem witness_ston :
    Meets (.ston 0xFFFE#16) (boot 0xFFFD#16 [0x04#8, 0xFE#8, 0xFF#8]) ∧ ((boot 0xFFFD#16 [0x04#8, 0xFE#8, 0xFF#8]) : State).pc + 1#16 ≠ 0xFFFF#16 ∧ (0xFFFE#16 : Word) ≠ 0xFFFF#16 := ⟨⟨⟨⟨rfl, rfl⟩, by decide⟩, ⟨_, rfl⟩⟩, by decide⟩
theorem witness_ston_cell_faults :
    Meets (.ston 0xFFFF#16) (boot 0xFFFD#16 [0x04#8, 0xFF#8, 0xFF#8]) ∧ ((boot 0xFFFD#16 [0x04#8, 0xFF#8, 0xFF#8]) : State).pc + 1#16 ≠ 0xFFFF#16 := ⟨⟨⟨⟨rfl, rfl⟩, by decide⟩, ⟨_, rfl⟩⟩, by decide⟩
theorem witness_ston_operand_faults :
    Meets (.ston 0x0034#16) (boot 0xFFFE#16 [0x04#8, 0x34#8]) ∧ ((boot 0xFFFE#16 [0x04#8, 0x34#8]) : State).pc + 1#16 = 0xFFFF#16 := ⟨⟨⟨⟨rfl, rfl⟩, by decide⟩, ⟨_, rfl⟩⟩, by decide⟩
theorem witness_addi :
    Meets (.addi 0xFF#8) (boot 0xFFFE#16 [0x05#8, 0xFF#8]) := ⟨⟨⟨rfl, rfl⟩, by decide⟩, ⟨_, rfl⟩⟩
theorem witness_subi :
    Meets (.subi 0xFF#8) (boot 0xFFFE#16 [0x07#8, 0xFF#8]) := ⟨⟨⟨rfl, rfl⟩, by decide⟩, ⟨_, rfl⟩⟩
theorem witness_adci :
    Meets (.adci 0xFF#8) (boot 0xFFFE#16 [0x09#8, 0xFF#8]) := ⟨⟨⟨rfl, rfl⟩, by decide⟩, ⟨_, rfl⟩⟩
theorem witness_sbci :
    Meets (.sbci 0xFF#8) (boot 0xFFFE#16 [0x0B#8, 0xFF#8]) := ⟨⟨⟨rfl, rfl⟩, by decide⟩, ⟨_, rfl⟩⟩
theorem witness_cmpi :
    Meets (.cmpi 0xFF#8) (boot 0xFFFE#16 [0x0D#8, 0xFF#8]) := ⟨⟨⟨rfl, rfl⟩, by decide⟩, ⟨_, rfl⟩⟩
theorem witness_andi :
    Meets (.andi 0xFF#8) (boot 0xFFFE#16 [0x12#8, 0xFF#8]) := ⟨⟨⟨rfl, rfl⟩, by decide⟩, ⟨_, rfl⟩⟩
theorem witness_ori :
    Meets (.ori 0xFF#8) (boot 0xFFFE#16 [0x14#8, 0xFF#8]) := ⟨⟨⟨rfl, rfl⟩, by decide⟩, ⟨_, rfl⟩⟩
theorem witness_inc :
    Meets (.inc) (boot 0xFFFF#16 [0x0F#8]) := ⟨⟨⟨rfl, rfl⟩, by decide⟩, ⟨_, rfl⟩⟩
theorem witness_dec :
    Meets (.dec) (boot 0xFFFF#16 [0x10#8]) := ⟨⟨⟨rfl, rfl⟩, by decide⟩, ⟨_, rfl⟩⟩
theorem witness_neg :
    Meets (.neg) (boot 0xFFFF#16 [0x11#8]) := ⟨⟨⟨rfl, rfl⟩, by decide⟩, ⟨_, rfl⟩⟩
theorem witness_not :
    Meets (.not) (boot 0xFFFF#16 [0x16#8]) := ⟨⟨⟨rfl, rfl⟩, by decide⟩, ⟨_, rfl⟩⟩
theorem witness_psha :
    Meets (.psha) (boot 0xFFFF#16 [0x20#8]) := ⟨⟨⟨rfl, rfl⟩, by decide⟩, ⟨_, rfl⟩⟩
theorem witness_popa :
    Meets (.popa) (boot 0xFFFF#16 [0x21#8]) := ⟨⟨⟨rfl, rfl⟩, by decide⟩, ⟨_, rfl⟩⟩
theorem witness_halt :
    Meets (.halt) (boot 0xFFFF#16 [0x22#8]) := ⟨⟨⟨rfl, rfl⟩, by decide⟩, ⟨_, rfl⟩⟩
theorem witness_bcs_skips :
    Meets (.bcs 0x0034#16) (boot 0xFFFE#16 [0x17#8, 0x34#8]) ∧ getFlag config ((boot 0xFFFE#16 [0x17#8, 0x34#8]) : State).flags .c = false := ⟨⟨⟨⟨rfl, rfl⟩, by decide⟩, ⟨_, rfl⟩⟩, by decide⟩
theorem witness_bcs_taken :
    Meets (.bcs 0x1234#16) { boot 0xFFFF#16 [0x17#8, 0x34#8, 0x12#8] with flags := 0x04#8 } ∧ getFlag config ({ boot 0xFFFF#16 [0x17#8, 0x34#8, 0x12#8] with flags := 0x04#8 } : State).flags .c = true ∧ ({ boot 0xFFFF#16 [0x17#8, 0x34#8, 0x12#8] with flags := 0x04#8 } : State).pc + 1#16 ≠ 0xFFFF#16 := ⟨⟨⟨⟨rfl, rfl⟩, by decide⟩, ⟨_, rfl⟩⟩, by decide⟩
theorem witness_bcs_faults :
    Meets (.bcs 0x0034#16) { boot 0xFFFE#16 [0x17#8, 0x34#8] with flags := 0x04#8 } ∧ getFlag config ({ boot 0xFFFE#16 [0x17#8, 0x34#8] with flags := 0x04#8 } : State).flags .c = true ∧ ({ boot 0xFFFE#16 [0x17#8, 0x34#8] with flags := 0x04#8 } : State).pc + 1#16 = 0xFFFF#16 := ⟨⟨⟨⟨rfl, rfl⟩, by decide⟩, ⟨_, rfl⟩⟩, by decide⟩
theorem witness_beq_skips :
    Meets (.beq 0x0034#16) (boot 0xFFFE#16 [0x18#8, 0x34#8]) ∧ getFlag config ((boot 0xFFFE#16 [0x18#8, 0x34#8]) : State).flags .z = false := ⟨⟨⟨⟨rfl, rfl⟩, by decide⟩, ⟨_, rfl⟩⟩, by decide⟩
theorem witness_beq_taken :
    Meets (.beq 0x1234#16) { boot 0xFFFF#16 [0x18#8, 0x34#8, 0x12#8] with flags := 0x08#8 } ∧ getFlag config ({ boot 0xFFFF#16 [0x18#8, 0x34#8, 0x12#8] with flags := 0x08#8 } : State).flags .z = true ∧ ({ boot 0xFFFF#16 [0x18#8, 0x34#8, 0x12#8] with flags := 0x08#8 } : State).pc + 1#16 ≠ 0xFFFF#16 := ⟨⟨⟨⟨rfl, rfl⟩, by decide⟩, ⟨_, rfl⟩⟩, by decide⟩
theorem witness_beq_faults :
    Meets (.beq 0x0034#16) { boot 0xFFFE#16 [0x18#8, 0x34#8] with flags := 0x08#8 } ∧ getFlag config ({ boot 0xFFFE#16 [0x18#8, 0x34#8] with flags := 0x08#8 } : State).flags .z = true ∧ ({ boot 0xFFFE#16 [0x18#8, 0x34#8] with flags := 0x08#8 } : State).pc + 1#16 = 0xFFFF#16 := ⟨⟨⟨⟨rfl, rfl⟩, by decide⟩, ⟨_, rfl⟩⟩, by decide⟩
theorem witness_bne :
    Meets (.bne 0x0034#16) (boot 0xFFFE#16 [0x19#8, 0x34#8]) := ⟨⟨⟨rfl, rfl⟩, by decide⟩, ⟨_, rfl⟩⟩
theorem witness_bcc :
    Meets (.bcc 0x0034#16) (boot 0xFFFE#16 [0x1A#8, 0x34#8]) := ⟨⟨⟨rfl, rfl⟩, by decide⟩, ⟨_, rfl⟩⟩
theorem witness_bmi :
    Meets (.bmi 0x0034#16) (boot 0xFFFE#16 [0x1B#8, 0x34#8]) := ⟨⟨⟨rfl, rfl⟩, by decide⟩, ⟨_, rfl⟩⟩
theorem witness_bpl :
    Meets (.bpl 0x0034#16) (boot 0xFFFE#16 [0x1C#8, 0x34#8]) := ⟨⟨⟨rfl, rfl⟩, by decide⟩, ⟨_, rfl⟩⟩
theorem witness_bvs :
    Meets (.bvs 0x0034#16) (boot 0xFFFE#16 [0x1D#8, 0x34#8]) := ⟨⟨⟨rfl, rfl⟩, by decide⟩, ⟨_, rfl⟩⟩
theorem witness_bvc :
    Meets (.bvc 0x0034#16) (boot 0xFFFE#16 [0x1E#8, 0x34#8]) := ⟨⟨⟨rfl, rfl⟩, by decide⟩, ⟨_, rfl⟩⟩
theorem witness_unwired :
    (Instr.bvc 0x0009#16, 0x1E#8) ∈ [(Instr.bne 0x0009#16, 0x19#8), (.bcc 0x0009#16, 0x1A#8),
      (.bmi 0x0009#16, 0x1B#8), (.bpl 0x0009#16, 0x1C#8), (.bvs 0x0009#16, 0x1D#8), (.bvc 0x0009#16, 0x1E#8)] := by decide
theorem witness_instructionsWrite :
    (after (exec .neg (boot 0x0000#16 []))).isSome = true ∧ writesA (.cmpi 0x00#8) = false ∧
      writesB .neg = false ∧ writesVncz .neg = false ∧ Instr.popa ≠ .psha ∧ Instr.inc ≠ .popa := by decide
theorem witness_storesChangeOneByte :
    (after (exec (.stoa 0x0050#16) (boot 0x0000#16 []))).map (·.run) = some .running ∧
      storeAddress (.stoa 0x0050#16) (boot 0x0000#16 []) = some 0x0050#16 ∧
      storeAddress (.ston 0xFFFE#16) (boot 0xFFFE#16 [0x34#8, 0x12#8]) = some 0x1234#16 ∧
      storeAddress .psha State.reset = some 0xFFFF#16 := by decide
theorem witness_faultedInstruction :
    (after (exec (.ston 0xFFFF#16) State.reset)).map (·.run)
      = some (.faulted (.addressOutOfRange 0x10000)) := by decide
theorem witness_stepRunsDecoded :
    Meets (.jmp 0x1234#16) (boot 0xFFFF#16 [0x1F#8, 0x34#8, 0x12#8]) := ⟨⟨⟨rfl, rfl⟩, by decide⟩, ⟨_, rfl⟩⟩
theorem witness_stepIsMicroStepCycle :
    micro.run = .running ∧ micro.stepCounter ≠ 0#4 ∧ State.reset.run = .running := by decide
theorem witness_microStepCount :
    Meets .halt (boot 0x0000#16 [0x22#8]) ∧ (after (exec .halt (boot 0x0000#16 [0x22#8]))).map (·.run)
      = some .halted := ⟨⟨⟨⟨rfl, rfl⟩, by decide⟩, ⟨_, rfl⟩⟩, by decide⟩
theorem witness_undefinedOpcode :
    (boot 0x0000#16 [0x23#8]).Ready ∧ 0x23 ≤ ((boot 0x0000#16 [0x23#8]).mem.read 0x0000#16).toNat := ⟨ready_boot _ _, by decide⟩
theorem witness_stepKeepsInvariant :
    (boot 0xFFFE#16 [0x01#8]).Inv ∧ (after (step (boot 0xFFFE#16 [0x01#8]))).isSome = true := ⟨⟨by decide, by decide, rfl, by decide⟩, by decide⟩
theorem witness_microStepKeepsInvariant :
    ({ boot 0x0000#16 [] with ir := 0x23#8, stepCounter := 2#4 } : State).MicroInv ∧
      (after (microStep { boot 0x0000#16 [] with ir := 0x23#8, stepCounter := 2#4 })).isSome = true := ⟨⟨by decide, by decide, .inr rfl⟩, by decide⟩
theorem witness_runsAreMicroStepRuns :
    (after (Sys2Proof.core.run 2 (boot 0x0000#16 [0x0F#8, 0x22#8]))).isSome = true ∧
      (after ((microCore config referenceRom).run 4 (boot 0x0000#16 [0x0F#8, 0x22#8]))).isSome = true := by
  decide
theorem witness_safeRuns : (boot 0x0000#16 [0x22#8]).Inv ∧ SafeRun 1 (boot 0x0000#16 [0x22#8]) ∧
    (after (Sys2Proof.core.run 1 (boot 0x0000#16 [0x22#8]))).isSome = true := by
  refine ⟨⟨by decide, by decide, rfl, by decide⟩, fun k hk t h r => ?_, by decide⟩
  have h' : (after (Sys2Proof.core.run k (boot 0x0000#16 [0x22#8]))).map (·.run) = some t.run := by
    rw [h]; rfl
  interval_cases k
  · exact fun e => absurd (h'.symm.trans (by decide : _ = some RunState.running)) (by simp [e])
  · exact fun e => absurd (h'.symm.trans (by decide : _ = some RunState.halted)) (by simp [e])
theorem witness_scratchState : (boot 0x0000#16 [0x0F#8]).Ready ∧
    ({ boot 0x0000#16 [0x0F#8] with b := 0x55#8, mar := 0x1234#16, ir := 0x22#8 } : State).Ready ∧
    SameVisible (boot 0x0000#16 [0x0F#8])
      { boot 0x0000#16 [0x0F#8] with b := 0x55#8, mar := 0x1234#16, ir := 0x22#8 } :=
  ⟨ready_boot _ _, ⟨⟨rfl, rfl⟩, by decide⟩, rfl, rfl, rfl, rfl, rfl⟩
theorem witness_storedCode :
    Meets (.stoa 0x0000#16) { boot 0xFFFD#16 [0x03#8] with a := 0x22#8 } ∧
      (boot 0xFFFD#16 [0x03#8]).pc + 1#16 ≠ 0xFFFF#16 :=
  ⟨⟨⟨⟨rfl, rfl⟩, by decide⟩, ⟨_, rfl⟩⟩, by decide⟩

end Sys2Proof.Tests
end

section
/-! PROOFS (00_scope.md). The bits of a control word that is compiled from a micro-instruction: each signal and the ALU
mode are read back (R100 to R102). -/

namespace Sys2Proof.Machine

/-- Every signal has a bit of its own (R100). -/
theorem signalBits_injective : Function.Injective signalBits := by
  intro g g'
  cases g <;> cases g' <;> simp [signalBits]

theorem signalBits_lt (g : Signal) : signalBits g < 32 := by cases g <;> decide

/-- No signal lies in the ALU field, bits 8:5 (R102). -/
theorem signalBits_not_aluField (g : Signal) : signalBits g < 5 ∨ 9 ≤ signalBits g := by
  cases g <;> decide

theorem getLsbD_one_shiftLeft {j k : Nat} (hk : k < 32) : (1#32 <<< j).getLsbD k = decide (k = j) := by
  simp only [BitVec.getLsbD_shiftLeft, BitVec.getLsbD_one]
  by_cases h : k = j <;> simp [h, hk] <;> omega

/-- A bit of a compiled control word is the mode code's, or that of one of the signals. -/
theorem getLsbD_controlWord (m : MicroWord) {k : Nat} (hk : k < 32) :
    (controlWord config m).getLsbD k = (((config.aluCode m.alu).setWidth 32 <<< 5).getLsbD k
      || decide (∃ g ∈ m.signals, k = signalBits g)) := by
  have fold : ∀ (signals : List Signal) (w : ControlWord),
      (signals.foldl (fun w g => w ||| (1#32 <<< config.signalBit g)) w).getLsbD k
        = (w.getLsbD k || decide (∃ g ∈ signals, k = signalBits g)) := by
    intro signals
    induction signals with
    | nil => simp
    | cons g rest ih =>
      intro w
      have hg : (1#32 <<< config.signalBit g).getLsbD k = decide (k = signalBits g) :=
        getLsbD_one_shiftLeft hk
      rw [List.foldl_cons, ih, BitVec.getLsbD_or, hg]
      simp [Bool.or_assoc]
  exact fold m.signals _

/-- A compiled control word asserts the signals of its micro-instruction and no other. -/
@[simp] theorem asserts_controlWord (m : MicroWord) (g : Signal) :
    asserts config (controlWord config m) g = decide (g ∈ m.signals) := by
  have hfield : ((config.aluCode m.alu).setWidth 32 <<< 5).getLsbD (signalBits g) = false := by
    have := signalBits_not_aluField g
    simp only [BitVec.getLsbD_shiftLeft, BitVec.getLsbD_setWidth]
    by_cases h : signalBits g < 5
    · simp [h]
    · simp [BitVec.getLsbD_of_ge (config.aluCode m.alu) (signalBits g - 5) (by omega)]
  have hmem : (∃ g' ∈ m.signals, signalBits g = signalBits g') ↔ g ∈ m.signals :=
    ⟨fun ⟨_, h, e⟩ => signalBits_injective e ▸ h, fun h => ⟨g, h, rfl⟩⟩
  calc asserts config (controlWord config m) g
      = (controlWord config m).getLsbD (signalBits g) := rfl
    _ = decide (g ∈ m.signals) := by
      rw [getLsbD_controlWord m (signalBits_lt g), hfield]; simp [hmem]

theorem aluField_controlWord (m : MicroWord) :
    aluField config (controlWord config m) = config.aluCode m.alu := by
  apply BitVec.eq_of_getLsbD_eq
  intro i hi
  have hsig : ¬ ∃ g ∈ m.signals, 5 + i = signalBits g := by
    rintro ⟨g, -, e⟩
    have := signalBits_not_aluField g
    omega
  calc (aluField config (controlWord config m)).getLsbD i
      = (controlWord config m).getLsbD (5 + i) := by
        simp [aluField, hi]; rfl
    _ = (config.aluCode m.alu).getLsbD i := by
      rw [getLsbD_controlWord m (by omega)]
      simp [hsig, show 5 + i < 32 by omega]

@[simp] theorem aluModeOfCode_controlWord (m : MicroWord) :
    aluModeOfCode config (aluField config (controlWord config m)) = some m.alu := by
  rw [aluField_controlWord, aluModeOfCode_aluCode]

end Sys2Proof.Machine
end

section
/-! PROOFS (00_scope.md). What the engine makes of a micro-instruction of R116, and of a list of them, as functions of
the state; the operand forms and the ends of instructions as the lists `IMM`, `ABS`, `IND` and the words
after them. -/

namespace Sys2Proof.Machine

/-! ### Micro-instructions as state updates -/

/-- The data bus after phases 0 to 3 of a micro-instruction (R135, R137, R138). -/
@[simp] def wordData (w : MicroWord) (s : State) : Byte :=
  (alu config w.alu s.a s.b s.flags).result.getD
    (if .mo ∈ w.signals then s.mem.read s.mar else if .ao ∈ w.signals then s.a else 0xFF#8)

/-- The net delta of four signals of a micro-instruction (R101, R142). -/
@[simp] def wordDelta (w : MicroWord) (inc1 inc2 dec1 dec2 : Signal) : Int :=
  (decide (inc1 ∈ w.signals)).toNat + 2 * (decide (inc2 ∈ w.signals)).toNat
    - (decide (dec1 ∈ w.signals)).toNat - 2 * (decide (dec2 ∈ w.signals)).toNat

/-- The state after a micro-instruction that drives `addr` on the address bus and writes no single byte
of `PC` (R140 to R143). -/
@[simp] def wordEffect (w : MicroWord) (addr : Word) (s : State) : State :=
  let mar := if .mi ∈ w.signals then addr else s.mar
  { s with
    pc := config.registerAdd (if .pci ∈ w.signals then addr else s.pc)
      (wordDelta w .pcinc1 .pcinc2 .pcdec1 .pcdec2)
    mar := config.registerAdd mar (wordDelta w .mainc1 .mainc2 .madec1 .madec2)
    sp := config.registerAdd s.sp (wordDelta w .spinc1 .spinc2 .spdec1 .spdec2)
    ir := if .ii ∈ w.signals then wordData w s else s.ir
    a := if .ai ∈ w.signals then wordData w s else s.a
    b := if .bi ∈ w.signals then wordData w s else s.b
    flags := (alu config w.alu s.a s.b s.flags).flags
    abus := addr
    dbus := wordData w s
    stepCounter := if .sr ∈ w.signals then 0#4 else s.stepCounter + 1#4
    mem := if .mw ∈ w.signals then s.mem.write mar (wordData w s) else s.mem }

@[simp] theorem alu_nop (cfg : Config) (a b flags : Byte) :
    alu cfg .nop a b flags = { result := none, flags := flags } := rfl

/-- Phase 5 of a word that writes no single byte of `PC`. -/
theorem phaseDataIn_eq_of_pc {cw : ControlWord} (s : State) (hh : asserts config cw .pchi = false)
    (hl : asserts config cw .pcli = false) : phaseDataIn config cw s = { s with
      a := if asserts config cw .ai then s.dbus else s.a
      b := if asserts config cw .bi then s.dbus else s.b
      ir := if asserts config cw .ii then s.dbus else s.ir } := by
  cases ha : asserts config cw .ai <;> cases hb : asserts config cw .bi <;>
    cases hi : asserts config cw .ii <;> simp [phaseDataIn, ha, hb, hi, hh, hl]

theorem netDelta_controlWord (w : MicroWord) (inc1 inc2 dec1 dec2 : Signal) :
    netDelta config (controlWord config w) inc1 inc2 dec1 dec2 = wordDelta w inc1 inc2 dec1 dec2 := by
  simp only [netDelta, asserts_controlWord]; rfl

/-- Once phase 1 has driven the address bus, the other phases answer `wordEffect`. -/
theorem applyWord_controlWord {w : MicroWord} {s : State} {addr : Word}
    (hh : .pchi ∉ w.signals) (hl : .pcli ∉ w.signals)
    (h : phaseAddressOut config (controlWord config w) (phaseIdle config s)
      = .ok { phaseIdle config s with abus := addr }) :
    applyWord config (controlWord config w) s = .ok (wordEffect w addr s) := by
  simp only [applyWord, h, phaseDataOut_eq, phaseAlu, aluModeOfCode_controlWord, faultsAtLatch_config]
  rw [phaseDataIn_eq_of_pc _ (by simpa using hh) (by simpa using hl)]
  simp [phaseAddressIn_eq, phaseCount, phaseStep, netDelta_controlWord]

/-! ### Playing micro-programs -/

/-- What the engine does of one micro-instruction: the state it goes on from, or the one it stops in. -/
def playWord (w : MicroWord) (s : State) : Except State State :=
  if Signal.hlt ∈ w.signals then .error (haltEngine s)
  else
    match applyWord config (controlWord config w) s with
    | .ok t => .ok t
    | .error r => .error (raiseFault r s)

/-- Micro-instructions one after another, up to the first that stops the machine. -/
def playWords : List MicroWord → State → Except State State
  | [], s => .ok s
  | w :: ws, s =>
    match playWord w s with
    | .ok t => playWords ws t
    | .error t => .error t

/-- How many micro-steps `playWords` makes, the one that stops the machine included. -/
def playCount : List MicroWord → State → Nat
  | [], _ => 0
  | w :: ws, s =>
    match playWord w s with
    | .ok t => playCount ws t + 1
    | .error _ => 1

/-- The state either way. -/
def endState : Except State State → State
  | .ok t => t
  | .error t => t

@[simp] theorem playWords_nil (s : State) : playWords [] s = .ok s := rfl

@[simp] theorem playWords_cons (w : MicroWord) (ws : List MicroWord) (s : State) :
    playWords (w :: ws) s = match playWord w s with
      | .ok t => playWords ws t
      | .error t => .error t := rfl

/-- One list after another, unless the first stops the machine. -/
theorem playWords_append (xs ys : List MicroWord) (s : State) :
    playWords (xs ++ ys) s = match playWords xs s with
      | .ok t => playWords ys t
      | .error t => .error t := by
  induction xs generalizing s with
  | nil => rfl
  | cons w ws ih =>
    cases h : playWord w s with
    | ok t => simp [h, ih]
    | error t => simp [h]

@[simp] theorem playWord_of_hlt {w : MicroWord} (s : State) (h : .hlt ∈ w.signals) :
    playWord w s = .error (haltEngine s) := by
  simp [playWord, h]

/-- A micro-instruction without `MAO` cannot fault. -/
@[simp] theorem playWord_of_not_mao {w : MicroWord} (s : State) (hhlt : .hlt ∉ w.signals)
    (hh : .pchi ∉ w.signals) (hl : .pcli ∉ w.signals) (hm : .mao ∉ w.signals) :
    playWord w s = .ok (wordEffect w
      (if .spo ∈ w.signals then s.sp else if .pco ∈ w.signals then s.pc else s.abus) s) := by
  have out : phaseAddressOut config (controlWord config w) (phaseIdle config s)
      = .ok { phaseIdle config s with abus :=
          if .spo ∈ w.signals then s.sp else if .pco ∈ w.signals then s.pc else s.abus } := by
    by_cases hp : Signal.pco ∈ w.signals <;> by_cases hs : Signal.spo ∈ w.signals <;>
      simp [phaseAddressOut, phaseIdle, hm, hp, hs]
  simp only [playWord, hhlt, applyWord_controlWord hh hl out, if_false]

/-- A micro-instruction with `MAO` drives the word read at `MAR`, or faults. -/
@[simp] theorem playWord_of_mao {w : MicroWord} (s : State) (hhlt : .hlt ∉ w.signals)
    (hh : .pchi ∉ w.signals) (hl : .pcli ∉ w.signals) (hm : .mao ∈ w.signals)
    (hp : .pco ∉ w.signals) (hs : .spo ∉ w.signals) :
    playWord w s = match s.mem.readWord config s.mar with
      | .ok ea => .ok (wordEffect w ea s)
      | .error r => .error (raiseFault r s) := by
  cases hw : s.mem.readWord config s.mar with
  | ok ea =>
    have out : phaseAddressOut config (controlWord config w) (phaseIdle config s)
        = .ok { phaseIdle config s with abus := ea } := by
      simp [phaseAddressOut, hm, hp, hs, hw]
    simp only [playWord, hhlt, applyWord_controlWord hh hl out, if_false]
  | error r => simp [playWord, applyWord, phaseAddressOut, hhlt, hm, hp, hs, hw]

/-! ### Operand forms and ends of instructions -/

/-- The 16-bit operand of the instruction at `PC` (R71). -/
def operandWord (s : State) : Word :=
  wordOfBytes (s.mem.read (s.pc + 1#16)) (s.mem.read (s.pc + 2#16))

/-- `IMM` leaves `MAR` at the operand. -/
theorem playWords_immWords (op : Byte) (s : State) :
    playWords immWords (afterFetch config op s) = .ok (atOperand config op s) := by
  simp [immWords, atOperand]

/-- The two-byte read of the operand answers it, or fails the range check (R54). -/
theorem readWord_operand (s : State) : s.mem.readWord config (s.pc + 1#16)
    = (checkPair (s.pc + 1#16)).map fun _ => operandWord s := by
  have next : s.pc + 1#16 + 1#16 = s.pc + 2#16 := by rw [BitVec.add_assoc]; rfl
  cases h : checkPair (s.pc + 1#16) <;> simp [Memory.readWord, h, next, operandWord, Except.map]

/-- `ABS` is the absolute form, its fault included. -/
theorem playWords_absWords (op : Byte) (s : State) :
    playWords absWords (afterFetch config op s) = absolute config op (operandWord s) s := by
  rw [absWords, playWords_append, playWords_immWords]
  cases h : checkPair (s.pc + 1#16) <;>
    simp [absolute, atAddress, atOperand, readWord_operand, h, Except.map, BitVec.add_assoc]

/-- `IND` is the indirect form, its faults included. -/
theorem playWords_indWords (op : Byte) (s : State) :
    playWords indWords (afterFetch config op s) = indirect config op (operandWord s) s := by
  rw [indWords, playWords_append, playWords_absWords]
  cases h : checkPair (s.pc + 1#16) with
  | error r => simp [indirect, absolute, h]
  | ok u =>
    cases hw : s.mem.readWord config (operandWord s) <;> simp [indirect, absolute, h, hw, atAddress]

/-- The immediate form, with the operand byte latched into `B`. -/
theorem playWords_immToB (op : Byte) (s : State) :
    playWords immToB (afterFetch config op s)
      = .ok (latchB (immediate config op (s.mem.read (s.pc + 1#16)) s)) := by
  rw [immToB, playWords_append, playWords_immWords]
  simp [immediate, latchB, atOperand, BitVec.add_assoc]

theorem playWord_load (s : State) : playWord loadWord s = .ok (loadA s) := by
  simp [loadWord, loadA, endCycle]

theorem playWord_store (s : State) : playWord storeWord s = .ok (storeA s) := by
  simp [storeWord, storeA, endCycle]

theorem playWord_loadB (s : State) : playWord ⟨.nop, [.mo, .bi]⟩ s = .ok (loadB s) := by
  simp [loadB]

theorem alu_result_of_drivesBus {mode : AluMode} (a b flags : Byte) (h : drivesBus mode = true) :
    ∃ r, (alu config mode a b flags).result = some r := by
  cases mode
  case nop | cmp => cases h
  all_goals exact ⟨_, rfl⟩

theorem playWord_alu {mode : AluMode} (s : State) (h : drivesBus mode = true) :
    playWord (aluWord mode) s = .ok (aluStep config mode s) := by
  obtain ⟨r, hr⟩ := alu_result_of_drivesBus s.a s.b s.flags h
  simp [aluWord, aluStep, endCycle, hr]

theorem playWord_cmp (s : State) : playWord cmpWord s = .ok (aluStep config .cmp s) := by
  have idle : (alu config .cmp s.a s.b s.flags).result = none := rfl
  simp [cmpWord, aluStep, endCycle, idle]

/-- A conditional branch's own program is the branch not taken (R230). -/
theorem playWords_skip (op : Byte) (s : State) :
    .next (endState (playWords [skipWord] (afterFetch config op s))) = skipOperand config op s := by
  simp [skipWord, skipOperand, endCycle, endState, BitVec.add_assoc]

/-- JMP's program is the taken transfer, its fault included (R225). -/
theorem playWords_jump (op : Byte) (s : State) :
    .next (endState (playWords jumpWords (afterFetch config op s)))
      = jumpTo config op (operandWord s) s := by
  rw [jumpWords, playWords_append, playWords_immWords]
  cases h : checkPair (s.pc + 1#16) <;>
    simp [jumpTo, endState, atOperand, endCycle, readWord_operand, h, Except.map]

/-- An operand form, then words that cannot fault. -/
theorem thenDo_eq_playWords {xs ys : List MicroWord} {u : State} {x : Except State State}
    {f : State → State} (hx : playWords xs u = x) (hy : ∀ t, playWords ys t = .ok (f t)) :
    thenDo x f = .next (endState (playWords (xs ++ ys) u)) := by
  subst hx
  rw [playWords_append]
  cases playWords xs u with
  | ok t => simp [thenDo, hy, endState]
  | error t => rfl

end Sys2Proof.Machine
end

section
/-! PROOFS (00_scope.md). `exec` of the instruction at `PC` is its micro-program played from the state after fetch. -/

namespace Sys2Proof.Machine

/-- The instruction a mnemonic's opcode at `PC` makes of the bytes after it (R70, R74). -/
def instrAt (m : Mnemonic) (s : State) : Instr :=
  match rowForm m with
  | .op i => i
  | .imm8 mk => mk (s.mem.read (s.pc + 1#16))
  | .addr16 mk => mk (operandWord s)

/-- What is fetched is the instruction of the opcode and operand bytes at `PC`. -/
theorem State.Fetches.eq_instrAt {s : State} {i : Instr} (h : s.Fetches i) :
    ∃ m, s.mem.read s.pc = config.opcodeByte m ∧ i = instrAt m s := by
  obtain ⟨rest, h⟩ := h
  cases hm : mnemonicOf config (s.mem.read s.pc) with
  | none => simp [decode, decodeWith, fetchBytes, hm] at h
  | some m =>
    refine ⟨m, (opcodeByte_of_mnemonicOf hm).symm, ?_⟩
    cases hr : rowForm m <;>
      simp only [decode, decodeWith, fetchBytes, hm, hr, Option.map_some, Except.ok.injEq,
        Prod.mk.injEq] at h <;>
      simp only [instrAt, hr, ← h.1, operandWord, addressOfBytes_config]

/-- The words step 2 and later hold for a mnemonic under some flags (R110, R111). -/
def executeWords (m : Mnemonic) (flags : Byte) : List MicroWord :=
  config.execute (overrideMnemonic config (flags.extractLsb' 0 4) m)

/-- The flag nibble of a ROM address holds the live flags (R108). -/
theorem getLsbD_flagNibble (flags : Byte) {f : Flag} (hf : f ≠ .i) :
    (flags.extractLsb' 0 4).getLsbD (config.flagBit f) = getFlag config flags f := by
  cases f <;> simp_all [getFlag, config, specConfig, flagBits]

theorem executeWords_bcs (flags : Byte) :
    executeWords .bcs flags = if getFlag config flags .c then jumpWords else [skipWord] := by
  rw [executeWords, overrideMnemonic, getLsbD_flagNibble flags (by decide)]
  cases getFlag config flags .c <;> rfl

theorem executeWords_beq (flags : Byte) :
    executeWords .beq flags = if getFlag config flags .z then jumpWords else [skipWord] := by
  rw [executeWords, overrideMnemonic, getLsbD_flagNibble flags (by decide)]
  cases getFlag config flags .z <;> rfl

/-- A wired branch: the jump's words when its flag is set, else the word that skips the operand. -/
theorem branch_eq_playWords (taken : Bool) (op : Byte) (s : State) :
    (if taken then jumpTo config op (operandWord s) s else skipOperand config op s)
      = .next (endState (playWords (if taken then jumpWords else [skipWord]) (afterFetch config op s))) := by
  cases taken
  · exact (playWords_skip op s).symm
  · exact (playWords_jump op s).symm

theorem aluImmediate_eq_playWords {mode : AluMode} {w : MicroWord} (op : Byte) (s : State)
    (hw : ∀ t, playWord w t = .ok (aluStep config mode t)) :
    aluImmediate config mode op (s.mem.read (s.pc + 1#16)) s
      = .next (endState (playWords (immToB ++ [w]) (afterFetch config op s))) := by
  simp [playWords_append, playWords_immToB, hw, aluImmediate, endState]

theorem aluAbsolute_eq_playWords {mode : AluMode} {w : MicroWord} (op : Byte) (s : State)
    (hw : ∀ t, playWord w t = .ok (aluStep config mode t)) :
    aluAbsolute config mode op (operandWord s) s
      = .next (endState (playWords (absToB ++ [w]) (afterFetch config op s))) := by
  rw [absToB, List.append_assoc]
  exact thenDo_eq_playWords (playWords_absWords op s) fun t => by
    simp only [List.cons_append, List.nil_append, playWords_cons, playWord_loadB, hw, playWords_nil]

theorem aluAccumulator_eq_playWords {mode : AluMode} (op : Byte) (s : State)
    (h : drivesBus mode = true) :
    aluAccumulator config mode op s
      = .next (endState (playWords [aluWord mode] (afterFetch config op s))) := by
  simp only [playWords_cons, playWords_nil, playWord_alu _ h]
  rfl

theorem execLodi_eq_playWords (s : State) : execLodi (s.mem.read (s.pc + 1#16)) s
    = .next (endState (playWords (microPrograms .lodi) (afterFetch config (opcode (.lodi 0#8)) s))) := by
  rw [microPrograms, playWords_append, playWords_immWords]
  simp [execLodi, immediate, atOperand, endCycle, endState, BitVec.add_assoc]
  rfl

theorem execPsha_eq_playWords (s : State) : execPsha s
    = .next (endState (playWords (microPrograms .psha) (afterFetch config (opcode .psha) s))) := by
  simp [microPrograms, execPsha, playWord_store, storeA, endCycle, endState]

theorem execPopa_eq_playWords (s : State) : execPopa s
    = .next (endState (playWords (microPrograms .popa) (afterFetch config (opcode .popa) s))) := by
  simp [microPrograms, execPopa, loadA, endCycle, endState]

/-- `exec` is what the micro-program does, faults and HALT included (R116, R144). -/
theorem exec_instrAt (m : Mnemonic) (s : State) : exec (instrAt m s) s
    = .next (endState (playWords (executeWords m s.flags) (afterFetch config (config.opcodeByte m) s))) := by
  have load : ∀ t, playWords [loadWord] t = .ok (loadA t) := fun t => by simp [playWord_load]
  have store : ∀ t, playWords [storeWord] t = .ok (storeA t) := fun t => by simp [playWord_store]
  cases m
  case lodi => exact execLodi_eq_playWords s
  case loda => exact thenDo_eq_playWords (playWords_absWords _ s) load
  case lodn => exact thenDo_eq_playWords (playWords_indWords _ s) load
  case stoa => exact thenDo_eq_playWords (playWords_absWords _ s) store
  case ston => exact thenDo_eq_playWords (playWords_indWords _ s) store
  case cmpi => exact aluImmediate_eq_playWords _ s playWord_cmp
  case cmpa => exact aluAbsolute_eq_playWords _ s playWord_cmp
  case addi | subi | adci | sbci | andi | ori =>
    exact aluImmediate_eq_playWords _ s fun t => playWord_alu t rfl
  case adda | suba | adca | sbca | anda | ora =>
    exact aluAbsolute_eq_playWords _ s fun t => playWord_alu t rfl
  case inc | dec | neg | not => exact aluAccumulator_eq_playWords _ s rfl
  case bcs => rw [executeWords_bcs]; exact branch_eq_playWords _ _ s
  case beq => rw [executeWords_beq]; exact branch_eq_playWords _ _ s
  case bne | bcc | bmi | bpl | bvs | bvc => exact (playWords_skip _ s).symm
  case jmp => exact (playWords_jump _ s).symm
  case psha => exact execPsha_eq_playWords s
  case popa => exact execPopa_eq_playWords s
  case halt => rfl

end Sys2Proof.Machine
end

section
/-! PROOFS (00_scope.md). Instruction cycles of the reference machine (R144): every one ends within sixteen micro-steps,
its end is determined, and from step 2 on the ROM plays the execute words of the opcode. -/

namespace Sys2Proof.Machine

/-! ### One micro-step -/

@[simp] theorem phaseDataIn_run (cfg : Config) (cw : ControlWord) (s : State) :
    (phaseDataIn cfg cw s).run = s.run := by rw [phaseDataIn_eq]
@[simp] theorem phaseDataIn_stepCounter (cfg : Config) (cw : ControlWord) (s : State) :
    (phaseDataIn cfg cw s).stepCounter = s.stepCounter := by
  rw [phaseDataIn_eq]
@[simp] theorem phaseDataIn_flags (cfg : Config) (cw : ControlWord) (s : State) :
    (phaseDataIn cfg cw s).flags = s.flags := by rw [phaseDataIn_eq]
@[simp] theorem phaseDataIn_ir (cfg : Config) (cw : ControlWord) (s : State) :
    (phaseDataIn cfg cw s).ir = if asserts cfg cw .ii then s.dbus else s.ir := by
  rw [phaseDataIn_eq]

/-- A word that completes keeps `RUN`, resets or advances `STEP`, and keeps `IR` without `II` and `FLAGS` in
the mode NOP (R138, R141, R143). -/
theorem applyWord_frame {cfg : Config} {cw : ControlWord} {s t : State} (h : applyWord cfg cw s = .ok t) :
    t.run = s.run ∧ t.stepCounter = (if asserts cfg cw .sr then 0#4 else s.stepCounter + 1#4) ∧
      (asserts cfg cw .ii = false → t.ir = s.ir) ∧
      (aluModeOfCode cfg (aluField cfg cw) = some .nop → t.flags = s.flags) := by
  obtain ⟨s1, s3, h1, h3, -, e⟩ | ⟨r, e⟩ := applyWord_cases cfg cw s
  · obtain ⟨addr, e1⟩ | ⟨-, -, e1⟩ := phaseAddressOut_cases cfg cw (phaseIdle cfg s)
    · obtain ⟨mode, hm, e3⟩ | ⟨-, e3⟩ := phaseAlu_cases cfg cw (phaseDataOut cfg cw s1)
      · obtain rfl := Except.ok.inj (e1.symm.trans h1)
        obtain rfl := Except.ok.inj (e3.symm.trans h3)
        obtain rfl := Except.ok.inj (e.symm.trans h)
        simp +contextual [hm, phaseAddressIn_eq, phaseDataOut_eq]
      · cases e3.symm.trans h3
    · cases e1.symm.trans h1
  · cases e.symm.trans h

/-- After a running machine's micro-step either it has stopped, or `STEP` is 0 or one more. -/
theorem microStepRunning_stepCounter (cfg : Config) (rom : Rom) (s : State) :
    (microStepRunning cfg rom s).run ≠ .running ∨ (microStepRunning cfg rom s).stepCounter = 0#4 ∨
      (microStepRunning cfg rom s).stepCounter = s.stepCounter + 1#4 := by
  obtain ⟨-, e⟩ | ⟨-, -, e⟩ | ⟨-, -, t, ht, e⟩ | ⟨-, -, r, -, e⟩ := microStepRunning_cases cfg rom s
  · exact .inl (by simp [e])
  · exact .inl (by simp [e])
  · obtain ⟨-, hstep, -⟩ := applyWord_frame ht
    rw [e, hstep]
    cases asserts cfg (rom (romAddress s)) .sr
    · exact .inr (.inr rfl)
    · exact .inr (.inl rfl)
  · exact .inl (by simp [e])

/-! ### Cycles -/

/-- The instruction cycle is over: the machine has stopped, or is at a boundary (R144). -/
def State.EndsCycle (t : State) : Prop := t.run = .running → t.stepCounter = 0#4

theorem cycleTakes_one {s : State} (hs : s.run = .running) :
    CycleTakes 1 s (microStepRunning config referenceRom s) :=
  ⟨by rw [microRunWith_succ _ _ _ hs, microRunWith_zero], fun k h0 h1 => by omega⟩

/-- A micro-step inside a cycle, then the rest of the cycle. -/
theorem CycleTakes.cons {n : Nat} {s u t : State} (hs : s.run = .running)
    (e : microStepRunning config referenceRom s = u) (hu : u.run = .running)
    (hstep : u.stepCounter ≠ 0#4) (h : CycleTakes n u t) : CycleTakes (n + 1) s t := by
  obtain ⟨hrun, hmid⟩ := h
  refine ⟨by rw [microRunWith_succ _ _ _ hs, e, hrun], fun k h0 hk => ?_⟩
  obtain ⟨j, rfl⟩ : ∃ j, k = j + 1 := ⟨k - 1, by omega⟩
  rw [microRunWith_succ _ _ _ hs, e]
  rcases Nat.eq_zero_or_pos j with rfl | hj
  · exact ⟨u, rfl, hu, hstep⟩
  · exact hmid j hj (by omega)

/-- From a state there is one cycle: its length is determined, and so is its end. -/
theorem CycleTakes.unique {m n : Nat} {s t u : State} (ht : CycleTakes m s t) (hu : CycleTakes n s u)
    (et : t.EndsCycle) (eu : u.EndsCycle) (hm : 0 < m) (hn : 0 < n) : t = u := by
  have notInside : ∀ {a b x y}, CycleTakes a s x → CycleTakes b s y → x.EndsCycle → 0 < a → ¬ a < b := by
    intro a b x y hx hy ex ha hab
    obtain ⟨v, hv, hrun, hstep⟩ := hy.2 a ha hab
    obtain rfl := Host.Outcome.next.inj (hx.1.symm.trans hv)
    exact hstep (ex hrun)
  have hmn : m = n := by
    have := notInside ht hu et hm
    have := notInside hu ht eu hn
    omega
  subst hmn
  exact Host.Outcome.next.inj (ht.1.symm.trans hu.1)

/-- `STEP` has at most `16 - STEP` values to pass before it is 0 again, so that many micro-steps end the
cycle. -/
theorem finishCycleWith_cycle (fuel : Nat) : ∀ s : State, s.run = .running →
    16 ≤ fuel + s.stepCounter.toNat →
    ∃ n, 1 ≤ n ∧ n ≤ fuel ∧ CycleTakes n s (finishCycleWith config referenceRom fuel s) ∧
      (finishCycleWith config referenceRom fuel s).EndsCycle := by
  induction fuel with
  | zero => intro s _ h; omega
  | succ fuel ih =>
    intro s hs hfuel
    rw [finishCycleWith]
    split
    · next hgo =>
      obtain ⟨hrun, hne⟩ := hgo
      have hfuel' : 16 ≤ fuel + (microStepRunning config referenceRom s).stepCounter.toNat := by
        obtain h | h | h := microStepRunning_stepCounter config referenceRom s
        · exact absurd hrun h
        · exact absurd h hne
        · rw [h] at hne ⊢; bv_omega
      obtain ⟨n, -, hn, hc, he⟩ := ih _ hrun hfuel'
      exact ⟨n + 1, by omega, by omega, hc.cons hs rfl hrun hne, he⟩
    · next hstop =>
      exact ⟨1, le_rfl, by omega, cycleTakes_one hs, fun hr => by simpa [hr] using hstop⟩

theorem finishCycle_cycle {s : State} (hs : s.run = .running) :
    ∃ n, 1 ≤ n ∧ n ≤ 16 ∧ CycleTakes n s (finishCycle s) ∧ (finishCycle s).EndsCycle :=
  finishCycleWith_cycle 16 s hs (by omega)

/-- Whatever ends the cycle is what `finishCycle` answers. -/
theorem finishCycle_eq {n : Nat} {s t : State} (hs : s.run = .running) (hn : 0 < n)
    (h : CycleTakes n s t) (ht : t.EndsCycle) : finishCycle s = t := by
  obtain ⟨k, hk, -, hc, he⟩ := finishCycle_cycle hs
  exact hc.unique h he ht hk hn

/-! ### The ROM plays the execute words -/

/-- The cycle goes on after this word, with the same `IR` and `FLAGS`. -/
def continues (w : MicroWord) : Bool :=
  w.alu == .nop && !w.signals.contains .sr && !w.signals.contains .ii

/-- Only the last word of a program ends the cycle. -/
def endsAtLast : List MicroWord → Bool
  | [] => false
  | [w] => w.signals.contains .sr || w.signals.contains .hlt
  | w :: ws => continues w && endsAtLast ws

theorem endsAtLast_executeWords (m : Mnemonic) (flags : Byte) :
    endsAtLast (executeWords m flags) = true := by
  have h : ∀ m, endsAtLast (microPrograms m) = true := by intro m; cases m <;> rfl
  exact h _

theorem length_executeWords (m : Mnemonic) (flags : Byte) : (executeWords m flags).length ≤ 4 := by
  have h : ∀ m, (microPrograms m).length ≤ 4 := by intro m; cases m <;> decide
  exact h _

/-- The machine runs inside the cycle of `m`'s opcode and the ROM holds `ws` from its step on. -/
structure State.AtWords (m : Mnemonic) (ws : List MicroWord) (s : State) : Prop where
  running : s.run = .running
  ir : s.ir = config.opcodeByte m
  rows : ∃ played, played ++ ws = executeWords m s.flags ∧ s.stepCounter.toNat = played.length + 2

/-- The look-up of a defined opcode reads its micro-program at `STEP` (R108, R110). -/
theorem referenceRom_romAddress {s : State} {m : Mnemonic} (h : mnemonicOf config s.ir = some m) :
    referenceRom (romAddress s) = (microProgram config
      (overrideMnemonic config (s.flags.extractLsb' 0 4) m)).getD s.stepCounter.toNat 0 := by
  rw [romAddress, referenceRom_romAddressOf, compiledWord, h]

theorem State.AtWords.referenceRom_eq {m : Mnemonic} {w : MicroWord} {ws : List MicroWord} {s : State}
    (h : s.AtWords m (w :: ws)) : referenceRom (romAddress s) = controlWord config w := by
  obtain ⟨played, hp, hstep⟩ := h.rows
  rw [referenceRom_romAddress (m := m) (by rw [h.ir, mnemonicOf_opcodeByte]), hstep, microProgram]
  rw [executeWords] at hp
  simp [← hp]

/-- Where the ROM holds a micro-instruction, a micro-step plays it. -/
theorem microStepRunning_eq_playWord {w : MicroWord} {s : State} (hd : definedOpcode config s.ir = true)
    (hw : referenceRom (romAddress s) = controlWord config w) :
    microStepRunning config referenceRom s = endState (playWord w s) := by
  rw [microStepRunning, lookUp, if_pos hd, hw]
  by_cases hh : Signal.hlt ∈ w.signals
  · simp [hh, endState]
  · cases ha : applyWord config (controlWord config w) s <;> simp [playWord, hh, ha, endState]

theorem run_of_playWord_error {w : MicroWord} {s t : State} (h : playWord w s = .error t) :
    t.run ≠ .running := by
  rw [playWord] at h
  split at h
  · obtain rfl := Except.error.inj h; simp
  · split at h
    · cases h
    · obtain rfl := Except.error.inj h; simp

theorem applyWord_of_playWord_ok {w : MicroWord} {s t : State} (h : playWord w s = .ok t) :
    .hlt ∉ w.signals ∧ applyWord config (controlWord config w) s = .ok t := by
  rw [playWord] at h
  split at h
  · cases h
  · next hh =>
    split at h
    · next ha => exact ⟨hh, ha.trans (congrArg _ (Except.ok.inj h))⟩
    · cases h

/-- A word that lets the cycle go on leaves the machine at the next one. -/
theorem State.AtWords.next {m : Mnemonic} {w : MicroWord} {ws : List MicroWord} {s t : State}
    (h : s.AtWords m (w :: ws)) (hw : continues w = true) (ht : playWord w s = .ok t) :
    t.AtWords m ws ∧ t.stepCounter ≠ 0#4 := by
  obtain ⟨⟨halu, hsr⟩, hii⟩ : (w.alu = .nop ∧ .sr ∉ w.signals) ∧ .ii ∉ w.signals := by
    simpa [continues] using hw
  obtain ⟨hrun, hstep, hir, hflags⟩ := applyWord_frame (applyWord_of_playWord_ok ht).2
  obtain ⟨played, hp, hpos⟩ := h.rows
  have hshort : played.length + 1 ≤ 4 :=
    calc played.length + 1 ≤ (played ++ w :: ws).length := by simp
      _ ≤ 4 := hp ▸ length_executeWords m s.flags
  have hnext : t.stepCounter.toNat = (played ++ [w]).length + 2 := by
    rw [hstep]; simp [hsr]; omega
  refine ⟨⟨hrun.trans h.running, (hir (by simp [hii])).trans h.ir, played ++ [w], ?_, hnext⟩, ?_⟩
  · simp [hp, hflags (by simp [halu])]
  · rintro h0
    simp [h0] at hnext

/-- From step 2 on, the rest of the cycle is the words the ROM holds, played (R110, R144). -/
theorem State.AtWords.cycleTakes {m : Mnemonic} (ws : List MicroWord) : ∀ s : State, s.AtWords m ws →
    endsAtLast ws = true →
      CycleTakes (playCount ws s) s (endState (playWords ws s)) ∧
        (endState (playWords ws s)).EndsCycle := by
  induction ws with
  | nil => intro s _ h; cases h
  | cons w ws ih =>
    intro s hs hlast
    have hd : definedOpcode config s.ir = true := by
      rw [hs.ir, definedOpcode, mnemonicOf_opcodeByte]; rfl
    have hstep := microStepRunning_eq_playWord hd hs.referenceRom_eq
    have one := cycleTakes_one hs.running
    rw [playCount, playWords_cons]
    cases hw : playWord w s with
    | error t =>
      rw [hstep, hw] at one
      exact ⟨one, fun h => absurd h (run_of_playWord_error hw)⟩
    | ok t =>
      cases ws with
      | nil =>
        rw [hstep, hw] at one
        refine ⟨one, fun _ => ?_⟩
        obtain ⟨hh, ha⟩ := applyWord_of_playWord_ok hw
        obtain ⟨-, h0, -⟩ := applyWord_frame ha
        have hsr : .sr ∈ w.signals := by simpa [endsAtLast, hh] using hlast
        simpa [hsr, endState] using h0
      | cons w' ws' =>
        obtain ⟨hgo, hlast'⟩ : continues w = true ∧ endsAtLast (w' :: ws') = true := by
          simpa [endsAtLast] using hlast
        obtain ⟨hnext, hne⟩ := hs.next hgo hw
        obtain ⟨hc, he⟩ := ih t hnext hlast'
        exact ⟨hc.cons hs.running (by rw [hstep, hw]; rfl) hnext.running hne, he⟩

end Sys2Proof.Machine
end

section
/-! PROOFS (00_scope.md). A step is one instruction cycle of the micro-step machine (R5). -/

namespace Sys2Proof.Machine

theorem exists_mnemonicOf {b : Byte} (h : definedOpcode config b = true) :
    ∃ m, mnemonicOf config b = some m := Option.isSome_iff_exists.mp h

/-- The state after FETCH, between the two micro-steps of the fetch (R146). -/
def halfFetched (s : State) : State :=
  { s with mar := s.pc, abus := s.pc, dbus := 0xFF#8, stepCounter := 1#4 }

/-- FETCH (R105, R146). -/
theorem microStep_fetch0 {s : State} (hs : s.Ready) :
    microStepRunning config referenceRom s = halfFetched s := by
  obtain ⟨⟨-, hstep⟩, hd⟩ := hs
  obtain ⟨m, hm⟩ := exists_mnemonicOf hd
  have row : referenceRom (romAddress s) = controlWord config ⟨.nop, [.pco, .mi]⟩ := by
    rw [referenceRom_romAddress hm, hstep]; rfl
  rw [microStepRunning_eq_playWord hd row]
  simp [endState, halfFetched, hstep]

/-- DECODE (R105, R146). -/
theorem microStep_fetch1 {s : State} (hd : definedOpcode config s.ir = true) :
    microStepRunning config referenceRom (halfFetched s) = afterFetch config (s.mem.read s.pc) s := by
  obtain ⟨m, hm⟩ := exists_mnemonicOf hd
  have row : referenceRom (romAddress (halfFetched s))
      = controlWord config ⟨.nop, [.mo, .ii, .pcinc1]⟩ := by
    rw [referenceRom_romAddress (s := halfFetched s) hm]; rfl
  rw [microStepRunning_eq_playWord (s := halfFetched s) hd row]
  simp [endState, halfFetched, afterFetch]

/-- A cycle that begins at a boundary fetches in its first two micro-steps (R146). -/
theorem CycleTakes.fetch {n : Nat} {s t : State} (hs : s.Ready)
    (h : CycleTakes n (afterFetch config (s.mem.read s.pc) s) t) : CycleTakes (n + 2) s t :=
  (h.cons (s := halfFetched s) hs.1.1 (microStep_fetch1 hs.2) hs.1.1 (by simp)).cons hs.1.1
    (microStep_fetch0 hs) hs.1.1 (by simp [halfFetched])

/-- The micro-steps of the cycle that fetches `m`'s opcode, a halting or faulting one included. -/
def cycleLength (m : Mnemonic) (s : State) : Nat :=
  playCount (executeWords m s.flags) (afterFetch config (config.opcodeByte m) s) + 2

/-- Where the machine is ready to fetch `i`, what `exec i` answers is the end of the cycle. -/
theorem exec_cycleTakes {s : State} {i : Instr} (hs : s.Ready) (hi : s.Fetches i) :
    ∃ m t, i = instrAt m s ∧ exec i s = .next t ∧ CycleTakes (cycleLength m s) s t ∧ t.EndsCycle := by
  obtain ⟨m, hop, rfl⟩ := hi.eq_instrAt
  have start : (afterFetch config (config.opcodeByte m) s).AtWords m (executeWords m s.flags) :=
    ⟨hs.1.1, rfl, [], rfl, rfl⟩
  obtain ⟨hc, he⟩ := start.cycleTakes _ _ (endsAtLast_executeWords m s.flags)
  exact ⟨m, _, rfl, exec_instrAt m s, CycleTakes.fetch hs (by rwa [hop]), he⟩

/-- A look-up with an undefined byte in `IR` faults (R119). -/
theorem microStep_undefined {s : State} (h : definedOpcode config s.ir = false) :
    microStepRunning config referenceRom s = raiseFault (.undefinedOpcode s.ir) s := by
  simp [microStepRunning, lookUp, h]

/-- An undefined byte that is fetched faults the third micro-step (R265). -/
theorem cycleTakes_undefinedFetched {s : State} (hs : s.Ready)
    (h : definedOpcode config (s.mem.read s.pc) = false) :
    CycleTakes 3 s (raiseFault (.undefinedOpcode (s.mem.read s.pc))
      (afterFetch config (s.mem.read s.pc) s)) := by
  have third := cycleTakes_one (s := afterFetch config (s.mem.read s.pc) s) hs.1.1
  rw [microStep_undefined (by exact h)] at third
  exact CycleTakes.fetch hs third

/-- A running machine's step is the rest of the instruction cycle: from inside one by definition, at a
boundary by what `exec` and the two fetch faults answer. -/
theorem step_eq_finishCycle {s : State} (hs : s.run = .running) : step s = .next (finishCycle s) := by
  obtain ⟨hr, -⟩ | ⟨r, hr, -⟩ | ⟨-, h0, i, hf, e⟩ | ⟨-, h0, t, hf, e⟩ | ⟨-, -, e⟩ := step_cases s
  · cases hr.symm.trans hs
  · cases hr.symm.trans hs
  · obtain ⟨j, rest, hd, hdec, hf'⟩ | ⟨-, -, hf'⟩ | ⟨-, hf'⟩ := fetchInstr_cases s
    · obtain rfl := Except.ok.inj (hf'.symm.trans hf)
      obtain ⟨m, t, -, ht, hc, he⟩ := exec_cycleTakes ⟨⟨hs, h0⟩, hd⟩ ⟨rest, hdec⟩
      rw [e, ht, finishCycle_eq hs (Nat.succ_pos _) hc he]
    · cases hf'.symm.trans hf
    · cases hf'.symm.trans hf
  · obtain ⟨j, rest, hd, hdec, hf'⟩ | ⟨hd, hu, hf'⟩ | ⟨hu, hf'⟩ := fetchInstr_cases s
    · cases hf'.symm.trans hf
    · obtain rfl := Except.error.inj (hf'.symm.trans hf)
      rw [e, finishCycle_eq hs (Nat.succ_pos _) (cycleTakes_undefinedFetched ⟨⟨hs, h0⟩, hd⟩ hu)
        fun hr => by cases hr]
    · obtain rfl := Except.error.inj (hf'.symm.trans hf)
      have hc := cycleTakes_one hs
      rw [microStep_undefined hu] at hc
      rw [e, finishCycle_eq hs Nat.one_pos hc fun hr => by cases hr]
  · exact e

/-- Settles O49: a running machine's step is `finishCycle`, whose micro-steps end the cycle. -/
theorem stepIsTheMicroStepCycle : Obligations.StepIsTheMicroStepCycle := by
  intro s
  refine ⟨?_, fun hs => ?_⟩
  · cases hs : s.run with
    | running => rw [step_eq_finishCycle hs, cycleWith, hs]; rfl
    | halted => simp [step, cycleWith, hs]
    | faulted r => simp [step, cycleWith, hs]
  · obtain ⟨n, h1, h16, hc, he⟩ := finishCycle_cycle hs
    exact ⟨n, _, h1, h16, step_eq_finishCycle hs, hc, he⟩

end Sys2Proof.Machine
end

section
/-! PROOFS (00_scope.md). Runs of steps and runs of micro-steps (R5, R130). -/

namespace Sys2Proof.Machine

/-- A run answers a next state exactly when its first step does and the rest of the run does. -/
theorem run_succ_next {M : Host.Core} {n : Nat} {s t : M.State} :
    M.run (n + 1) s = .next t ↔ ∃ u, M.step s = .next u ∧ M.run n u = .next t := by
  rw [Host.Core.run]
  cases M.step s <;> simp

/-- A run goes on from where its first part ends. -/
theorem run_add {M : Host.Core} {m n : Nat} {s u : M.State} (h : M.run m s = .next u) :
    M.run (m + n) s = M.run n u := by
  induction m generalizing s with
  | zero => rw [Nat.zero_add, Host.Outcome.next.inj h]
  | succ m ih =>
    obtain ⟨v, hv, hrun⟩ := run_succ_next.mp h
    rw [Nat.add_right_comm, Host.Core.run, hv]
    exact ih hrun

/-- Only a running machine steps (R40). -/
theorem running_of_step {s t : State} (h : step s = .next t) : s.run = .running := by
  obtain ⟨-, e⟩ | ⟨r, -, e⟩ | ⟨hr, -⟩ | ⟨hr, -⟩ | ⟨hr, -⟩ := step_cases s
  · cases e.symm.trans h
  · cases e.symm.trans h
  all_goals exact hr

/-- A running machine's step is between 1 and 16 micro-steps of the micro-step machine. -/
theorem step_microRun {s : State} (hs : s.run = .running) : ∃ n t, 1 ≤ n ∧ n ≤ 16 ∧
    core.step s = .next t ∧ (microCore config referenceRom).run n s = .next t := by
  obtain ⟨n, h1, h16, hc, -⟩ := finishCycle_cycle hs
  exact ⟨n, _, h1, h16, step_eq_finishCycle hs, hc.1⟩

/-- Every run of steps is a run of micro-steps, cycle by cycle. -/
theorem microRun_of_coreRun (n : Nat) : ∀ s t : State, core.run n s = .next t →
    ∃ m, n ≤ m ∧ m ≤ 16 * n ∧ (microCore config referenceRom).run m s = .next t := by
  induction n with
  | zero => exact fun s t h => ⟨0, le_rfl, le_rfl, h⟩
  | succ n ih =>
    intro s t h
    obtain ⟨u, hstep, hrest⟩ := run_succ_next.mp h
    obtain ⟨k, u', h1, h16, hstep', hk⟩ := step_microRun (running_of_step hstep)
    obtain rfl := Host.Outcome.next.inj (hstep'.symm.trans hstep)
    obtain ⟨m, hn, hm, hrun⟩ := ih u' t hrest
    exact ⟨k + m, by omega, by omega, (run_add hk).trans hrun⟩

/-- A run of micro-steps goes through whole cycles, each one a step; the cycle it stops inside of is ended by
the micro-steps that are left of it. -/
theorem coreRun_of_microRun (m : Nat) : ∀ s u : State,
    (microCore config referenceRom).run m s = .next u →
    ∃ n k t, n ≤ m + k ∧ k ≤ 15 ∧ (microCore config referenceRom).run k u = .next t ∧
      core.run n s = .next t := by
  induction m using Nat.strong_induction_on with
  | _ m ih =>
    intro s u h
    rcases Nat.eq_zero_or_pos m with rfl | hm
    · obtain rfl := Host.Outcome.next.inj h
      exact ⟨0, 0, s, le_rfl, by omega, rfl, rfl⟩
    have hs : s.run = .running := by
      by_contra hs
      exact hm.ne' (microRunWith_stopped hs h).1
    obtain ⟨j, t, h1, h16, hstep, hj⟩ := step_microRun hs
    rcases le_or_gt j m with hjm | hmj
    · obtain ⟨r, rfl⟩ := Nat.exists_eq_add_of_le hjm
      obtain ⟨n, k, v, hn, hk, hmicro, hcore⟩ := ih r (by omega) t u ((run_add hj).symm.trans h)
      exact ⟨n + 1, k, v, by omega, hk, hmicro, run_succ_next.mpr ⟨t, hstep, hcore⟩⟩
    · obtain ⟨k, rfl⟩ := Nat.exists_eq_add_of_le hmj.le
      exact ⟨1, k, t, by omega, by omega, (run_add h).symm.trans hj,
        run_succ_next.mpr ⟨t, hstep, rfl⟩⟩

/-- Settles O60: the two directions, each by induction on the run. -/
theorem runsAreMicroStepRuns : Obligations.RunsAreMicroStepRuns :=
  ⟨microRun_of_coreRun, coreRun_of_microRun⟩

end Sys2Proof.Machine
end

section
/-! PROOFS (00_scope.md). Every step keeps `State.Inv`, so a safe run ends at a boundary or at HALT (R12, R252). -/

namespace Sys2Proof.Machine

/-! ### Bits 7:4 of `FLAGS` -/

/-- Writing one of `V N C Z` leaves bits 7:4 of `FLAGS` (R36). -/
theorem setFlag_high (flags : Byte) {f : Flag} (x : Bool) (hf : f ≠ .i) :
    (setFlag config flags f x).extractLsb' 4 4 = flags.extractLsb' 4 4 := by
  have and_ones : ∀ x : BitVec 4, x &&& 15#4 = x := by decide
  cases f <;> cases x <;> simp_all [setFlag, config, specConfig, flagBits,
    BitVec.extractLsb'_or, BitVec.extractLsb'_and]

theorem writeVncz_high (flags : Byte) (f : Vncz) :
    (writeVncz config flags f).extractLsb' 4 4 = flags.extractLsb' 4 4 := by
  simp [writeVncz, setFlag_high]

/-- No ALU mode writes bits 7:4 of `FLAGS` (R36, R173). -/
theorem alu_flags_high (mode : AluMode) (a b flags : Byte) :
    (alu config mode a b flags).flags.extractLsb' 4 4 = flags.extractLsb' 4 4 := by
  cases mode <;> simp [alu, arithmeticOut, writeVncz_high, setFlag_high]

/-! ### Inside a cycle, and at its end -/

/-- What holds between the micro-steps of a fetched instruction, in a run that meets `State.Inv`. -/
def State.BusyInv (s : State) : Prop :=
  s.run = .running ∧ definedOpcode config s.ir = true ∧ s.mem.wf = true ∧ s.flags.extractLsb' 4 4 = 0#4

/-- A running machine that meets the invariant is ready to fetch. -/
theorem State.Inv.ready {s : State} (h : s.Inv) (hs : s.run = .running) : s.Ready := by
  obtain ⟨-, -, hrun⟩ := h
  simp only [State.RunInv, hs] at hrun
  exact ⟨⟨hs, hrun.1⟩, hrun.2⟩

theorem busyInv_afterFetch {s : State} (h : s.Inv) (hs : s.run = .running) (i : Instr) :
    (afterFetch config (opcode i) s).BusyInv :=
  ⟨hs, by simp [opcode, definedOpcode], h.1, h.2.1⟩

/-- A cycle that ends inside `BusyInv` leaves the invariant. -/
theorem inv_endCycle {t : State} (h : t.BusyInv) : (endCycle t).Inv := by
  obtain ⟨hrun, hir, hmem, hflags⟩ := h
  exact ⟨hmem, hflags, by simp [State.RunInv, hrun, hir]⟩

theorem inv_loadA {t : State} (h : t.BusyInv) : (loadA t).Inv := inv_endCycle h

theorem inv_storeA {t : State} (h : t.BusyInv) : (storeA t).Inv := by
  obtain ⟨hrun, hir, hmem, hflags⟩ := h
  exact inv_endCycle ⟨hrun, hir, wf_write _ _ hmem, hflags⟩

theorem inv_aluStep {t : State} (mode : AluMode) (h : t.BusyInv) : (aluStep config mode t).Inv := by
  obtain ⟨hrun, hir, hmem, hflags⟩ := h
  exact inv_endCycle ⟨hrun, hir, hmem, (alu_flags_high _ _ _ _).trans hflags⟩

/-- A two-byte read at 0xFFFF in micro-step 3 or 4 (R266). -/
theorem inv_addressFault {t : State} (h : t.BusyInv) (hmar : t.mar = 0xFFFF#16)
    (hstep : t.stepCounter = 3#4 ∨ t.stepCounter = 4#4) :
    (raiseFault (.addressOutOfRange 0x10000) t).Inv := by
  obtain ⟨-, -, hmem, hflags⟩ := h
  exact ⟨hmem, hflags, rfl, hmar, hstep⟩

section
variable {op : Byte} {s : State} (h : (afterFetch config op s).BusyInv)
include h

theorem inv_operandFault (hpc : config.registerAdd s.pc 1 = 0xFFFF#16) :
    (raiseFault (.addressOutOfRange 0x10000) (atOperand config op s)).Inv :=
  inv_addressFault (t := atOperand config op s) h hpc (.inl rfl)

theorem inv_thenDo_absolute {addr : Word} {f : State → State} {t : State}
    (hf : ∀ u, u.BusyInv → (f u).Inv) (ht : thenDo (absolute config op addr s) f = .next t) : t.Inv := by
  obtain ⟨-, e⟩ | ⟨hpc, e⟩ := absolute_cases config op addr s <;> rw [e] at ht <;>
    obtain rfl := Host.Outcome.next.inj ht
  · exact hf _ h
  · exact inv_operandFault h hpc

theorem inv_thenDo_indirect {cell : Word} {f : State → State} {t : State}
    (hf : ∀ u, u.BusyInv → (f u).Inv) (ht : thenDo (indirect config op cell s) f = .next t) : t.Inv := by
  obtain ⟨-, -, e⟩ | ⟨-, hcell, e⟩ | ⟨hpc, e⟩ := indirect_cases config op cell s <;> rw [e] at ht <;>
    obtain rfl := Host.Outcome.next.inj ht
  · exact hf _ h
  · exact inv_addressFault (t := atAddress config op cell s) h hcell (.inr rfl)
  · exact inv_operandFault h hpc

theorem inv_aluImmediate {mode : AluMode} {m : Byte} {t : State}
    (ht : aluImmediate config mode op m s = .next t) : t.Inv := by
  obtain rfl := Host.Outcome.next.inj ht
  exact inv_aluStep mode h

theorem inv_aluAbsolute {mode : AluMode} {addr : Word} {t : State}
    (ht : aluAbsolute config mode op addr s = .next t) : t.Inv :=
  inv_thenDo_absolute h (fun u hu => inv_aluStep mode (t := loadB u) hu) ht

theorem inv_aluAccumulator {mode : AluMode} {t : State}
    (ht : aluAccumulator config mode op s = .next t) : t.Inv := by
  obtain rfl := Host.Outcome.next.inj ht
  exact inv_aluStep mode h

theorem inv_jumpTo {addr : Word} {t : State} (ht : jumpTo config op addr s = .next t) : t.Inv := by
  obtain ⟨-, e⟩ | ⟨hpc, e⟩ := jumpTo_cases config op addr s <;>
    obtain rfl := Host.Outcome.next.inj (e.symm.trans ht)
  · exact inv_endCycle h
  · exact inv_operandFault h hpc

theorem inv_skipOperand {t : State} (ht : skipOperand config op s = .next t) : t.Inv := by
  obtain rfl := Host.Outcome.next.inj ht
  exact inv_endCycle h

end

/-! ### Instructions, steps and runs -/

/-- Every instruction keeps the invariant: its operand form leaves `BusyInv` or an address fault, and its
end makes `Inv` of `BusyInv`. -/
theorem inv_exec {i : Instr} {s t : State} (hs : s.Inv) (hr : s.run = .running)
    (ht : exec i s = .next t) : t.Inv := by
  have h := busyInv_afterFetch hs hr i
  cases i
  case lodi | popa => obtain rfl := Host.Outcome.next.inj ht; exact inv_endCycle h
  case psha =>
    obtain rfl := Host.Outcome.next.inj ht
    obtain ⟨hrun, hir, hmem, hflags⟩ := h
    exact inv_storeA ⟨hrun, hir, hmem, hflags⟩
  case loda => exact inv_thenDo_absolute h (fun _ => inv_loadA) ht
  case lodn => exact inv_thenDo_indirect h (fun _ => inv_loadA) ht
  case stoa => exact inv_thenDo_absolute h (fun _ => inv_storeA) ht
  case ston => exact inv_thenDo_indirect h (fun _ => inv_storeA) ht
  case addi | subi | adci | sbci | cmpi | andi | ori => exact inv_aluImmediate h ht
  case adda | suba | adca | sbca | cmpa | anda | ora => exact inv_aluAbsolute h ht
  case inc | dec | neg | not => exact inv_aluAccumulator h ht
  case bne | bcc | bmi | bpl | bvs | bvc => exact inv_skipOperand h ht
  case jmp => exact inv_jumpTo h ht
  case bcs | beq =>
    simp only [exec, execBcs, execBeq] at ht
    split at ht
    · exact inv_jumpTo h ht
    · exact inv_skipOperand h ht
  case halt =>
    obtain rfl := Host.Outcome.next.inj ht
    obtain ⟨-, -, hmem, hflags⟩ := h
    exact ⟨hmem, hflags, rfl, rfl⟩

/-- Every step keeps the invariant (R36, R119, R265, R266). -/
theorem inv_step {s t : State} (hs : s.Inv) (ht : step s = .next t) : t.Inv := by
  have hr := running_of_step ht
  have hready := hs.ready hr
  obtain ⟨h, -⟩ | ⟨r, h, -⟩ | ⟨-, -, i, -, e⟩ | ⟨-, -, u, hf, e⟩ | ⟨-, h0, -⟩ := step_cases s
  · cases h.symm.trans hr
  · cases h.symm.trans hr
  · exact inv_exec hs hr (e.symm.trans ht)
  · obtain rfl := Host.Outcome.next.inj (e.symm.trans ht)
    obtain ⟨_, _, -, -, hf'⟩ | ⟨-, hu, hf'⟩ | ⟨hu, -⟩ := fetchInstr_cases s
    · cases hf'.symm.trans hf
    · obtain rfl := Except.error.inj (hf'.symm.trans hf)
      exact ⟨hs.1, hs.2.1, rfl, rfl, hu⟩
    · exact absurd hready.2 (by simp [hu])
  · exact absurd hready.1.2 h0

/-- The invariant holds of every state a run of steps reaches. -/
theorem inv_coreRun (n : Nat) : ∀ {s t : State}, s.Inv → core.run n s = .next t → t.Inv := by
  induction n with
  | zero => intro s t hs h; exact Host.Outcome.next.inj h ▸ hs
  | succ n ih =>
    intro s t hs h
    obtain ⟨u, hu, hrest⟩ := run_succ_next.mp h
    exact ih (inv_step hs hu) hrest

/-- Settles O56: the invariant at the end of the run, with `RUN = faulted` ruled out. -/
theorem safeRunsStandAtABoundaryOrHalt : Obligations.SafeRunsStandAtABoundaryOrHalt := by
  intro n s t hs hsafe ht
  have hinv := inv_coreRun n hs ht
  refine ⟨hinv, ?_⟩
  cases hr : t.run with
  | running => exact .inl (hinv.ready hr)
  | halted =>
    obtain ⟨-, -, hrun⟩ := hinv
    simp only [State.RunInv, hr] at hrun
    exact .inr ⟨rfl, hrun.2, hrun.1⟩
  | faulted r => exact absurd hr (hsafe n le_rfl t ht r)

end Sys2Proof.Machine
end

section
/-! PROOFS (10_state.md). The state after reset (R44), and what a stopped machine does (R40). -/

namespace Sys2Proof.Machine

/-- Settles O9: a micro-step and a step each exist on a running machine only. -/
theorem stoppedMachineTakesNoStep : Obligations.StoppedMachineTakesNoStep :=
  ⟨rfl, fun _ _ _ hs =>
    ⟨fun _ ht => hs (microStepWith_next ht).1, fun _ ht => hs (running_of_step ht)⟩⟩

/-- An image loaded into the reset state's memory stands at its addresses, over zero bytes (R44, R283). -/
theorem read_loadImage_reset {base : Nat} {image : List Byte} {t : State}
    (h : loadImage base image State.reset = some t) (x : Word) :
    t.mem.read x = if base ≤ x.toNat ∧ x.toNat < base + image.length
      then image.getD (x.toNat - base) 0#8 else 0x00#8 := by
  obtain ⟨hfit, rfl⟩ := loadImage_eq_some h
  rcases Nat.lt_or_ge base 65536 with hb | hb
  · have hbase : (BitVec.ofNat 16 base).toNat = base := by rw [BitVec.toNat_ofNat]; omega
    have hread := read_writeBytes image State.reset.mem (BitVec.ofNat 16 base) x (by rwa [hbase])
    rw [hbase] at hread
    exact hread
  · obtain rfl : image = [] := List.length_eq_zero_iff.mp (by omega)
    rw [if_neg (by rw [List.length_nil]; omega)]
    rfl

/-- Settles O52: the reset values by computation, the image by `read_loadImage_reset`. -/
theorem resetLeavesTheStatedValues : Obligations.ResetLeavesTheStatedValues := by
  refine ⟨rfl, rfl, rfl, rfl, rfl, rfl, rfl, rfl, rfl, rfl, rfl, fun _ => rfl, ?_⟩
  intro base image t h
  refine ⟨?_, read_loadImage_reset h⟩
  obtain ⟨-, rfl⟩ := loadImage_eq_some h
  rfl

/-- Settles O53: the empty memory is canonical, and `IR` holds LODI's opcode. -/
theorem resetMeetsTheInvariants : Obligations.ResetMeetsTheInvariants :=
  ⟨⟨wf_reset, rfl, rfl, rfl⟩, wf_reset, rfl, .inl rfl⟩

end Sys2Proof.Machine
end

section
/-! PROOFS (10_state.md). What a control word can do to `FLAGS` (R34, R36), and what every step and
every micro-step keeps (R119, R268). -/

namespace Sys2Proof.Machine

/-! ### What a mode writes -/

/-- The modes that write flags (R34). -/
def flagWriters : List AluMode := [.add, .sub, .adc, .sbc, .inc, .dec, .cmp, .neg]

/-- Every other mode leaves `FLAGS` (R163 to R166). -/
theorem alu_flags_of_not_writer {p : OpenParameters} {mode : AluMode} (a b flags : Byte)
    (h : mode ∉ flagWriters) : (alu (specConfig p) mode a b flags).flags = flags := by
  cases mode
  case nop | and | or | not => rfl
  all_goals exact absurd (by decide) h

/-- No mode writes bits 7:4 of `FLAGS`, whatever the open parameters (R36). -/
theorem alu_specConfig_flags_high (p : OpenParameters) (mode : AluMode) (a b flags : Byte) :
    (alu (specConfig p) mode a b flags).flags.extractLsb' 4 4 = flags.extractLsb' 4 4 := by
  cases mode <;> simp [alu, arithmeticOut, writeVncz_high, setFlag_high]

/-- NEG writes `Z` and `N` alone (R176). -/
theorem getFlag_alu_neg (p : OpenParameters) (a b flags : Byte) {f : Flag} (hz : .z ≠ f) (hn : .n ≠ f) :
    getFlag config (alu (specConfig p) .neg a b flags).flags f = getFlag config flags f := by
  simp [alu, getFlag_setFlag_other _ _ hz, getFlag_setFlag_other _ _ hn]

/-! ### What a control word writes -/

@[simp] theorem phaseDataIn_mem (cfg : Config) (cw : ControlWord) (s : State) :
    (phaseDataIn cfg cw s).mem = s.mem := by rw [phaseDataIn_eq]

/-- Phase 4 writes at most one byte of memory (R140). -/
theorem phaseAddressIn_mem (cfg : Config) (cw : ControlWord) (s : State) :
    (phaseAddressIn cfg cw s).mem = s.mem ∨ ∃ addr v, (phaseAddressIn cfg cw s).mem = s.mem.write addr v := by
  rw [phaseAddressIn_eq]
  cases asserts cfg cw .mw
  · exact .inl rfl
  · exact .inr ⟨_, _, rfl⟩

/-- A word that completes writes to `FLAGS` what its ALU mode does (R34, R138), and at most one byte of memory
(R140). -/
theorem applyWord_writes {cfg : Config} {cw : ControlWord} {s t : State} (h : applyWord cfg cw s = .ok t) :
    (∃ mode, aluModeOfCode cfg (aluField cfg cw) = some mode ∧
        t.flags = (alu cfg mode s.a s.b s.flags).flags) ∧
      (t.mem = s.mem ∨ ∃ addr v, t.mem = s.mem.write addr v) := by
  obtain ⟨s1, s3, h1, h3, -, e⟩ | ⟨r, e⟩ := applyWord_cases cfg cw s
  · obtain ⟨addr, e1⟩ | ⟨-, -, e1⟩ := phaseAddressOut_cases cfg cw (phaseIdle cfg s)
    · obtain ⟨mode, hm, e3⟩ | ⟨-, e3⟩ := phaseAlu_cases cfg cw (phaseDataOut cfg cw s1)
      · have hmem := phaseAddressIn_mem cfg cw s3
        obtain rfl := Except.ok.inj (e1.symm.trans h1)
        obtain rfl := Except.ok.inj (e3.symm.trans h3)
        obtain rfl := Except.ok.inj (e.symm.trans h)
        exact ⟨⟨mode, hm, by simp [phaseAddressIn_eq, phaseDataOut_eq]⟩, by simpa [phaseDataOut_eq] using hmem⟩
      · cases e3.symm.trans h3
    · cases e1.symm.trans h1
  · cases e.symm.trans h

/-- Under the spec's tables a word faults on the two-byte read at 0xFFFF or on a reserved mode, and on nothing
else (R145). -/
theorem applyWord_error {cw : ControlWord} {s : State} {r : EngineFault}
    (h : applyWord config cw s = .error r) :
    (s.mar = 0xFFFF#16 ∧ r = .addressOutOfRange 0x10000) ∨
      aluModeOfCode config (aluField config cw) = none := by
  obtain ⟨addr, e1⟩ | ⟨-, hmar, e1⟩ := phaseAddressOut_cases config cw (phaseIdle config s)
  · obtain ⟨mode, -, e3⟩ | ⟨hm, -⟩ := phaseAlu_cases config cw
      (phaseDataOut config cw { phaseIdle config s with abus := addr })
    · simp only [applyWord, e1, e3, faultsAtLatch_config] at h
      cases h
    · exact .inr hm
  · simp only [applyWord, e1] at h
    exact .inl ⟨hmar, (Except.error.inj h).symm⟩

/-- A micro-step leaves `FLAGS`, or its word's mode writes them (R34, R133, R145). -/
theorem microStepRunning_flags (cfg : Config) (rom : Rom) (s : State) :
    (microStepRunning cfg rom s).flags = s.flags ∨
      ∃ mode, aluModeOfCode cfg (aluField cfg (rom (romAddress s))) = some mode ∧
        (microStepRunning cfg rom s).flags = (alu cfg mode s.a s.b s.flags).flags := by
  obtain ⟨-, e⟩ | ⟨-, -, e⟩ | ⟨-, -, t, ht, e⟩ | ⟨-, -, r, -, e⟩ := microStepRunning_cases cfg rom s <;>
    rw [e]
  case inr.inr.inl => exact .inr (applyWord_writes ht).1
  all_goals exact .inl rfl

/-- Settles O17: a micro-step that changes `FLAGS` writes what its word's ALU mode does. -/
theorem flagsWrittenByArithmeticModesOnly : Obligations.FlagsWrittenByArithmeticModesOnly := by
  intro p rom s t ht
  obtain ⟨-, rfl⟩ := microStepWith_next ht
  obtain e | ⟨mode, hm, e⟩ := microStepRunning_flags (specConfig p) rom s
  · exact ⟨by rw [e], fun hne => absurd e hne⟩
  · rw [e]
    refine ⟨alu_specConfig_flags_high p mode s.a s.b s.flags, fun hne => ⟨mode, hm, ?_, ?_⟩⟩
    · exact not_imp_comm.mp (alu_flags_of_not_writer s.a s.b s.flags) hne
    · rintro rfl
      exact ⟨getFlag_alu_neg p s.a s.b _ (by decide) (by decide),
        getFlag_alu_neg p s.a s.b _ (by decide) (by decide)⟩

/-! ### The words of the reference ROM -/

/-- The micro-instruction that the reference ROM holds for an opcode at a step: a fetch word, an execute word,
or the padding after them (R110, R114). -/
def wordAt (m : Mnemonic) (flags : Byte) (st : BitVec 4) : MicroWord :=
  (⟨.nop, [.pco, .mi]⟩ :: ⟨.nop, [.mo, .ii, .pcinc1]⟩ :: executeWords m flags).getD st.toNat ⟨.nop, []⟩

/-- A look-up that succeeds answers that micro-instruction's control word. -/
theorem referenceRom_eq_wordAt {s : State} {m : Mnemonic} (h : mnemonicOf config s.ir = some m) :
    referenceRom (romAddress s) = controlWord config (wordAt m s.flags s.stepCounter) := by
  rw [referenceRom_romAddress h]
  exact List.getD_map (_ :: _ :: executeWords m s.flags) ⟨.nop, []⟩ (controlWord config)

/-- A fetch word at its step, an execute word at its step, or the padding. -/
theorem wordAt_cases (m : Mnemonic) (flags : Byte) (st : BitVec 4) :
    (st = 0#4 ∧ wordAt m flags st = ⟨.nop, [.pco, .mi]⟩) ∨
      (st = 1#4 ∧ wordAt m flags st = ⟨.nop, [.mo, .ii, .pcinc1]⟩) ∨
      (∃ n, st.toNat = n + 2 ∧ (executeWords m flags)[n]? = some (wordAt m flags st)) ∨
      wordAt m flags st = ⟨.nop, []⟩ := by
  match hst : st.toNat with
  | 0 => exact .inl ⟨BitVec.eq_of_toNat_eq hst, by simp [wordAt, hst]⟩
  | 1 => exact .inr (.inl ⟨BitVec.eq_of_toNat_eq hst, by simp [wordAt, hst]⟩)
  | n + 2 =>
    refine .inr (.inr ?_)
    cases hw : (executeWords m flags)[n]? with
    | some w => exact .inl ⟨n, rfl, by simp [wordAt, hst, hw]⟩
    | none => exact .inr (by simp [wordAt, hst, hw])

/-- No execute word latches `IR` (R118 W7). -/
theorem ii_notMem_executeWords {m : Mnemonic} {flags : Byte} {w : MicroWord}
    (hw : w ∈ executeWords m flags) : .ii ∉ w.signals := by
  have h : ∀ m, ∀ w ∈ microPrograms m, .ii ∉ w.signals := by intro m; cases m <;> decide
  exact h _ w hw

/-- An execute word that halts is the only one of HALT's program (R252). -/
theorem eq_halt_of_hlt_mem {m : Mnemonic} {flags : Byte} {n : Nat} {w : MicroWord}
    (hw : (executeWords m flags)[n]? = some w) (hh : .hlt ∈ w.signals) : m = .halt ∧ n = 0 := by
  have only : ∀ m, ∀ w ∈ microPrograms m, .hlt ∈ w.signals → m = .halt := by
    intro m; cases m <;> decide
  have hsel := only _ w (List.mem_of_getElem? hw) hh
  have hm : m = .halt := by
    cases m
    case bcs | beq => simp only [overrideMnemonic] at hsel; split at hsel <;> cases hsel
    all_goals exact hsel
  subst hm
  obtain ⟨hn, -⟩ := List.getElem?_eq_some_iff.mp hw
  have hlen : (executeWords .halt flags).length = 1 := rfl
  exact ⟨rfl, by omega⟩

/-- The machine halts at step 2 of HALT only (R252). -/
theorem step_two_of_hlt_mem_wordAt {m : Mnemonic} {flags : Byte} {st : BitVec 4}
    (h : .hlt ∈ (wordAt m flags st).signals) : m = .halt ∧ st = 2#4 := by
  obtain ⟨-, e⟩ | ⟨-, e⟩ | ⟨n, hst, hw⟩ | e := wordAt_cases m flags st
  case inr.inr.inl =>
    obtain ⟨hm, rfl⟩ := eq_halt_of_hlt_mem hw h
    exact ⟨hm, BitVec.eq_of_toNat_eq hst⟩
  all_goals simp [e] at h

/-- `IR` is latched at step 1 only, by DECODE (R118 W7). -/
theorem step_one_of_ii_mem_wordAt {m : Mnemonic} {flags : Byte} {st : BitVec 4}
    (h : .ii ∈ (wordAt m flags st).signals) : st = 1#4 ∧ .sr ∉ (wordAt m flags st).signals := by
  obtain ⟨-, e⟩ | ⟨hst, e⟩ | ⟨n, -, hw⟩ | e := wordAt_cases m flags st
  case inr.inl => exact ⟨hst, by simp [e]⟩
  case inr.inr.inl => exact absurd h (ii_notMem_executeWords (List.mem_of_getElem? hw))
  all_goals simp [e] at h

/-! ### The invariants of steps and of micro-steps -/

/-- A word of the reference ROM that completes leaves a defined byte in `IR`, or is DECODE and leaves `STEP` at 2. -/
theorem ir_defined_or_step_two {m : Mnemonic} {s t : State} (hd : definedOpcode config s.ir = true)
    (h : applyWord config (controlWord config (wordAt m s.flags s.stepCounter)) s = .ok t) :
    definedOpcode config t.ir = true ∨ t.stepCounter = 2#4 := by
  obtain ⟨-, hstep, hir, -⟩ := applyWord_frame h
  by_cases hii : .ii ∈ (wordAt m s.flags s.stepCounter).signals
  · obtain ⟨h1, hsr⟩ := step_one_of_ii_mem_wordAt hii
    refine .inr (hstep.trans ?_)
    rw [asserts_controlWord, decide_eq_false hsr, h1]
    rfl
  · exact .inl (by rwa [hir (by simp [hii])])

/-- The four ends of a micro-step each keep the invariant (R119, R133, R145). -/
theorem microInv_microStepRunning {s : State} (hs : s.MicroInv) (hr : s.run = .running) :
    (microStepRunning config referenceRom s).MicroInv := by
  obtain ⟨hmem, hflags, hrun⟩ := hs
  simp only [State.MicroRunInv, hr] at hrun
  obtain ⟨hd, e⟩ | ⟨hd, hh, e⟩ | ⟨hd, -, t, ht, e⟩ | ⟨hd, -, r, ht, e⟩ :=
    microStepRunning_cases config referenceRom s <;> rw [e]
  · exact ⟨hmem, hflags, hrun.resolve_left (by simp [hd]), rfl, hd⟩
  all_goals
    obtain ⟨m, hm⟩ := exists_mnemonicOf hd
    rw [referenceRom_eq_wordAt hm] at *
  · obtain ⟨rfl, h2⟩ := step_two_of_hlt_mem_wordAt (by simpa using hh)
    exact ⟨hmem, hflags, h2, (opcodeByte_of_mnemonicOf hm).symm⟩
  · obtain ⟨⟨mode, -, hf⟩, hw⟩ := applyWord_writes ht
    refine ⟨?_, by rw [hf, alu_flags_high, hflags], ?_⟩
    · obtain hw | ⟨addr, v, hw⟩ := hw <;> rw [hw]
      · exact hmem
      · exact wf_write addr v hmem
    · simp only [State.MicroRunInv, (applyWord_frame ht).1, hr]
      exact ir_defined_or_step_two hd ht
  · obtain ⟨hmar, rfl⟩ | hnone := applyWord_error ht
    · exact ⟨hmem, hflags, rfl, hmar, hd⟩
    · simp at hnone

/-- Settles O54: `inv_step`, instruction by instruction. -/
theorem stepKeepsTheInvariant : Obligations.StepKeepsTheInvariant := fun _ _ => inv_step

/-- Settles O55: only a running machine takes a micro-step, and each of its ends keeps the invariant. -/
theorem microStepKeepsTheInvariant : Obligations.MicroStepKeepsTheInvariant := by
  intro s t hs ht
  obtain ⟨hr, rfl⟩ := microStepWith_next ht
  exact microInv_microStepRunning hs hr

end Sys2Proof.Machine
end

section
/-! PROOFS (10_state.md). The frame of every instruction: which of `A`, `B`, `SP`, `FLAGS` and `RUN` it may write
(R23, R27, R36, R37). -/

namespace Sys2Proof.Machine

/-- The ALU mode of an instruction's last word (R116). -/
def aluModeOf : Instr → AluMode
  | .addi _ | .adda _ => .add
  | .subi _ | .suba _ => .sub
  | .adci _ | .adca _ => .adc
  | .sbci _ | .sbca _ => .sbc
  | .cmpi _ | .cmpa _ => .cmp
  | .inc => .inc
  | .dec => .dec
  | .neg => .neg
  | .andi _ | .anda _ => .and
  | .ori _ | .ora _ => .or
  | .not => .not
  | _ => .nop

/-- Between the fetch of `i` at `s` and its last word, only the operand of a two-operand instruction has been
written, to `B`. -/
structure InProgress (i : Instr) (s t : State) : Prop where
  a : t.a = s.a
  b : writesB i = false → t.b = s.b
  sp : t.sp = s.sp
  flags : t.flags = s.flags
  run : t.run = s.run

/-- What `i` has written since `s`, in the state `t` it leaves. -/
structure WritesOnly (i : Instr) (s t : State) : Prop where
  a : writesA i = false → t.a = s.a
  b : writesB i = false → t.b = s.b
  sp : i ≠ .psha → i ≠ .popa → t.sp = s.sp
  flags : t.flags = s.flags ∨ ∃ a b, t.flags = (alu config (aluModeOf i) a b s.flags).flags
  run : i ≠ .halt → t.run = s.run ∨ t.run = .faulted (.addressOutOfRange 0x10000)

/-! ### Ends of instructions -/

/-- Where `A` is not written, the last word's mode has no result for it. -/
theorem alu_result_of_not_writesA {i : Instr} (hi : writesA i = false) (a b flags : Byte) :
    (alu config (aluModeOf i) a b flags).result = none := by
  cases i
  case stoa | ston | cmpi | cmpa | bcs | beq | bne | bcc | bmi | bpl | bvs | bvc | jmp | psha | halt => rfl
  all_goals cases hi

section
variable {i : Instr} {s t : State} (h : InProgress i s t)
include h

theorem InProgress.loadB (hi : writesB i = true) : InProgress i s (loadB t) :=
  ⟨h.a, fun hn => (by cases hi.symm.trans hn), h.sp, h.flags, h.run⟩

theorem InProgress.writesOnly_endCycle : WritesOnly i s (endCycle t) :=
  ⟨fun _ => h.a, h.b, fun _ _ => h.sp, .inl h.flags, fun _ => .inl h.run⟩

theorem InProgress.writesOnly_addressFault : WritesOnly i s (raiseFault (.addressOutOfRange 0x10000) t) :=
  ⟨fun _ => h.a, h.b, fun _ _ => h.sp, .inl h.flags, fun _ => .inr rfl⟩

theorem InProgress.writesOnly_loadA (hi : writesA i = true) : WritesOnly i s (loadA t) :=
  ⟨fun hn => (by cases hi.symm.trans hn), h.b, fun _ _ => h.sp, .inl h.flags, fun _ => .inl h.run⟩

theorem InProgress.writesOnly_storeA : WritesOnly i s (storeA t) :=
  ⟨fun _ => h.a, h.b, fun _ _ => h.sp, .inl h.flags, fun _ => .inl h.run⟩

theorem InProgress.writesOnly_aluStep : WritesOnly i s (aluStep config (aluModeOf i) t) where
  a hi := by rw [aluStep_a, alu_result_of_not_writesA hi]; exact h.a
  b := h.b
  sp _ _ := h.sp
  flags := .inr ⟨t.a, t.b, by rw [aluStep_flags, h.flags]⟩
  run _ := .inl h.run

end

/-! ### Operand forms -/

section
variable {i : Instr} {op : Byte} {s t : State}

theorem inProgress_atOperand : InProgress i s (atOperand config op s) :=
  ⟨rfl, fun _ => rfl, rfl, rfl, rfl⟩

theorem writesOnly_thenDo_absolute {addr : Word} {f : State → State}
    (hf : ∀ u, InProgress i s u → WritesOnly i s (f u))
    (ht : thenDo (absolute config op addr s) f = .next t) : WritesOnly i s t := by
  obtain ⟨-, e⟩ | ⟨-, e⟩ := absolute_cases config op addr s <;> rw [e] at ht <;>
    obtain rfl := Host.Outcome.next.inj ht
  · exact hf _ ⟨rfl, fun _ => rfl, rfl, rfl, rfl⟩
  · exact inProgress_atOperand.writesOnly_addressFault

theorem writesOnly_thenDo_indirect {cell : Word} {f : State → State}
    (hf : ∀ u, InProgress i s u → WritesOnly i s (f u))
    (ht : thenDo (indirect config op cell s) f = .next t) : WritesOnly i s t := by
  obtain ⟨-, -, e⟩ | ⟨-, -, e⟩ | ⟨-, e⟩ := indirect_cases config op cell s <;> rw [e] at ht <;>
    obtain rfl := Host.Outcome.next.inj ht
  · exact hf _ ⟨rfl, fun _ => rfl, rfl, rfl, rfl⟩
  · exact InProgress.writesOnly_addressFault (t := atAddress config op cell s) ⟨rfl, fun _ => rfl, rfl, rfl, rfl⟩
  · exact inProgress_atOperand.writesOnly_addressFault

theorem writesOnly_aluImmediate {m : Byte} (hi : writesB i = true)
    (ht : aluImmediate config (aluModeOf i) op m s = .next t) : WritesOnly i s t := by
  obtain rfl := Host.Outcome.next.inj ht
  exact InProgress.writesOnly_aluStep ⟨rfl, fun hn => (by cases hi.symm.trans hn), rfl, rfl, rfl⟩

theorem writesOnly_aluAbsolute {addr : Word} (hi : writesB i = true)
    (ht : aluAbsolute config (aluModeOf i) op addr s = .next t) : WritesOnly i s t :=
  writesOnly_thenDo_absolute (fun _ hu => (hu.loadB hi).writesOnly_aluStep) ht

theorem writesOnly_aluAccumulator (ht : aluAccumulator config (aluModeOf i) op s = .next t) :
    WritesOnly i s t := by
  obtain rfl := Host.Outcome.next.inj ht
  exact InProgress.writesOnly_aluStep ⟨rfl, fun _ => rfl, rfl, rfl, rfl⟩

theorem writesOnly_jumpTo {addr : Word} (ht : jumpTo config op addr s = .next t) : WritesOnly i s t := by
  obtain ⟨-, e⟩ | ⟨-, e⟩ := jumpTo_cases config op addr s <;>
    obtain rfl := Host.Outcome.next.inj (e.symm.trans ht)
  · exact InProgress.writesOnly_endCycle ⟨rfl, fun _ => rfl, rfl, rfl, rfl⟩
  · exact inProgress_atOperand.writesOnly_addressFault

theorem writesOnly_skipOperand (ht : skipOperand config op s = .next t) : WritesOnly i s t := by
  obtain rfl := Host.Outcome.next.inj ht
  exact InProgress.writesOnly_endCycle ⟨rfl, fun _ => rfl, rfl, rfl, rfl⟩

end

/-! ### Instructions -/

/-- Every instruction: its operand form leaves it in progress or faults, and its last word writes `A` and `FLAGS`. -/
theorem writesOnly_exec {i : Instr} {s t : State} (ht : exec i s = .next t) : WritesOnly i s t := by
  cases i
  case lodi | popa =>
    obtain rfl := Host.Outcome.next.inj ht
    exact ⟨nofun, fun _ => rfl, by simp, .inl rfl, fun _ => .inl rfl⟩
  case psha =>
    obtain rfl := Host.Outcome.next.inj ht
    exact ⟨fun _ => rfl, fun _ => rfl, fun hn => absurd rfl hn, .inl rfl, fun _ => .inl rfl⟩
  case halt =>
    obtain rfl := Host.Outcome.next.inj ht
    exact ⟨fun _ => rfl, fun _ => rfl, fun _ _ => rfl, .inl rfl, fun hn => absurd rfl hn⟩
  case loda => exact writesOnly_thenDo_absolute (fun _ hu => hu.writesOnly_loadA rfl) ht
  case lodn => exact writesOnly_thenDo_indirect (fun _ hu => hu.writesOnly_loadA rfl) ht
  case stoa => exact writesOnly_thenDo_absolute (fun _ hu => hu.writesOnly_storeA) ht
  case ston => exact writesOnly_thenDo_indirect (fun _ hu => hu.writesOnly_storeA) ht
  case addi | subi | adci | sbci | cmpi | andi | ori => exact writesOnly_aluImmediate rfl ht
  case adda | suba | adca | sbca | cmpa | anda | ora => exact writesOnly_aluAbsolute rfl ht
  case inc | dec | neg | not => exact writesOnly_aluAccumulator ht
  case bne | bcc | bmi | bpl | bvs | bvc => exact writesOnly_skipOperand ht
  case jmp => exact writesOnly_jumpTo ht
  case bcs | beq =>
    simp only [exec, execBcs, execBeq] at ht
    split at ht
    · exact writesOnly_jumpTo ht
    · exact writesOnly_skipOperand ht

/-- The mode of an instruction that writes no flag writes none. -/
theorem aluModeOf_notMem_flagWriters {i : Instr} (hv : writesVncz i = false) (hn : i ≠ .neg) :
    aluModeOf i ∉ flagWriters := by
  cases i
  case neg => exact absurd rfl hn
  case addi | adda | subi | suba | adci | adca | sbci | sbca | cmpi | cmpa | inc | dec => cases hv
  case andi | anda => exact (by decide : AluMode.and ∉ flagWriters)
  case ori | ora => exact (by decide : AluMode.or ∉ flagWriters)
  case not => exact (by decide : AluMode.not ∉ flagWriters)
  all_goals exact (by decide : AluMode.nop ∉ flagWriters)

/-- Settles O45: what `WritesOnly` lists, with the laws of the flag writers. -/
theorem instructionsWriteOnlyTheirDestinations : Obligations.InstructionsWriteOnlyTheirDestinations := by
  intro i s t ht
  obtain ⟨ha, hb, hsp, hflags, hrun⟩ := writesOnly_exec ht
  refine ⟨ha, hb, hsp, ?_, fun hv hn => ?_, fun hneg => ?_, hrun⟩ <;>
    obtain e | ⟨a, b, e⟩ := hflags <;> rw [e]
  · exact alu_flags_high (aluModeOf i) a b s.flags
  · exact alu_flags_of_not_writer a b s.flags (aluModeOf_notMem_flagWriters hv hn)
  · exact ⟨rfl, rfl⟩
  · subst hneg
    exact ⟨getFlag_alu_neg openDefaults a b _ (by decide) (by decide),
      getFlag_alu_neg openDefaults a b _ (by decide) (by decide)⟩

end Sys2Proof.Machine
end

section
/-! PROOFS (10_state.md). `B`, `MAR`, `ABUS`, `DBUS` and `IR` are scratch: no instruction's result depends on what it
finds there (R43). -/

namespace Sys2Proof.Machine

/-- `s` with the scratch state of `u`. -/
def State.withScratchOf (s u : State) : State :=
  { s with b := u.b, mar := u.mar, abus := u.abus, dbus := u.dbus, ir := u.ir }

@[simp] theorem withScratchOf_pc (s u : State) : (s.withScratchOf u).pc = s.pc := rfl

/-- Two ready machines a program cannot tell apart differ in their scratch state alone. -/
theorem SameVisible.eq_withScratchOf {s t : State} (h : SameVisible s t) (hs : s.AtBoundary)
    (ht : t.AtBoundary) : t = s.withScratchOf t := by
  obtain ⟨ha, hflags, hpc, hsp, hmem⟩ := h
  obtain ⟨hsr, hs0⟩ := hs
  obtain ⟨htr, ht0⟩ := ht
  simp only [State.withScratchOf, ha, hflags, hpc, hsp, hmem, hsr, hs0, ← htr, ← ht0]

/-- The two states differ at most in `B`. -/
def SameButB (s t : State) : Prop := ∃ x, t = { s with b := x }

/-- Two operand forms both go on, or both fault, in states that differ at most in `B`. -/
def FormsAgree : Except State State → Except State State → Prop
  | .ok s, .ok t => SameButB s t
  | .error s, .error t => SameButB s t
  | _, _ => False

/-- Both answer a next state, and the two differ at most in `B`. -/
def AnswersAgree (x y : Host.Outcome State Fault Refusal) : Prop :=
  ∃ s t, x = .next s ∧ y = .next t ∧ SameButB s t

theorem answersAgree_next {s t : State} (h : SameButB s t) : AnswersAgree (.next s) (.next t) :=
  ⟨s, t, rfl, rfl, h⟩

/-- What follows an operand form looks at no scratch state that the form left to differ. -/
theorem FormsAgree.thenDo {x y : Except State State} {f : State → State} (h : FormsAgree x y)
    (hf : ∀ s b, SameButB (f s) (f { s with b := b })) : AnswersAgree (thenDo x f) (thenDo y f) := by
  match x, y, h with
  | .ok s, .ok _, ⟨b, rfl⟩ => exact answersAgree_next (hf s b)
  | .error _, .error _, h => exact answersAgree_next h

/-! ### Operand forms -/

section
variable (op : Byte) (s u : State)

/-- The fetch overwrites all scratch state but `B`, so that the forms built on it agree. -/
theorem formsAgree_absolute (addr : Word) :
    FormsAgree (absolute config op addr s) (absolute config op addr (s.withScratchOf u)) := by
  cases h : checkPair (config.registerAdd s.pc 1) <;>
    simp only [absolute, withScratchOf_pc, h] <;> exact ⟨u.b, rfl⟩

theorem formsAgree_indirect (cell : Word) :
    FormsAgree (indirect config op cell s) (indirect config op cell (s.withScratchOf u)) := by
  have h := formsAgree_absolute op s u cell
  unfold indirect
  match absolute config op cell s, absolute config op cell (s.withScratchOf u), h with
  | .error _, .error _, h => exact h
  | .ok t, .ok _, ⟨b, rfl⟩ =>
    cases hr : t.mem.readWord config cell <;> simp only [hr] <;> exact ⟨b, rfl⟩

theorem answersAgree_aluImmediate (mode : AluMode) (m : Byte) :
    AnswersAgree (aluImmediate config mode op m s) (aluImmediate config mode op m (s.withScratchOf u)) :=
  answersAgree_next ⟨m, rfl⟩

/-- The operand's byte is in `B` before the ALU reads it. -/
theorem answersAgree_aluAbsolute (mode : AluMode) (addr : Word) :
    AnswersAgree (aluAbsolute config mode op addr s) (aluAbsolute config mode op addr (s.withScratchOf u)) :=
  (formsAgree_absolute op s u addr).thenDo fun t _ => ⟨t.mem.read t.mar, rfl⟩

/-- An instruction on `A` alone: its mode does not read `B` (R176 to R178). -/
theorem answersAgree_aluAccumulator {mode : AluMode}
    (h : ∀ a b b' flags, alu config mode a b flags = alu config mode a b' flags) :
    AnswersAgree (aluAccumulator config mode op s) (aluAccumulator config mode op (s.withScratchOf u)) := by
  refine answersAgree_next ⟨u.b, ?_⟩
  simp only [aluStep, afterFetch, State.withScratchOf, endCycle, h s.a u.b s.b s.flags]

theorem answersAgree_jumpTo (addr : Word) :
    AnswersAgree (jumpTo config op addr s) (jumpTo config op addr (s.withScratchOf u)) := by
  cases h : checkPair (config.registerAdd s.pc 1) <;>
    simp only [jumpTo, withScratchOf_pc, h] <;> exact answersAgree_next ⟨u.b, rfl⟩

theorem answersAgree_skipOperand :
    AnswersAgree (skipOperand config op s) (skipOperand config op (s.withScratchOf u)) :=
  answersAgree_next ⟨u.b, rfl⟩

/-- A wired branch, on a flag both states hold. -/
theorem answersAgree_branch (taken : Bool) (addr : Word) :
    AnswersAgree (if taken then jumpTo config op addr s else skipOperand config op s)
      (if taken then jumpTo config op addr (s.withScratchOf u)
        else skipOperand config op (s.withScratchOf u)) := by
  cases taken
  · exact answersAgree_skipOperand op s u
  · exact answersAgree_jumpTo op s u addr

end

/-! ### Instructions and steps -/

/-- No instruction's result depends on the scratch state it finds (R43). -/
theorem answersAgree_exec (i : Instr) (s u : State) :
    AnswersAgree (exec i s) (exec i (s.withScratchOf u)) := by
  cases i
  case lodi | popa | psha | halt => exact answersAgree_next ⟨u.b, rfl⟩
  case loda | stoa => exact (formsAgree_absolute _ s u _).thenDo fun _ b => ⟨b, rfl⟩
  case lodn | ston => exact (formsAgree_indirect _ s u _).thenDo fun _ b => ⟨b, rfl⟩
  case addi | subi | adci | sbci | cmpi | andi | ori => exact answersAgree_aluImmediate _ s u _ _
  case adda | suba | adca | sbca | cmpa | anda | ora => exact answersAgree_aluAbsolute _ s u _ _
  case inc | dec | neg | not => exact answersAgree_aluAccumulator _ s u fun _ _ _ _ => rfl
  case bne | bcc | bmi | bpl | bvs | bvc => exact answersAgree_skipOperand _ s u
  case jmp => exact answersAgree_jumpTo _ s u _
  case bcs | beq => exact answersAgree_branch _ s u _ _

/-- A ready machine's step executes what it fetches. -/
theorem step_of_fetches {s : State} {i : Instr} (hs : s.Ready) (hi : s.Fetches i) : step s = exec i s := by
  obtain ⟨⟨hr, h0⟩, hd⟩ := hs
  obtain ⟨rest, hdec⟩ := hi
  simp [step, fetchInstr, hr, h0, hd, hdec]

/-- A ready machine's step faults on an undefined byte that it fetches (R265). -/
theorem step_of_undefined {s : State} {e : DecodeError} (hs : s.Ready)
    (he : decode (fetchBytes s) = .error e) :
    step s = .next (raiseFault (.undefinedOpcode (s.mem.read s.pc)) (afterFetch config (s.mem.read s.pc) s)) := by
  obtain ⟨⟨hr, h0⟩, hd⟩ := hs
  simp [step, fetchInstr, hr, h0, hd, he]

/-- A step of a ready machine does not depend on the scratch state it finds. -/
theorem answersAgree_step {s u : State} (hs : s.Ready) (hu : (s.withScratchOf u).Ready) :
    AnswersAgree (step s) (step (s.withScratchOf u)) := by
  cases h : decode (fetchBytes s) with
  | ok p =>
    have hi : s.Fetches p.1 := ⟨p.2, h⟩
    rw [step_of_fetches hs hi, step_of_fetches hu hi]
    exact answersAgree_exec p.1 s u
  | error e =>
    rw [step_of_undefined hs h, step_of_undefined hu h]
    exact answersAgree_next ⟨u.b, rfl⟩

/-- Settles O57: the two states differ in scratch state alone, and their steps' ends at most in `B`. -/
theorem scratchStateIsUnobservable : Obligations.ScratchStateIsUnobservable := by
  intro s t hs ht hst
  have e := hst.eq_withScratchOf hs.1 ht.1
  rw [e] at ht ⊢
  obtain ⟨v, w, hv, hw, b, rfl⟩ := answersAgree_step hs ht
  exact ⟨v, _, hv, hw, ⟨rfl, rfl, rfl, rfl, rfl⟩, rfl, rfl, rfl, rfl, rfl, rfl⟩

end Sys2Proof.Machine
end

section
/-! PROOFS (20_memory.md). The two-byte read is little-endian (R52, R54, R55). -/

namespace Sys2Proof

/-- The value of an address's two bytes, low byte first (R52). -/
theorem wordOfBytes_toNat (lo hi : Byte) : (wordOfBytes lo hi).toNat = lo.toNat + 256 * hi.toNat := by
  have hlt := lo.isLt
  rw [wordOfBytes, BitVec.toNat_append, ← Nat.shiftLeft_add_eq_or_of_lt hlt, Nat.shiftLeft_eq]
  omega

namespace Machine

/-- Below 0xFFFF the two-byte read answers its two bytes, low byte first (R52, R54). -/
theorem readWord_of_ne (m : Memory) {addr : Word} (h : addr ≠ 0xFFFF#16) :
    m.readWord config addr = .ok (wordOfBytes (m.read addr) (m.read (addr + 1#16))) := by
  obtain ⟨-, e⟩ | ⟨hf, -⟩ := readWord_cases config m addr
  · exact e
  · exact absurd hf h

/-- At 0xFFFF the two-byte read faults: the second byte's address does not wrap (R54). -/
theorem readWord_top (m : Memory) : m.readWord config 0xFFFF#16 = .error (.addressOutOfRange 0x10000) := rfl

/-- A pointer stored a byte at a time is read back (R55): the second write leaves the first one's byte. -/
theorem readWord_write_write (m : Memory) {addr : Word} (w : Word) (h : addr ≠ 0xFFFF#16) :
    ((m.write addr (lowByte w)).write (addr + 1#16) (highByte w)).readWord config addr = .ok w := by
  have apart : addr ≠ addr + 1#16 := by bv_omega
  rw [readWord_of_ne _ h, read_write_same, read_write_other _ _ apart, read_write_same,
    wordOfBytes_split]

/-- Settles O26: the two outcomes of the range check, and the read after the two writes. -/
theorem twoByteReadIsLittleEndian : Obligations.TwoByteReadIsLittleEndian := by
  intro m addr w
  refine ⟨fun h => ⟨_, readWord_of_ne m h, wordOfBytes_toNat _ _⟩, ?_, readWord_write_write m w⟩
  rintro rfl
  exact readWord_top m

end Machine

end Sys2Proof
end

section
/-! PROOFS (20_memory.md). The memory frame of every instruction: no byte changes but the one it stores to, which
then holds `A` (R53, R193, R194, R250). -/

namespace Sys2Proof.Machine

/-- Everything `i` can have done to memory between `s` and the state `t` it leaves. -/
inductive StoreEffect (i : Instr) (s t : State) : Prop
  /-- `i` has no store. -/
  | nothing (hdest : storeAddress i s = none) (hmem : t.mem = s.mem)
  /-- A fault came before the store (R266). -/
  | faulted (r : EngineFault) (hrun : t.run = .faulted r) (hmem : t.mem = s.mem)
  /-- `A` is stored at the store address. -/
  | stored (addr : Word) (hdest : storeAddress i s = some addr) (hmem : t.mem = s.mem.write addr s.a)

/-! ### Operand forms -/

section
variable {i : Instr} {op : Byte} {s t : State}

theorem storeEffect_thenDo_absolute {addr : Word} {f : State → State}
    (hf : StoreEffect i s (f (atAddress config op addr s)))
    (ht : thenDo (absolute config op addr s) f = .next t) : StoreEffect i s t := by
  obtain ⟨-, e⟩ | ⟨-, e⟩ := absolute_cases config op addr s <;> rw [e] at ht <;>
    obtain rfl := Host.Outcome.next.inj ht
  · exact hf
  · exact .faulted _ rfl rfl

/-- The end of an indirect instruction is asked for only where the cell answers an address, and there `MAR` holds it. -/
theorem storeEffect_thenDo_indirect {cell : Word} {f : State → State}
    (hf : ∀ u : State, s.mem.readWord config cell = .ok u.mar → u.mem = s.mem → u.a = s.a →
      StoreEffect i s (f u))
    (ht : thenDo (indirect config op cell s) f = .next t) : StoreEffect i s t := by
  obtain ⟨-, hcell, e⟩ | ⟨-, -, e⟩ | ⟨-, e⟩ := indirect_cases config op cell s <;> rw [e] at ht <;>
    obtain rfl := Host.Outcome.next.inj ht
  · exact hf _ (readWord_of_ne s.mem hcell) rfl rfl
  · exact .faulted _ rfl rfl
  · exact .faulted _ rfl rfl

theorem storeEffect_jumpTo {addr : Word} (hi : storeAddress i s = none)
    (ht : jumpTo config op addr s = .next t) : StoreEffect i s t := by
  obtain ⟨-, e⟩ | ⟨-, e⟩ := jumpTo_cases config op addr s <;>
    obtain rfl := Host.Outcome.next.inj (e.symm.trans ht)
  · exact .nothing hi rfl
  · exact .faulted _ rfl rfl

theorem storeEffect_skipOperand (hi : storeAddress i s = none)
    (ht : skipOperand config op s = .next t) : StoreEffect i s t := by
  obtain rfl := Host.Outcome.next.inj ht
  exact .nothing hi rfl

end

/-! ### Instructions -/

/-- Every instruction: only the last word of STOA, STON and PSHA writes memory, at the `MAR` its form has set. -/
theorem storeEffect_exec {i : Instr} {s t : State} (ht : exec i s = .next t) : StoreEffect i s t := by
  cases i
  case lodi | popa | halt => obtain rfl := Host.Outcome.next.inj ht; exact .nothing rfl rfl
  case addi | subi | adci | sbci | cmpi | andi | ori =>
    obtain rfl := Host.Outcome.next.inj ht
    exact .nothing rfl rfl
  case inc | dec | neg | not => obtain rfl := Host.Outcome.next.inj ht; exact .nothing rfl rfl
  case loda => exact storeEffect_thenDo_absolute (.nothing rfl rfl) ht
  case adda | suba | adca | sbca | cmpa | anda | ora =>
    exact storeEffect_thenDo_absolute (.nothing rfl rfl) ht
  case lodn => exact storeEffect_thenDo_indirect (f := loadA) (fun _ _ hmem _ => .nothing rfl hmem) ht
  case stoa addr16 => exact storeEffect_thenDo_absolute (.stored addr16 rfl rfl) ht
  case ston =>
    refine storeEffect_thenDo_indirect (f := storeA) (fun u hcell hmem ha => .stored u.mar ?_ ?_) ht
    · exact congrArg Except.toOption hcell
    · rw [storeA_mem, hmem, ha]
  case psha =>
    obtain rfl := Host.Outcome.next.inj ht
    exact .stored _ rfl (by simp)
  case bne | bcc | bmi | bpl | bvs | bvc => exact storeEffect_skipOperand rfl ht
  case jmp => exact storeEffect_jumpTo rfl ht
  case bcs | beq =>
    simp only [exec, execBcs, execBeq] at ht
    split at ht
    · exact storeEffect_jumpTo rfl ht
    · exact storeEffect_skipOperand rfl ht

/-- Settles O46: the three effects on memory, with the read after a write. -/
theorem storesChangeOneByte : Obligations.StoresChangeOneByte := by
  intro i s t ht _
  cases storeEffect_exec ht with
  | nothing hdest hmem => exact ⟨fun _ _ => by rw [hmem], fun _ hx => nomatch hdest.symm.trans hx⟩
  | faulted r hrun hmem => exact ⟨fun _ _ => by rw [hmem], fun _ _ hr => nomatch hrun.symm.trans hr⟩
  | stored addr hdest hmem =>
    refine ⟨fun x hx => ?_, fun x hx _ => ?_⟩ <;> rw [hmem]
    · exact read_write_other _ _ fun e => hx (e ▸ hdest)
    · obtain rfl := Option.some.inj (hdest.symm.trans hx)
      exact read_write_same _ _ _

end Sys2Proof.Machine
end

section
/-! PROOFS (20_memory.md). Code is memory: a stored byte is what the next fetch sees (R63). -/

namespace Sys2Proof.Machine

/-- A STOA whose operand is readable stores `A` and ends its cycle (R193). -/
theorem exec_stoa_of_readable {s : State} (addr : Word) (h : s.pc + 1#16 ≠ 0xFFFF#16) :
    exec (.stoa addr) s = .next (storeA (atAddress config (opcode (.stoa addr)) addr s)) := by
  obtain ⟨-, e⟩ | ⟨hf, -⟩ := absolute_cases config (opcode (.stoa addr)) addr s
  · rw [exec, execStoa, e]; rfl
  · exact absurd hf h

/-- The cycle of a store from a running machine ends ready for the next fetch. -/
theorem ready_storeA {s : State} (hrun : s.run = .running) (hir : definedOpcode config s.ir = true) :
    (storeA s).Ready :=
  ⟨⟨hrun, rfl⟩, hir⟩

/-- HALT is fetched wherever its opcode stands at `PC` (R74). -/
theorem fetches_halt {s : State} (h : s.mem.read s.pc = opcode .halt) : s.Fetches .halt := by
  have hm : mnemonicOf config (s.mem.read s.pc) = some .halt := by
    rw [h, opcode, mnemonicOf_opcodeByte]; rfl
  exact ⟨[s.mem.read (s.pc + 1#16), s.mem.read (s.pc + 2#16)],
    by simp only [decode, decodeWith, fetchBytes, hm, Option.map_some, rowForm]⟩

/-- A ready machine with HALT's opcode at `PC` halts there (R252). -/
theorem step_of_halt_at_pc {s : State} (hs : s.Ready) (h : s.mem.read s.pc = opcode .halt) :
    step s = .next (haltEngine (afterFetch config (opcode .halt) s)) :=
  step_of_fetches hs (fetches_halt h)

/-- A store to the address right after it leaves `A` as the opcode byte that is fetched next (R63). -/
theorem step_stoa_over_next {s : State} (hs : s.Ready) (hi : s.Fetches (.stoa (s.pc + 3#16)))
    (h : s.pc + 1#16 ≠ 0xFFFF#16) :
    ∃ t, step s = .next t ∧ t.Ready ∧ t.pc = s.pc + 3#16 ∧ t.mem.read t.pc = s.a := by
  have hstep := (step_of_fetches hs hi).trans (exec_stoa_of_readable _ h)
  obtain ⟨⟨hrun, -⟩, -⟩ := hs
  exact ⟨_, hstep, ready_storeA hrun (by simp [opcode, definedOpcode]), rfl, read_write_same _ _ _⟩

/-- Settles O59: the byte that the store leaves at the next opcode's address is HALT's. -/
theorem storedCodeIsFetched : Obligations.StoredCodeIsFetched := by
  intro s hs hi hpc ha
  obtain ⟨t, hst, ht, htpc, hop⟩ := step_stoa_over_next hs hi hpc
  refine ⟨t, _, hst, step_of_halt_at_pc ht (hop.trans ha), rfl, ?_⟩
  rw [haltEngine_pc, afterFetch_pc, htpc, registerAdd_one, BitVec.add_assoc]
  rfl

end Sys2Proof.Machine
end

section
/-! PROOFS (30_encoding.md). Encoding and decoding are inverse, and the undefined bytes are rejected
by name (R70 to R76). -/

namespace Sys2Proof.Machine

/-- The instruction is one that the form makes, of these operand bytes (R70, R71). -/
def FormMakes : RowForm → Instr → List Byte → Prop
  | .op j, i, operands => i = j ∧ operands = []
  | .imm8 mk, i, operands => ∃ m, i = mk m ∧ operands = [m]
  | .addr16 mk, i, operands => ∃ a, i = mk a ∧ operands = [lowByte a, highByte a]

/-- An instruction is made by its own mnemonic's row, of its own operand bytes (R74). -/
theorem formMakes_operandBytes (i : Instr) : FormMakes (rowForm i.mnemonic) i (operandBytes config i) := by
  cases i
  case inc | dec | neg | not | psha | popa | halt => exact ⟨rfl, rfl⟩
  all_goals exact ⟨_, rfl, rfl⟩

/-- What a mnemonic's row makes of some operand bytes is encoded as the row's opcode and those
bytes (R70, R74). -/
theorem encode_of_formMakes {m : Mnemonic} {i : Instr} {operands : List Byte}
    (h : FormMakes (rowForm m) i operands) : encode i = config.opcodeByte m :: operands := by
  cases m
  case inc | dec | neg | not | psha | popa | halt => obtain ⟨rfl, rfl⟩ := h; rfl
  all_goals obtain ⟨_, rfl, rfl⟩ := h; rfl

/-- What the decoder does with the bytes after an opcode, from the format of the opcode's row (R70, R71). -/
def readOperands : RowForm → List Byte → Except DecodeError (Instr × List Byte)
  | .op i, tail => .ok (i, tail)
  | .imm8 mk, n :: tail => .ok (mk n, tail)
  | .addr16 mk, lo :: hi :: tail => .ok (mk (wordOfBytes lo hi), tail)
  | _, _ => .error .truncated

/-- After a mnemonic's opcode the decoder reads the operands of its row (R74). -/
theorem decode_opcodeByte (m : Mnemonic) (tail : List Byte) :
    decode (config.opcodeByte m :: tail) = readOperands (rowForm m) tail := by
  simp only [decode, decodeWith, mnemonicOf_opcodeByte, Option.map_some]
  cases rowForm m with
  | op i => rfl
  | imm8 mk => cases tail <;> rfl
  | addr16 mk => rcases tail with _ | ⟨lo, _ | ⟨hi, tail⟩⟩ <;> rfl

/-- A first byte that is no mnemonic's opcode is rejected by name, whatever follows (R76). -/
theorem decode_of_mnemonicOf_none {b : Byte} (h : mnemonicOf config b = none) (tail : List Byte) :
    decode (b :: tail) = .error (.undefinedOpcode b) := by
  simp only [decode, decodeWith, h, Option.map_none]

/-- Reading operands answers an instruction exactly when the bytes begin with operand bytes the
form makes it of. -/
theorem readOperands_eq_ok_iff {f : RowForm} {tail rest : List Byte} {i : Instr} :
    readOperands f tail = .ok (i, rest) ↔
      ∃ operands, FormMakes f i operands ∧ tail = operands ++ rest := by
  constructor
  · intro h
    cases f with
    | op j =>
      obtain ⟨rfl, rfl⟩ : j = i ∧ tail = rest := by simpa [readOperands] using h
      exact ⟨[], ⟨rfl, rfl⟩, rfl⟩
    | imm8 mk =>
      rcases tail with _ | ⟨n, tail⟩
      · nomatch h
      · obtain ⟨rfl, rfl⟩ : mk n = i ∧ tail = rest := by simpa [readOperands] using h
        exact ⟨[n], ⟨n, rfl, rfl⟩, rfl⟩
    | addr16 mk =>
      rcases tail with _ | ⟨lo, _ | ⟨hi, tail⟩⟩
      · nomatch h
      · nomatch h
      · obtain ⟨rfl, rfl⟩ : mk (wordOfBytes lo hi) = i ∧ tail = rest := by simpa [readOperands] using h
        exact ⟨[lo, hi], ⟨wordOfBytes lo hi, rfl, by simp⟩, rfl⟩
  · rintro ⟨operands, hmakes, rfl⟩
    cases f with
    | op j => obtain ⟨rfl, rfl⟩ := hmakes; rfl
    | imm8 mk => obtain ⟨n, rfl, rfl⟩ := hmakes; rfl
    | addr16 mk => obtain ⟨a, rfl, rfl⟩ := hmakes; simp [readOperands]

/-- After a defined opcode the decoder names no undefined one. -/
theorem readOperands_ne_undefinedOpcode (f : RowForm) (tail : List Byte) (b : Byte) :
    readOperands f tail ≠ .error (.undefinedOpcode b) := by
  cases f with
  | op i => nofun
  | imm8 mk => cases tail <;> nofun
  | addr16 mk => rcases tail with _ | ⟨lo, _ | ⟨hi, tail⟩⟩ <;> nofun

/-- The decoder reads exactly a mnemonic's opcode and operand bytes that its row makes an instruction of. -/
theorem decode_eq_ok_iff {bytes rest : List Byte} {i : Instr} :
    decode bytes = .ok (i, rest) ↔
      ∃ m operands, FormMakes (rowForm m) i operands ∧
        bytes = config.opcodeByte m :: operands ++ rest := by
  constructor
  · intro h
    cases bytes with
    | nil => nomatch h
    | cons b tail =>
      cases hm : mnemonicOf config b with
      | none => nomatch (decode_of_mnemonicOf_none hm tail).symm.trans h
      | some m =>
        obtain rfl := opcodeByte_of_mnemonicOf hm
        obtain ⟨operands, hmakes, rfl⟩ :=
          readOperands_eq_ok_iff.mp ((decode_opcodeByte m tail).symm.trans h)
        exact ⟨m, operands, hmakes, rfl⟩
  · rintro ⟨m, operands, hmakes, rfl⟩
    exact (decode_opcodeByte m _).trans (readOperands_eq_ok_iff.mpr ⟨operands, hmakes, rfl⟩)

/-- The decoder names a first byte as undefined exactly when the opcode map lacks it (R76). -/
theorem decode_eq_undefinedOpcode_iff (b : Byte) (rest : List Byte) :
    decode (b :: rest) = .error (.undefinedOpcode b) ↔ definedOpcode config b = false := by
  cases hm : mnemonicOf config b with
  | none => simp [decode_of_mnemonicOf_none hm, definedOpcode, hm]
  | some m =>
    obtain rfl := opcodeByte_of_mnemonicOf hm
    simp [decode_opcodeByte, readOperands_ne_undefinedOpcode, definedOpcode]

/-- Settles O2: an encoding is the opcode of the instruction's row and the operand bytes the row makes
it of. -/
theorem decodeInvertsEncode : Obligations.DecodeInvertsEncode :=
  fun i _ => decode_eq_ok_iff.mpr ⟨i.mnemonic, operandBytes config i, formMakes_operandBytes i, rfl⟩

/-- Settles O3: the row that the decoder reads the instruction from is the one that encodes it. -/
theorem encodeInvertsDecode : Obligations.EncodeInvertsDecode := by
  intro bytes rest i h
  obtain ⟨m, operands, hmakes, rfl⟩ := decode_eq_ok_iff.mp h
  rw [encode_of_formMakes hmakes]

/-- Settles O4: the rejected bytes are the complement of the defined ones. -/
theorem undefinedBytesAreRejected : Obligations.UndefinedBytesAreRejected := by
  intro b rest
  refine ⟨definedOpcode_iff b, ?_⟩
  rw [decode_eq_undefinedOpcode_iff, ← Bool.not_eq_true, definedOpcode_iff]
  omega

/-- Settles O1: each byte string is the encoding of its instruction and the bytes left over. -/
theorem specWordsDecode : Obligations.SpecWordsDecode :=
  ⟨decodeInvertsEncode (.lodi 0x01#8) [0x22#8], decodeInvertsEncode (.adda 0x0022#16) [],
    decodeInvertsEncode (.anda 0x0060#16) [], decodeInvertsEncode (.bcs 0xABCD#16) [],
    decodeInvertsEncode .psha [], decodeInvertsEncode .halt []⟩

end Sys2Proof.Machine
end

section
/-! PROOFS (40_control_word_and_rom.md). The control ROM: its addresses (R108), its rows (R110 to R115), the
undefined opcodes (R113, R119) and the conditions W1 to W7 on its words (R118). -/

namespace Sys2Proof.Machine

/-! ### ROM addresses -/

/-- A ROM address is its three fields side by side (R108). -/
theorem romAddressOf_eq_append (f : BitVec 4) (op : Byte) (st : BitVec 4) :
    romAddressOf f op st = f ++ op ++ st := by
  apply BitVec.eq_of_getLsbD_eq
  intro i hi
  simp only [BitVec.getLsbD_append, romAddressOf]
  interval_cases i <;> simp

theorem romAddressOf_toNat (f : BitVec 4) (op : Byte) (st : BitVec 4) :
    (romAddressOf f op st).toNat = f.toNat * 4096 + op.toNat * 16 + st.toNat := by
  rw [romAddressOf_eq_append, BitVec.toNat_append, ← Nat.shiftLeft_add_eq_or_of_lt st.isLt,
    BitVec.toNat_append, ← Nat.shiftLeft_add_eq_or_of_lt op.isLt]
  simp only [Nat.shiftLeft_eq]
  omega

/-- Bits 15:12 of the ROM address are the live flags `V N C Z` (R33, R108). -/
theorem getLsbD_romAddress_flag (s : State) {f : Flag} (hf : f ≠ .i) :
    (romAddress s).getLsbD (12 + config.flagBit f) = getFlag config s.flags f := by
  have hlt : config.flagBit f < 4 := by
    cases f
    case i => exact absurd rfl hf
    all_goals decide
  have nibble := romAddressOf_flags (s.flags.extractLsb' 0 4) s.ir s.stepCounter
  rw [← getLsbD_flagNibble s.flags hf, ← nibble, BitVec.getLsbD_extractLsb']
  simp [hlt, romAddress]

/-- Settles O5: the address is its fields side by side, each flag a bit of the flag nibble. -/
theorem romAddressIsFlagsOpcodeStep : Obligations.RomAddressIsFlagsOpcodeStep := by
  intro s
  refine ⟨?_, getLsbD_romAddress_flag s (f := .z) (by decide),
    getLsbD_romAddress_flag s (f := .c) (by decide), getLsbD_romAddress_flag s (f := .n) (by decide),
    getLsbD_romAddress_flag s (f := .v) (by decide), fun cfg rom hd => ?_⟩
  · rw [romAddress, romAddressOf_toNat]
    simp
  · rw [lookUp, if_pos hd]

/-! ### Rows of a compiled ROM -/

/-- The row of a defined opcode is the micro-program that its flags select (R110). -/
theorem compiledWord_of_mnemonicOf {cfg : Config} {op : Byte} {m : Mnemonic} (h : mnemonicOf cfg op = some m)
    (f st : BitVec 4) : compiledWord cfg f op st
      = (microProgram cfg (overrideMnemonic cfg f m)).getD st.toNat 0 := by
  simp only [compiledWord, h]

/-- The rows of an undefined opcode are zero words (R113). -/
theorem compiledWord_of_mnemonicOf_none {cfg : Config} {op : Byte} (h : mnemonicOf cfg op = none)
    (f st : BitVec 4) : compiledWord cfg f op st = 0#32 := by
  simp only [compiledWord, h]; rfl

/-- The reference ROM's row of a mnemonic's opcode. -/
theorem referenceRom_opcodeByte (m : Mnemonic) (f st : BitVec 4) :
    referenceRom (romAddressOf f (config.opcodeByte m) st)
      = (microProgram config (overrideMnemonic config f m)).getD st.toNat 0 := by
  rw [referenceRom_romAddressOf, compiledWord_of_mnemonicOf (mnemonicOf_opcodeByte m)]

/-- Every compiled ROM shares its fetch rows, as every micro-program begins with the fetch words (R115 a). -/
theorem fetchRowsShared_compiledRom (cfg : Config) : FetchRowsShared cfg (compiledRom cfg) := by
  intro f op hd
  obtain ⟨m, hm⟩ := Option.isSome_iff_exists.mp hd
  simp [compiledWord_of_mnemonicOf hm, microProgram]

/-- Only BCS and BEQ have override rows (R111, R112). -/
theorem overrideMnemonic_of_ne {m : Mnemonic} (hbcs : m ≠ .bcs) (hbeq : m ≠ .beq) (cfg : Config)
    (f : BitVec 4) : overrideMnemonic cfg f m = m := by
  cases m
  case bcs => exact absurd rfl hbcs
  case beq => exact absurd rfl hbeq
  all_goals rfl

/-- The rows of an opcode without override do not depend on the flags (R115 d). -/
theorem referenceRom_flags_irrelevant {op : Byte} (hbcs : op ≠ config.opcodeByte .bcs)
    (hbeq : op ≠ config.opcodeByte .beq) (f g st : BitVec 4) :
    referenceRom (romAddressOf f op st) = referenceRom (romAddressOf g op st) := by
  rw [referenceRom_romAddressOf, referenceRom_romAddressOf]
  cases hm : mnemonicOf config op with
  | none => rw [compiledWord_of_mnemonicOf_none hm, compiledWord_of_mnemonicOf_none hm]
  | some m =>
    obtain rfl := opcodeByte_of_mnemonicOf hm
    have own := overrideMnemonic_of_ne (m := m) (fun e => hbcs (e ▸ rfl)) (fun e => hbeq (e ▸ rfl)) config
    rw [compiledWord_of_mnemonicOf hm, compiledWord_of_mnemonicOf hm, own, own]

/-- A branch taken has JMP's row, word for word (R111). -/
theorem referenceRom_of_override_jmp {f : BitVec 4} {m : Mnemonic}
    (h : overrideMnemonic config f m = .jmp) (st : BitVec 4) :
    referenceRom (romAddressOf f (config.opcodeByte m) st)
      = referenceRom (romAddressOf f (config.opcodeByte .jmp) st) := by
  rw [referenceRom_opcodeByte, referenceRom_opcodeByte, h]
  rfl

theorem fetch0_config : fetch0 config = 0x00000401#32 := by decide

theorem fetch1_config : fetch1 config = 0x00024010#32 := by decide

/-- A branch not taken has its own row: the fetch words and the word that skips the operand (R105, R116). -/
theorem referenceRom_of_override_self {f : BitVec 4} {m : Mnemonic}
    (h : overrideMnemonic config f m = m) (hskip : config.execute m = [skipWord]) (st : BitVec 4) :
    referenceRom (romAddressOf f (config.opcodeByte m) st)
      = ([0x00000401#32, 0x00024010#32, 0x40040000#32] : List ControlWord).getD st.toNat 0 := by
  have skip : controlWord config skipWord = 0x40040000#32 := by decide
  rw [referenceRom_opcodeByte, h, microProgram, hskip, fetch0_config, fetch1_config, List.map_singleton, skip]

/-- Settles O6: the row of each opcode is its micro-program, or JMP's where the flags override it. -/
theorem fetchRowsAndOverrides : Obligations.FetchRowsAndOverrides := by
  refine ⟨fun f op hop => ?_,
    fun f st hf => referenceRom_of_override_jmp (m := .bcs) (if_pos hf) st,
    fun f st hf => referenceRom_of_override_self (m := .bcs) (if_neg (Bool.eq_false_iff.mp hf)) rfl st,
    fun f st hf => referenceRom_of_override_jmp (m := .beq) (if_pos hf) st,
    fun f st hf => referenceRom_of_override_self (m := .beq) (if_neg (Bool.eq_false_iff.mp hf)) rfl st,
    fun f g st op hbcs hbeq => referenceRom_flags_irrelevant hbcs hbeq f g st⟩
  rw [← fetch0_config, ← fetch1_config]
  exact fetchRowsShared_compiledRom config f op ((definedOpcode_iff op).mpr hop)

/-! ### Undefined opcodes -/

theorem definedOpcode_eq_false_of_le {op : Byte} (h : 0x23 ≤ op.toNat) : definedOpcode config op = false := by
  rw [← Bool.not_eq_true, definedOpcode_iff]
  omega

/-- Settles O7: the opcode map lacks the byte, so its rows are empty and the look-up faults. -/
theorem undefinedOpcodeRowsAreZero : Obligations.UndefinedOpcodeRowsAreZero := by
  refine ⟨fun f st op hop => ?_, fun p rom s hir => ?_⟩
  · rw [referenceRom_romAddressOf]
    have hnone : mnemonicOf config op = none := by
      simpa [definedOpcode] using definedOpcode_eq_false_of_le hop
    exact compiledWord_of_mnemonicOf_none hnone f st
  · simp [lookUp, definedOpcode_eq_false_of_le hir]

/-! ### Well-formedness -/

/-- A word of a compiled ROM is a zero word or stands in a micro-program (R110, R113, R114). -/
theorem compiledRom_eq_zero_or_mem (cfg : Config) (addr : BitVec 16) :
    compiledRom cfg addr = 0#32 ∨ ∃ m, compiledRom cfg addr ∈ microProgram cfg m := by
  rw [compiledRom]
  cases hm : mnemonicOf cfg (addr.extractLsb' 4 8) with
  | none => exact .inl (compiledWord_of_mnemonicOf_none hm _ _)
  | some m =>
    rw [compiledWord_of_mnemonicOf hm, List.getD_eq_getElem?_getD]
    cases hw : (microProgram cfg (overrideMnemonic cfg (addr.extractLsb' 12 4) m))[
        (addr.extractLsb' 0 4).toNat]? with
    | none => exact .inl rfl
    | some cw => exact .inr ⟨_, List.mem_of_getElem? hw⟩

/-- The micro-programs of R116 are written of words that meet W2 to W7. -/
theorem wordWellFormed_of_mem_microProgram {m : Mnemonic} {cw : ControlWord}
    (h : cw ∈ microProgram config m) : wordWellFormed config cw = true := by
  have all : (microProgram config m).all (wordWellFormed config) = true := by cases m <;> decide
  exact List.all_eq_true.mp all cw h

theorem wordWellFormed_zero : wordWellFormed config 0#32 = true := by decide

/-- W2 to W7 hold of every word of the reference ROM (R118). -/
theorem wordWellFormed_referenceRom (addr : BitVec 16) : wordWellFormed config (referenceRom addr) = true := by
  obtain hzero | ⟨m, hmem⟩ := compiledRom_eq_zero_or_mem config addr
  · exact (congrArg _ hzero).trans wordWellFormed_zero
  · exact wordWellFormed_of_mem_microProgram hmem

/-- Settles O8: W1 holds of every compiled ROM; W2 to W7 hold of the zero word and of the micro-programs. -/
theorem referenceRomIsWellFormed : Obligations.ReferenceRomIsWellFormed :=
  ⟨fetchRowsShared_compiledRom config, wordWellFormed_referenceRom⟩

end Sys2Proof.Machine
end

section
/-! PROOFS (40_control_word_and_rom.md). What the engine takes from a control word: its signals and its ALU field,
so that the zero word does nothing (R104) and the reserved bit has no effect (R103); and the net delta of
four signals (R101, R142). -/

namespace Sys2Proof.Machine

/-! ### Net deltas -/

/-- The net delta under the spec's encoding: the deltas of the asserted signals, summed (R101). -/
theorem netDelta_config (cw : ControlWord) (inc1 inc2 dec1 dec2 : Signal) :
    netDelta config cw inc1 inc2 dec1 dec2
      = (asserts config cw inc1).toNat + 2 * (asserts config cw inc2).toNat
        - (asserts config cw dec1).toNat - 2 * (asserts config cw dec2).toNat := rfl

/-- Settles O16: the register wrap takes the sum of the deltas modulo 65536. -/
theorem netDeltaIsTheSumOfDeltas : Obligations.NetDeltaIsTheSumOfDeltas := by
  intro p cw inc1 inc2 dec1 dec2 x
  simp only [registerAdd_specConfig, netDelta_specConfig, asserts_specConfig]
  rw [registerAdd_toNat, netDelta_config]
  congr 1
  ring

/-! ### The zero word -/

@[simp] theorem asserts_zero (cfg : Config) (g : Signal) : asserts cfg 0#32 g = false :=
  BitVec.getLsbD_zero

/-- The ALU field of the zero word is NOP's code (R104, R161). -/
@[simp] theorem aluModeOfCode_zero : aluModeOfCode config (aluField config 0#32) = some .nop := by decide

/-- No delta is counted without a signal. -/
@[simp] theorem netDelta_zero (inc1 inc2 dec1 dec2 : Signal) :
    netDelta config 0#32 inc1 inc2 dec1 dec2 = 0 := by
  simp [netDelta_config]

/-- The zero word idles the data bus and advances `STEP` (R104). -/
theorem applyWord_zero (p : OpenParameters) (s : State) :
    applyWord (specConfig p) 0#32 s
      = .ok { s with dbus := idle (specConfig p) s.dbus, stepCounter := s.stepCounter + 1#4 } := by
  simp [applyWord, phaseAddressOut, phaseDataOut_eq, phaseAlu, phaseAddressIn_eq, phaseDataIn, phaseCount,
    phaseStep, phaseIdle]

/-! ### The reserved bit -/

/-- The phases read a control word through its signals and its ALU field alone (R100, R102). -/
theorem applyWord_congr {cfg : Config} {cw cw' : ControlWord} (hsig : asserts cfg cw = asserts cfg cw')
    (halu : aluField cfg cw = aluField cfg cw') : applyWord cfg cw = applyWord cfg cw' := by
  funext s
  unfold applyWord phaseAddressOut phaseDataOut phaseAlu phaseAddressIn phaseDataIn phaseCount netDelta
    phaseStep faultsAtLatch
  rw [hsig, halu]

/-- Setting bit 29 and clearing it differ in no other bit. -/
theorem getLsbD_reservedBit_set_clear (cw : ControlWord) {k : Nat} (hk : k ≠ reservedBit) :
    (cw ||| 0x20000000#32).getLsbD k = (cw &&& 0xDFFFFFFF#32).getLsbD k := by
  have hset : 0x20000000#32 = 1#32 <<< reservedBit := by decide
  have hclear : 0xDFFFFFFF#32 = ~~~(1#32 <<< reservedBit) := by decide
  by_cases hlt : k < 32
  · rw [hset, hclear, BitVec.getLsbD_or, BitVec.getLsbD_and, BitVec.getLsbD_not, getLsbD_one_shiftLeft hlt]
    simp [hk, hlt]
  · rw [BitVec.getLsbD_of_ge _ _ (by omega), BitVec.getLsbD_of_ge _ _ (by omega)]

/-- Bit 29 is no signal's (R103). -/
theorem asserts_reservedBit_set_clear (cw : ControlWord) :
    asserts config (cw ||| 0x20000000#32) = asserts config (cw &&& 0xDFFFFFFF#32) := by
  funext g
  have hg : signalBits g ≠ reservedBit := by cases g <;> decide
  exact getLsbD_reservedBit_set_clear cw hg

/-- Bit 29 is outside the ALU field (R102, R103). -/
theorem aluField_reservedBit_set_clear (cw : ControlWord) :
    aluField config (cw ||| 0x20000000#32) = aluField config (cw &&& 0xDFFFFFFF#32) := by
  apply BitVec.eq_of_getLsbD_eq
  intro i hi
  have hbit : 5 + i ≠ reservedBit := by simp only [reservedBit]; omega
  simp only [aluField, BitVec.getLsbD_extractLsb']
  exact congrArg (decide (i < 4) && ·) (getLsbD_reservedBit_set_clear cw hbit)

/-- W5 of a well-formed word (R118). -/
theorem getLsbD_reservedBit_of_wordWellFormed {cfg : Config} {cw : ControlWord}
    (h : wordWellFormed cfg cw = true) : cw.getLsbD reservedBit = false := by
  simp only [wordWellFormed, Bool.and_eq_true] at h
  obtain ⟨⟨⟨-, hbit⟩, -⟩, -⟩ := h
  simpa [reservedBitClear] using hbit

/-- Settles O13: the zero word asserts nothing, and bit 29 is neither a signal's nor in the ALU field. -/
theorem zeroWordAndReservedBit : Obligations.ZeroWordAndReservedBit := by
  refine ⟨fun p s hidle => ⟨asserts_zero _, aluModeOfCode_zero, ?_⟩, fun p cw s => ⟨?_, ?_⟩,
    fun addr => getLsbD_reservedBit_of_wordWellFormed (wordWellFormed_referenceRom addr)⟩
  · have bus : idle (specConfig p) s.dbus = 0xFF#8 := by simp [idle, specConfig, hidle]
    rw [applyWord_zero, bus]
  · exact congrFun (applyWord_congr (cfg := specConfig p) (asserts_reservedBit_set_clear cw)
      (aluField_reservedBit_set_clear cw)) s
  · exact congrFun (asserts_reservedBit_set_clear cw) .hlt

end Sys2Proof.Machine
end

section
/-! PROOFS (41_micro_step_engine.md). What a control word leaves once it applies without a fault, phase by phase
(R135 to R143); what a micro-step that stops changes (R133, R145); and the fetch of any ROM whose fetch rows are
shared (R146). -/

namespace Sys2Proof.Machine

/-! ### The buses a control word drives -/

/-- The address bus after phase 1: the last driver in listing order wins (R136). -/
def drivenAddress (cfg : Config) (cw : ControlWord) (s : State) : Word :=
  if asserts cfg cw .mao then addressOfBytes cfg (s.mem.read s.mar) (s.mem.read (s.mar + 1#16))
  else if asserts cfg cw .spo then s.sp else if asserts cfg cw .pco then s.pc else s.abus

/-- The data bus after phases 0 and 2, before the ALU drives it (R135, R137). -/
def drivenData (cfg : Config) (cw : ControlWord) (s : State) : Byte :=
  if asserts cfg cw .mo then s.mem.read s.mar else if asserts cfg cw .ao then s.a else idle cfg s.dbus

/-- The state after phases 0 to 3, in an ALU mode (R135 to R138). -/
def driveBuses (cfg : Config) (cw : ControlWord) (mode : AluMode) (s : State) : State :=
  { s with
    abus := drivenAddress cfg cw s
    dbus := (alu cfg mode s.a s.b s.flags).result.getD (drivenData cfg cw s)
    flags := (alu cfg mode s.a s.b s.flags).flags }

/-- Phase 1 (R136): `MAO` overwrites what `PCO` and `SPO` drive, or faults. -/
theorem phaseAddressOut_eq (cfg : Config) (cw : ControlWord) (s : State) :
    phaseAddressOut cfg cw s = if asserts cfg cw .mao
      then (s.mem.readWord cfg s.mar).map fun addr => { s with abus := addr }
      else .ok { s with
        abus := if asserts cfg cw .spo then s.sp else if asserts cfg cw .pco then s.pc else s.abus } := by
  cases hr : s.mem.readWord cfg s.mar <;> cases hs : asserts cfg cw .spo <;>
    cases hp : asserts cfg cw .pco <;> simp [phaseAddressOut, hr, hs, hp, Except.map]

/-- Where phase 1 does not fault, it leaves the address of its last driver. -/
theorem phaseAddressOut_ok {cfg : Config} {cw : ControlWord} {s t : State}
    (h : phaseAddressOut cfg cw s = .ok t) : t = { s with abus := drivenAddress cfg cw s } := by
  rw [phaseAddressOut_eq] at h
  split at h
  · next hm =>
    obtain ⟨-, e⟩ | ⟨-, e⟩ := readWord_cases cfg s.mem s.mar
    · rw [e] at h
      rw [← Except.ok.inj h, drivenAddress, if_pos hm]
    · rw [e] at h
      cases h
  · next hm => rw [← Except.ok.inj h, drivenAddress, if_neg hm]

/-! ### What a control word latches -/

/-- `PCHI` and `PCLI` each replace one byte of `PC` and keep the other (R141). -/
theorem phaseDataIn_pc (cfg : Config) (cw : ControlWord) (s : State) :
    (phaseDataIn cfg cw s).pc = wordOfBytes (if asserts cfg cw .pcli then s.dbus else lowByte s.pc)
      (if asserts cfg cw .pchi then s.dbus else highByte s.pc) := by
  cases hh : asserts cfg cw .pchi <;> cases hl : asserts cfg cw .pcli <;>
    simp [phaseDataIn, hh, hl, apply_ite State.pc, apply_ite State.dbus]

/-- Phases 4 to 7: what is made of a state whose buses are driven (R140 to R143). -/
def latchBuses (cfg : Config) (cw : ControlWord) (s : State) : State :=
  phaseStep cfg cw (phaseCount cfg cw (phaseDataIn cfg cw (phaseAddressIn cfg cw s)))

section
variable (cfg : Config) (cw : ControlWord) (s : State)

@[simp] theorem latchBuses_abus : (latchBuses cfg cw s).abus = s.abus := by
  simp only [latchBuses, phaseStep_abus, phaseCount_abus]
  rw [phaseDataIn_eq, phaseAddressIn_eq]

@[simp] theorem latchBuses_dbus : (latchBuses cfg cw s).dbus = s.dbus := by
  simp only [latchBuses, phaseStep_dbus, phaseCount_dbus]
  rw [phaseDataIn_eq, phaseAddressIn_eq]

@[simp] theorem latchBuses_flags : (latchBuses cfg cw s).flags = s.flags := by
  simp [latchBuses, phaseAddressIn_eq]

@[simp] theorem latchBuses_run : (latchBuses cfg cw s).run = s.run := by
  simp [latchBuses, phaseAddressIn_eq]

@[simp] theorem latchBuses_stepCounter :
    (latchBuses cfg cw s).stepCounter = if asserts cfg cw .sr then 0#4 else s.stepCounter + 1#4 := by
  simp [latchBuses, phaseAddressIn_eq]

@[simp] theorem latchBuses_mem : (latchBuses cfg cw s).mem = if asserts cfg cw .mw then
    s.mem.write (if asserts cfg cw .mi then s.abus else s.mar) s.dbus else s.mem := by
  simp [latchBuses, phaseAddressIn_eq]

@[simp] theorem latchBuses_a : (latchBuses cfg cw s).a = if asserts cfg cw .ai then s.dbus else s.a := by
  simp only [latchBuses, phaseStep_a, phaseCount_a]
  rw [phaseDataIn_eq, phaseAddressIn_eq]

@[simp] theorem latchBuses_b : (latchBuses cfg cw s).b = if asserts cfg cw .bi then s.dbus else s.b := by
  simp only [latchBuses, phaseStep_b, phaseCount_b]
  rw [phaseDataIn_eq, phaseAddressIn_eq]

@[simp] theorem latchBuses_ir : (latchBuses cfg cw s).ir = if asserts cfg cw .ii then s.dbus else s.ir := by
  simp [latchBuses, phaseAddressIn_eq]

@[simp] theorem latchBuses_mar : (latchBuses cfg cw s).mar = cfg.registerAdd
    (if asserts cfg cw .mi then s.abus else s.mar) (netDelta cfg cw .mainc1 .mainc2 .madec1 .madec2) := by
  simp only [latchBuses, phaseStep_mar, phaseCount_mar]
  rw [phaseDataIn_eq, phaseAddressIn_eq]

@[simp] theorem latchBuses_sp : (latchBuses cfg cw s).sp
    = cfg.registerAdd s.sp (netDelta cfg cw .spinc1 .spinc2 .spdec1 .spdec2) := by
  simp only [latchBuses, phaseStep_sp, phaseCount_sp]
  rw [phaseDataIn_eq, phaseAddressIn_eq]

/-- The bytes of `PC` are replaced on the `PC` that `PCI` loads, before the deltas (R140 to R142). -/
@[simp] theorem latchBuses_pc : (latchBuses cfg cw s).pc = cfg.registerAdd
    (wordOfBytes
      (if asserts cfg cw .pcli then s.dbus else lowByte (if asserts cfg cw .pci then s.abus else s.pc))
      (if asserts cfg cw .pchi then s.dbus else highByte (if asserts cfg cw .pci then s.abus else s.pc)))
    (netDelta cfg cw .pcinc1 .pcinc2 .pcdec1 .pcdec2) := by
  simp only [latchBuses, phaseStep_pc, phaseCount_pc, phaseDataIn_pc, phaseAddressIn_eq]

end

/-! ### A control word that does not fault -/

/-- A word that applies without a fault drives the buses in a named ALU mode, then latches them (R131, R134). -/
theorem applyWord_ok {cfg : Config} {cw : ControlWord} {s t : State} (h : applyWord cfg cw s = .ok t) :
    ∃ mode, aluModeOfCode cfg (aluField cfg cw) = some mode ∧
      t = latchBuses cfg cw (driveBuses cfg cw mode s) := by
  obtain ⟨s1, s3, h1, h3, -, e⟩ | ⟨r, e⟩ := applyWord_cases cfg cw s
  · obtain ⟨mode, hm, e3⟩ | ⟨-, e3⟩ := phaseAlu_cases cfg cw (phaseDataOut cfg cw s1)
    · obtain rfl := phaseAddressOut_ok h1
      obtain rfl := Except.ok.inj (e3.symm.trans h3)
      obtain rfl := Except.ok.inj (e.symm.trans h)
      exact ⟨mode, hm, by rw [phaseDataOut_eq]; rfl⟩
    · cases e3.symm.trans h3
  · cases e.symm.trans h

/-- Settles O14: the buses and `FLAGS` are those of `driveBuses`, which the latches keep. -/
theorem busesAfterAControlWord : Obligations.BusesAfterAControlWord := by
  intro cfg cw s t h
  obtain ⟨mode, hm, rfl⟩ := applyWord_ok h
  exact ⟨latchBuses_abus .., mode, hm, latchBuses_flags .., latchBuses_dbus ..⟩

/-- Settles O15: the latches of `latchBuses`, under the spec's delta encoding and register wrap. -/
theorem latchesAfterAControlWord : Obligations.LatchesAfterAControlWord := by
  intro p cw s t cfg mar pc delta h
  obtain ⟨mode, -, rfl⟩ := applyWord_ok h
  simp only [mar, pc, latchBuses_abus, latchBuses_dbus]
  exact ⟨latchBuses_mem .., latchBuses_a .., latchBuses_b .., latchBuses_ir .., latchBuses_mar ..,
    latchBuses_sp .., latchBuses_pc .., latchBuses_stepCounter .., latchBuses_run ..⟩

/-! ### Micro-steps that stop -/

/-- Settles O10: a halt and a fault are updates of `RUN`; a word that applies keeps the machine running. -/
theorem stoppingMicroStepChangesOnlyRun : Obligations.StoppingMicroStepChangesOnlyRun := by
  intro cfg rom s t ht hstop
  obtain ⟨hrun, rfl⟩ := microStepWith_next ht
  obtain ⟨-, e⟩ | ⟨-, -, e⟩ | ⟨-, -, u, hu, e⟩ | ⟨-, -, r, -, e⟩ := microStepRunning_cases cfg rom s
  · rw [e]; rfl
  · rw [e]; rfl
  · obtain ⟨hkeep, -⟩ := applyWord_frame hu
    exact absurd (by rw [e, hkeep, hrun]) hstop
  · rw [e]; rfl

/-! ### The fetch, for any ROM with shared fetch rows -/

/-- A word without `HLT` that applies is what the micro-step does (R131). -/
theorem microStepRunning_of_applyWord {cfg : Config} {rom : Rom} {cw : ControlWord} {s t : State}
    (hd : definedOpcode cfg s.ir = true) (hrow : rom (romAddress s) = cw) (hh : asserts cfg cw .hlt = false)
    (ha : applyWord cfg cw s = .ok t) : microStepRunning cfg rom s = t := by
  simp [microStepRunning, lookUp, hd, hrow, hh, ha]

/-- FETCH at step 0 (R105, R146). -/
theorem applyWord_fetch0 (p : OpenParameters) (s : State) :
    applyWord (specConfig p) (fetch0 config) s = .ok { s with
      abus := s.pc, mar := s.pc, dbus := idle (specConfig p) s.dbus, stepCounter := s.stepCounter + 1#4 } := by
  simp [fetch0, applyWord, phaseAddressOut, phaseDataOut_eq, phaseAlu, phaseAddressIn_eq, phaseDataIn, phaseCount,
    phaseStep, phaseIdle, netDelta_controlWord]

/-- DECODE at step 1 (R105, R146). -/
theorem applyWord_fetch1 (p : OpenParameters) (s : State) :
    applyWord (specConfig p) (fetch1 config) s = .ok { s with
      ir := s.mem.read s.mar, dbus := s.mem.read s.mar, pc := s.pc + 1#16
      stepCounter := s.stepCounter + 1#4 } := by
  simp [fetch1, applyWord, phaseAddressOut, phaseDataOut_eq, phaseAlu, phaseAddressIn_eq, phaseDataIn, phaseCount,
    phaseStep, phaseIdle, netDelta_controlWord]

/-- Step 0 of a machine at a boundary, under any ROM with shared fetch rows (R146). -/
theorem microStepRunning_fetch0 {p : OpenParameters} {rom : Rom} {s : State} (hrows : FetchRowsShared config rom)
    (hidle : p.dbusIdle = .everyStep) (hs : s.Ready) :
    microStepRunning (specConfig p) rom s = halfFetched s := by
  obtain ⟨⟨-, hstep⟩, hd⟩ := hs
  have row : rom (romAddress s) = fetch0 config := by
    rw [romAddress, hstep]; exact (hrows _ _ hd).1
  have bus : idle (specConfig p) s.dbus = 0xFF#8 := by simp [idle, specConfig, hidle]
  rw [microStepRunning_of_applyWord (cfg := specConfig p) hd row (by simp [fetch0]) (applyWord_fetch0 p s), bus, hstep]
  rfl

/-- Step 1 after it (R146). -/
theorem microStepRunning_fetch1 {p : OpenParameters} {rom : Rom} {s : State} (hrows : FetchRowsShared config rom)
    (hd : definedOpcode config s.ir = true) :
    microStepRunning (specConfig p) rom (halfFetched s) = afterFetch config (s.mem.read s.pc) s := by
  have row : rom (romAddress (halfFetched s)) = fetch1 config := (hrows _ _ hd).2
  exact microStepRunning_of_applyWord (cfg := specConfig p) hd row (by simp [fetch1])
    (applyWord_fetch1 p (halfFetched s))

/-- Settles O12: the first two micro-steps are FETCH and DECODE. -/
theorem fetchStepsForAnyRom : Obligations.FetchStepsForAnyRom := by
  intro p rom s hrows hidle hs
  have first := microStepRunning_fetch0 hrows hidle hs
  have second := microStepRunning_fetch1 (p := p) hrows hs.2
  have hrun : s.run = .running := hs.1.1
  have hhalf : (halfFetched s).run = .running := hrun
  constructor
  · rw [microRunWith_succ _ _ 0 hrun, first]; rfl
  · rw [microRunWith_succ _ _ 1 hrun, first, microRunWith_succ _ _ 0 hhalf, second]; rfl

/-! ### A step at an instruction boundary -/

/-- Settles O48: at a boundary the step decodes and runs `exec`. -/
theorem stepRunsTheDecodedInstruction : Obligations.StepRunsTheDecodedInstruction :=
  fun _ _ => step_of_fetches

end Sys2Proof.Machine
end

section
/-! PROOFS (42_alu_and_flags.md sections 2 and 3). The four flags after `WriteVNCZ` (R173), and the result and flags of
`Add` and `Sub` as unsigned and signed arithmetic (R170 to R172, R180). -/

namespace Sys2Proof.Machine

/-! ### The flags register after `WriteVNCZ` -/

section
variable (flags : Byte) (f : Vncz)

@[simp] theorem getFlag_writeVncz_v : getFlag config (writeVncz config flags f) .v = f.v := by
  simp [writeVncz, getFlag_setFlag_other]

@[simp] theorem getFlag_writeVncz_n : getFlag config (writeVncz config flags f) .n = f.n := by
  simp [writeVncz, getFlag_setFlag_other]

@[simp] theorem getFlag_writeVncz_c : getFlag config (writeVncz config flags f) .c = f.c := by
  simp [writeVncz, getFlag_setFlag_other]

@[simp] theorem getFlag_writeVncz_z : getFlag config (writeVncz config flags f) .z = f.z := by
  simp [writeVncz]

end

/-- Settles O21: each of bits 0 to 3 is a flag of R33, read back as it was written. -/
theorem writeVnczReplacesFourBits : Obligations.WriteVnczReplacesFourBits := fun flags f =>
  ⟨getFlag_writeVncz_v flags f, getFlag_writeVncz_n flags f, getFlag_writeVncz_c flags f,
    getFlag_writeVncz_z flags f, writeVncz_high flags f⟩

/-- Settles O22: none of the four modes calls `WriteVNCZ`, and their operands are `A` and `B` at any parameters. -/
theorem nonArithmeticModes : Obligations.NonArithmeticModes :=
  fun p a b flags => ⟨alu_nop (specConfig p) a b flags, rfl, rfl, rfl⟩

/-! ### The two readings of a byte -/

theorem getLsbD_seven (x : Byte) : x.getLsbD 7 = x.msb := rfl

/-- The signed and the unsigned reading of a byte, which differ by 256 where they differ. -/
theorem toInt_readings (x : Byte) :
    -128 ≤ x.toInt ∧ x.toInt ≤ 127 ∧ 0 ≤ (x.toNat : Int) ∧ (x.toNat : Int) ≤ 255 ∧
      (x.toInt = x.toNat ∨ x.toInt = x.toNat - 256) := by
  have hlt := x.isLt
  rw [BitVec.toInt_eq_toNat_cond]
  split <;> omega

/-! ### `Add` -/

section
variable (cfg : Config) (x y : Byte) (cin : Bool)

theorem aluAdd_toNat : (aluAdd cfg x y cin).1.toNat = (x.toNat + y.toNat + cin.toNat) % 256 :=
  BitVec.toNat_ofNat ..

/-- `N` is bit 7 of the truncated sum, and `V` and `N` of R170 take that bit from the untruncated one. -/
theorem aluAdd_n : (aluAdd cfg x y cin).2.n = (aluAdd cfg x y cin).1.msb := by
  rw [← getLsbD_seven]
  simp [aluAdd, BitVec.getLsbD_ofNat, -BitVec.getLsbD_eq_getElem]

theorem aluAdd_v :
    (aluAdd cfg x y cin).2.v = (x.msb == y.msb && (aluAdd cfg x y cin).1.msb != x.msb) := by
  rw [← aluAdd_n]; rfl

/-- `C` is bit 8 of a sum that is at most 511. -/
theorem aluAdd_c_iff : (aluAdd cfg x y cin).2.c = true ↔ 255 < x.toNat + y.toNat + cin.toNat := by
  have hx := x.isLt
  have hy := y.isLt
  have hcin := cin.toNat_le
  simp only [aluAdd, Nat.testBit_eq_decide_div_mod_eq, decide_eq_true_eq]
  omega

/-- The result and the carry together are the untruncated sum. -/
theorem aluAdd_sum : (aluAdd cfg x y cin).1.toNat + 256 * (aluAdd cfg x y cin).2.c.toNat
    = x.toNat + y.toNat + cin.toNat := by
  have hx := x.isLt
  have hy := y.isLt
  have hcin := cin.toNat_le
  have hr := aluAdd_toNat cfg x y cin
  have hc := aluAdd_c_iff cfg x y cin
  have hcout := (aluAdd cfg x y cin).2.c.toNat_le
  rw [← Bool.toNat_eq_one] at hc
  omega

/-- Signed overflow of an addition is equal operand signs and another sign of the result (R170). -/
theorem aluAdd_v_iff : (aluAdd cfg x y cin).2.v = true ↔
    x.toInt + y.toInt + cin.toNat < -128 ∨ 127 < x.toInt + y.toInt + cin.toNat := by
  have hx := toInt_readings x
  have hy := toInt_readings y
  have hr := toInt_readings (aluAdd cfg x y cin).1
  have hsum := aluAdd_sum cfg x y cin
  have hcin := cin.toNat_le
  have hcout := (aluAdd cfg x y cin).2.c.toNat_le
  simp only [aluAdd_v, BitVec.msb_eq_toInt, Bool.and_eq_true, beq_iff_eq, bne_iff_ne, ne_eq, decide_eq_decide]
  omega

end

/-- Settles O18: the untruncated sum gives result and `C`, its signed reading `V`. -/
theorem additionLaws : Obligations.AdditionLaws := fun x y cin =>
  ⟨aluAdd_toNat config x y cin, aluAdd_c_iff config x y cin, aluAdd_v_iff config x y cin,
    beq_iff_eq, aluAdd_n config x y cin⟩

/-! ### `Sub` -/

section
variable (cfg : Config) (x y : Byte) (cin : Bool)

theorem aluSub_result : (aluSub cfg x y cin).1 = x - y - BitVec.ofNat 8 cin.toNat := rfl

theorem aluSub_toNat :
    ((aluSub cfg x y cin).1.toNat : Int) = (x.toNat - y.toNat - cin.toNat : Int) % 256 := by
  have hx := x.isLt
  have hy := y.isLt
  have hcin := cin.toNat_le
  rw [aluSub_result, BitVec.toNat_sub, BitVec.toNat_sub, BitVec.toNat_ofNat]
  omega

/-- The borrow formula of R171 reads bit 7 of the operands and the result alone. -/
theorem aluSub_c : (aluSub cfg x y cin).2.c =
    ((!x.msb && y.msb) || (!(x.msb ^^ y.msb) && (aluSub cfg x y cin).1.msb)) := by
  simp only [aluSub, BitVec.getLsbD_ushiftRight, BitVec.getLsbD_or, BitVec.getLsbD_and, BitVec.getLsbD_not,
    BitVec.getLsbD_xor]
  simp only [Nat.reduceAdd, getLsbD_seven, Nat.reduceLT, decide_true, Bool.true_and]

/-- `C` of a subtraction is the borrow (R171, R180). -/
theorem aluSub_c_iff : (aluSub cfg x y cin).2.c = true ↔ x.toNat < y.toNat + cin.toNat := by
  have hx := toInt_readings x
  have hy := toInt_readings y
  have hr := toInt_readings (aluSub cfg x y cin).1
  have hdiff := aluSub_toNat cfg x y cin
  have hcin := cin.toNat_le
  simp only [aluSub_c, BitVec.msb_eq_toInt, Bool.or_eq_true, Bool.and_eq_true, Bool.not_eq_true',
    bne_eq_false_iff_eq, decide_eq_decide, decide_eq_true_eq, decide_eq_false_iff_not]
  omega

/-- The result is the difference plus 256 times the borrow. -/
theorem aluSub_difference : (aluSub cfg x y cin).1.toNat + y.toNat + cin.toNat
    = x.toNat + 256 * (aluSub cfg x y cin).2.c.toNat := by
  have hx := x.isLt
  have hy := y.isLt
  have hcin := cin.toNat_le
  have hr := aluSub_toNat cfg x y cin
  have hc := aluSub_c_iff cfg x y cin
  have hcout := (aluSub cfg x y cin).2.c.toNat_le
  rw [← Bool.toNat_eq_one] at hc
  omega

/-- Signed overflow of a subtraction is different operand signs and the result's sign not the minuend's (R171). -/
theorem aluSub_v_iff (h : cfg.subVRule = .signed) : (aluSub cfg x y cin).2.v = true ↔
    x.toInt - y.toInt - cin.toNat < -128 ∨ 127 < x.toInt - y.toInt - cin.toNat := by
  have hx := toInt_readings x
  have hy := toInt_readings y
  have hr := toInt_readings (aluSub cfg x y cin).1
  have hdiff := aluSub_difference cfg x y cin
  have hcin := cin.toNat_le
  have hcout := (aluSub cfg x y cin).2.c.toNat_le
  have hv : (aluSub cfg x y cin).2.v = (x.msb != y.msb && (aluSub cfg x y cin).1.msb != x.msb) := by
    simp [aluSub, subOverflow, h]
  simp only [hv, BitVec.msb_eq_toInt, Bool.and_eq_true, bne_iff_ne, ne_eq, decide_eq_decide]
  omega

end

/-- Settles O19: the bit formula of `C` is the borrow, and `V` is the default rule's (D8). -/
theorem subtractionLaws : Obligations.SubtractionLaws := fun x y cin =>
  ⟨aluSub_toNat config x y cin, aluSub_c_iff config x y cin, aluSub_v_iff config x y cin rfl,
    beq_iff_eq, rfl⟩

/-! ### The alternative flag rules -/

theorem aluSub_v_of_addShape {cfg : Config} (h : cfg.subVRule = .addShape) (x y : Byte) (cin : Bool) :
    (aluSub cfg x y cin).2.v = (x.msb == y.msb && (aluSub cfg x y cin).1.msb != x.msb) := by
  simp [aluSub, subOverflow, h]

theorem aluAdd_z_of_fullSum {cfg : Config} (h : cfg.addZRule = .fullSum) (x y : Byte) (cin : Bool) :
    (aluAdd cfg x y cin).2.z = true ↔ x.toNat + y.toNat + cin.toNat = 0 := by
  simp [aluAdd, h]

theorem aluAdd_z_of_truncated {cfg : Config} (h : cfg.addZRule = .truncated) (x y : Byte) (cin : Bool) :
    (aluAdd cfg x y cin).2.z = true ↔ (x.toNat + y.toNat + cin.toNat) % 256 = 0 := by
  have hz : (aluAdd cfg x y cin).2.z = ((aluAdd cfg x y cin).1 == 0#8) := by simp [aluAdd, h]
  rw [hz, beq_iff_eq, ← aluAdd_toNat cfg, ← BitVec.toNat_inj]
  rfl

/-- The two rules of `Z` part at a sum of 0x100, the one multiple of 256 from 1 to 511 (R170). -/
theorem aluAdd_z_ne_iff {cfg cfg' : Config} (hfull : cfg.addZRule = .fullSum) (htrunc : cfg'.addZRule = .truncated)
    (x y : Byte) (cin : Bool) : (aluAdd cfg x y cin).2.z ≠ (aluAdd cfg' x y cin).2.z ↔
      x.toNat + y.toNat + cin.toNat = 0x100 := by
  have hx := x.isLt
  have hy := y.isLt
  have hcin := cin.toNat_le
  rw [ne_eq, Bool.eq_iff_iff, aluAdd_z_of_fullSum hfull, aluAdd_z_of_truncated htrunc]
  omega

/-- Settles O20: `aluSub` reads `SUB_V_RULE` in `V` alone and `aluAdd` reads `ADD_Z_RULE` in `Z` alone. -/
theorem alternativeFlagRules : Obligations.AlternativeFlagRules := by
  intro p x y cin
  refine ⟨fun hv => ⟨aluSub_v_of_addShape hv x y cin, fun hne => ?_, ?_, rfl⟩,
    fun hz => ⟨aluAdd_z_of_fullSum hz x y cin, rfl, aluAdd_z_ne_iff hz rfl x y cin⟩⟩
  · have hmsb : (x.msb == y.msb) = false := beq_eq_false_iff_ne.mpr hne
    rw [aluSub_v_of_addShape hv, hmsb, Bool.false_and]
  · rw [aluSub_v_of_addShape hv, aluSub_result]
    decide

end Sys2Proof.Machine
end

section
/-! PROOFS (42_alu_and_flags.md). What the ALU's modes leave, from the laws of `Add` and `Sub`: the comparison's
orders (R179), INC, DEC and NEG (R176 to R178), and multi-byte numbers by carry and borrow (R181). -/

namespace Sys2Proof.Machine

/-! ### CMP -/

/-- A subtraction without borrow-in leaves `Z` exactly at equal operands. -/
theorem aluSub_z_iff_eq (cfg : Config) (x y : Byte) : (aluSub cfg x y false).2.z = true ↔ x = y := by
  have hz : (aluSub cfg x y false).2.z = (x - y - 0#8 == 0#8) := rfl
  rw [hz, beq_iff_eq, BitVec.sub_zero]
  exact sub_eq_zero

/-- `N` differs from `V` exactly at a negative signed difference: without overflow `N` is its sign, and with
overflow the opposite. -/
theorem aluSub_n_ne_v_iff (x y : Byte) :
    (aluSub config x y false).2.n ≠ (aluSub config x y false).2.v ↔ x.toInt < y.toInt := by
  have hx := toInt_readings x
  have hy := toInt_readings y
  have hr := toInt_readings (aluSub config x y false).1
  have hdiff := aluSub_difference config x y false
  have hcout := (aluSub config x y false).2.c.toNat_le
  have hn : (aluSub config x y false).2.n = true ↔ (aluSub config x y false).1.toInt < 0 := by
    rw [← decide_eq_true_iff (p := (aluSub config x y false).1.toInt < 0), ← BitVec.msb_eq_toInt]; rfl
  have hv := aluSub_v_iff config x y false rfl
  rw [Bool.toNat_false] at hdiff hv
  rw [ne_eq, Bool.eq_iff_iff, hn, hv]
  omega

/-- CMP drives nothing and writes the flags of the subtraction (R179). -/
theorem alu_cmp (a b flags : Byte) : alu config .cmp a b flags =
    { result := none, flags := writeVncz config flags (aluSub config a b false).2 } := rfl

/-- Settles O23: the orders are the flags of `A - B` without borrow-in. -/
theorem compareOrders : Obligations.CompareOrders := by
  intro a b flags
  simp only [alu_cmp, getFlag_writeVncz_z, getFlag_writeVncz_c, getFlag_writeVncz_n, getFlag_writeVncz_v]
  exact ⟨trivial, aluSub_z_iff_eq config a b, aluSub_c_iff config a b false, aluSub_n_ne_v_iff a b⟩

/-! ### INC, DEC and NEG -/

/-- INC is the addition of 1 without carry-in (R176). -/
theorem alu_inc (a b flags : Byte) :
    alu config .inc a b flags = arithmeticOut config flags (aluAdd config a 1#8 false) := rfl

/-- DEC is the subtraction of 1 without borrow-in (R177). -/
theorem alu_dec (a b flags : Byte) :
    alu config .dec a b flags = arithmeticOut config flags (aluSub config a 1#8 false) := rfl

/-- NEG writes `Z`, then `N`, and no other flag (R178). -/
theorem alu_neg (a b flags : Byte) : alu config .neg a b flags =
    { result := some (0#8 - a)
      flags := setFlag config (setFlag config flags .z (0#8 - a == 0#8)) .n (0#8 - a).msb } := rfl

theorem aluAdd_one (a : Byte) : (aluAdd config a 1#8 false).1 = a + 1#8 := by
  apply BitVec.eq_of_toNat_eq
  rw [aluAdd_toNat, BitVec.toNat_add]
  rfl

theorem aluSub_one (a : Byte) : (aluSub config a 1#8 false).1 = a - 1#8 := BitVec.sub_zero _

/-- A carry out of adding 1 comes from 0xFF alone (R176). -/
theorem aluAdd_one_c_iff (a : Byte) : (aluAdd config a 1#8 false).2.c = true ↔ a = 0xFF#8 := by
  have hlt := a.isLt
  rw [aluAdd_c_iff, ← BitVec.toNat_inj]
  change 255 < a.toNat + 1 + 0 ↔ a.toNat = 255
  omega

/-- Signed overflow of adding 1 comes from 0x7F alone (R176). -/
theorem aluAdd_one_v_iff (a : Byte) : (aluAdd config a 1#8 false).2.v = true ↔ a = 0x7F#8 := by
  have ha := toInt_readings a
  rw [aluAdd_v_iff, ← BitVec.toInt_inj]
  change a.toInt + 1 + 0 < -128 ∨ 127 < a.toInt + 1 + 0 ↔ a.toInt = 127
  omega

/-- A borrow of subtracting 1 comes from 0x00 alone (R177). -/
theorem aluSub_one_c_iff (a : Byte) : (aluSub config a 1#8 false).2.c = true ↔ a = 0x00#8 := by
  rw [aluSub_c_iff, ← BitVec.toNat_inj]
  exact Nat.lt_one_iff

/-- Signed overflow of subtracting 1 comes from 0x80 alone (R177, D8). -/
theorem aluSub_one_v_iff (a : Byte) : (aluSub config a 1#8 false).2.v = true ↔ a = 0x80#8 := by
  have ha := toInt_readings a
  rw [aluSub_v_iff _ _ _ _ rfl, ← BitVec.toInt_inj]
  change a.toInt - 1 - 0 < -128 ∨ 127 < a.toInt - 1 - 0 ↔ a.toInt = -128
  omega

/-- Settles O24: INC and DEC are `Add` and `Sub` with operand 1; NEG sets two flags. -/
theorem incrementDecrementNegate : Obligations.IncrementDecrementNegate := by
  intro a b flags
  simp only [alu_inc, alu_dec, arithmeticOut, getFlag_writeVncz_v, getFlag_writeVncz_n, getFlag_writeVncz_c,
    getFlag_writeVncz_z, writeVncz_high]
  refine ⟨⟨congrArg some (aluAdd_one a), aluAdd_one_c_iff a, aluAdd_one_v_iff a, ?_, ?_, trivial⟩,
    ⟨congrArg some (aluSub_one a), aluSub_one_c_iff a, aluSub_one_v_iff a, ?_, ?_, trivial⟩, ?_⟩
  · rw [← aluAdd_one]; exact beq_iff_eq
  · rw [← aluAdd_one]; exact aluAdd_n ..
  · rw [← aluSub_one]; exact beq_iff_eq
  · rw [← aluSub_one]; rfl
  · refine ⟨rfl, ?_, ?_, getFlag_alu_neg openDefaults a b flags (by decide) (by decide),
      getFlag_alu_neg openDefaults a b flags (by decide) (by decide), alu_flags_high .neg a b flags⟩
    · simp [alu_neg, getFlag_setFlag_other]
    · rw [alu_neg, getLsbD_seven]
      exact getFlag_setFlag_same ..

/-! ### Multi-byte numbers -/

theorem addChain_length (cfg : Config) (pairs : List (Byte × Byte)) (cin : Bool) :
    (addChain cfg cin pairs).1.length = pairs.length := by
  induction pairs generalizing cin with
  | nil => rfl
  | cons p rest ih => exact congrArg (· + 1) (ih _)

theorem subChain_length (cfg : Config) (pairs : List (Byte × Byte)) (cin : Bool) :
    (subChain cfg cin pairs).1.length = pairs.length := by
  induction pairs generalizing cin with
  | nil => rfl
  | cons p rest ih => exact congrArg (· + 1) (ih _)

/-- A chain of additions adds the numbers: the carry out of each byte is the carry into the next (R181). -/
theorem valueOf_addChain (cfg : Config) (pairs : List (Byte × Byte)) (cin : Bool) :
    valueOf (addChain cfg cin pairs).1 + 256 ^ pairs.length * (addChain cfg cin pairs).2.toNat
      = valueOf (pairs.map Prod.fst) + valueOf (pairs.map Prod.snd) + cin.toNat := by
  induction pairs generalizing cin with
  | nil => simp [addChain, valueOf]
  | cons p rest ih =>
    have low := aluAdd_sum cfg p.1 p.2 cin
    have high := ih (aluAdd cfg p.1 p.2 cin).2.c
    simp only [addChain, valueOf, List.map_cons, List.length_cons, pow_succ]
    linear_combination low + 256 * high

/-- A chain of subtractions subtracts the numbers: the borrow of each byte is taken from the next (R181). -/
theorem valueOf_subChain (cfg : Config) (pairs : List (Byte × Byte)) (cin : Bool) :
    valueOf (subChain cfg cin pairs).1 + valueOf (pairs.map Prod.snd) + cin.toNat
      = valueOf (pairs.map Prod.fst) + 256 ^ pairs.length * (subChain cfg cin pairs).2.toNat := by
  induction pairs generalizing cin with
  | nil => simp [subChain, valueOf]
  | cons p rest ih =>
    have low := aluSub_difference cfg p.1 p.2 cin
    have high := ih (aluSub cfg p.1 p.2 cin).2.c
    simp only [subChain, valueOf, List.map_cons, List.length_cons, pow_succ]
    linear_combination low + 256 * high

/-- Settles O25, by induction on the pairs in both chains. -/
theorem carryChainsAddAndSubtract : Obligations.CarryChainsAddAndSubtract := fun pairs cin =>
  ⟨addChain_length config pairs cin, subChain_length config pairs cin,
    valueOf_addChain config pairs cin, valueOf_subChain config pairs cin⟩

end Sys2Proof.Machine
end

section
/-! PROOFS (43_load_store.md). The operand forms by the two addresses that decide their faults (R54, R266), the rows of
an opcode without override (R110), and the micro-steps that the forms take, those that fault included (R116, R293). -/

namespace Sys2Proof.Machine

/-! ### Operand forms and their faults -/

section
variable (op : Byte) {s : State}

/-- The operand fault is the address fault of step 3 (R266 a). -/
theorem raiseFault_atOperand (hpc : s.pc + 1#16 = 0xFFFF#16) :
    raiseFault (.addressOutOfRange 0x10000) (atOperand config op s) = operandFault op s := by
  simp [raiseFault, atOperand, afterFetch, operandFault, hpc]

/-- The pointer-cell fault is the address fault of step 4 (R266 b). -/
theorem raiseFault_atAddress_top :
    raiseFault (.addressOutOfRange 0x10000) (atAddress config op 0xFFFF#16 s) = pointerFault op s := rfl

theorem absolute_of_ne (addr : Word) (hpc : s.pc + 1#16 ≠ 0xFFFF#16) :
    absolute config op addr s = .ok (atAddress config op addr s) := by
  obtain ⟨-, e⟩ | ⟨hf, -⟩ := absolute_cases config op addr s
  · exact e
  · exact absurd hf hpc

theorem absolute_of_eq (addr : Word) (hpc : s.pc + 1#16 = 0xFFFF#16) :
    absolute config op addr s = .error (operandFault op s) := by
  obtain ⟨hf, -⟩ | ⟨-, e⟩ := absolute_cases config op addr s
  · exact absurd hpc hf
  · rw [e, raiseFault_atOperand op hpc]

/-- Where the indirect form leaves the machine when neither of its two reads faults (R192). -/
def atPointee (op : Byte) (cell : Word) (s : State) : State :=
  let ea := wordOfBytes (s.mem.read cell) (s.mem.read (cell + 1#16))
  { atAddress config op cell s with mar := ea, abus := ea, stepCounter := 5#4 }

theorem indirect_of_ne {cell : Word} (hpc : s.pc + 1#16 ≠ 0xFFFF#16) (hcell : cell ≠ 0xFFFF#16) :
    indirect config op cell s = .ok (atPointee op cell s) := by
  simp only [indirect, absolute_of_ne op cell hpc, atAddress_mem, readWord_of_ne s.mem hcell]
  rfl

theorem indirect_of_cell_eq (hpc : s.pc + 1#16 ≠ 0xFFFF#16) :
    indirect config op 0xFFFF#16 s = .error (pointerFault op s) := by
  simp only [indirect, absolute_of_ne op _ hpc, atAddress_mem, readWord_top, raiseFault_atAddress_top]

theorem indirect_of_eq (cell : Word) (hpc : s.pc + 1#16 = 0xFFFF#16) :
    indirect config op cell s = .error (operandFault op s) := by
  simp only [indirect, absolute_of_eq op cell hpc]

end

/-! ### ROM rows -/

/-- All flag rows of an opcode without override hold its own micro-program (R110, R116). -/
theorem rowsHold_of_execute {m : Mnemonic} {words : List ControlWord} (hbcs : m ≠ .bcs) (hbeq : m ≠ .beq)
    (h : (config.execute m).map (controlWord config) = words) : RowsHold (config.opcodeByte m) words := by
  intro f st
  rw [referenceRom_opcodeByte, overrideMnemonic_of_ne hbcs hbeq, microProgram, fetch0_config,
    fetch1_config, h]

/-! ### Micro-steps of a list of words -/

/-- One word is one micro-step, whether it completes or stops the machine. -/
@[simp] theorem playCount_singleton (w : MicroWord) (s : State) : playCount [w] s = 1 := by
  rw [playCount]
  cases playWord w s <;> rfl

/-- After a list that completes, the micro-steps of the words that follow are added. -/
theorem playCount_append_ok {xs : List MicroWord} (ys : List MicroWord) {s t : State}
    (h : playWords xs s = .ok t) : playCount (xs ++ ys) s = xs.length + playCount ys t := by
  induction xs generalizing s with
  | nil => obtain rfl := Except.ok.inj h; simp
  | cons w ws ih =>
    rw [playWords_cons] at h
    rw [List.cons_append, playCount]
    cases hw : playWord w s with
    | ok u => rw [hw] at h; simp only [ih h, List.length_cons]; omega
    | error u => rw [hw] at h; cases h

/-- No word is played after one that stops the machine (R145). -/
theorem playCount_append_error {xs : List MicroWord} (ys : List MicroWord) {s t : State}
    (h : playWords xs s = .error t) : playCount (xs ++ ys) s = playCount xs s := by
  induction xs generalizing s with
  | nil => cases h
  | cons w ws ih =>
    rw [playWords_cons] at h
    rw [List.cons_append, playCount, playCount]
    cases hw : playWord w s with
    | ok u => rw [hw] at h; simp only [ih h]
    | error u => rfl

/-- `ABS` is two micro-steps; if it faults, the second one does. -/
theorem playCount_absWords (op : Byte) (s : State) : playCount absWords (afterFetch config op s) = 2 := by
  rw [absWords, playCount_append_ok _ (playWords_immWords op s), playCount_singleton]
  rfl

/-- `IND` is three micro-steps, unless the operand fault cuts the last one off. -/
theorem playCount_indWords (op : Byte) (s : State) : playCount indWords (afterFetch config op s)
    = if s.pc + 1#16 = 0xFFFF#16 then 2 else 3 := by
  have habs := playWords_absWords op s
  by_cases hpc : s.pc + 1#16 = 0xFFFF#16
  · rw [indWords, playCount_append_error _ (habs.trans (absolute_of_eq op _ hpc)), playCount_absWords,
      if_pos hpc]
  · rw [indWords, playCount_append_ok _ (habs.trans (absolute_of_ne op _ hpc)), playCount_singleton,
      if_neg hpc]
    rfl

/-! ### Micro-steps of a cycle -/

section
variable {m : Mnemonic} {ys : List MicroWord} {s : State} {k : Nat}

/-- The immediate form: the fetch, `IMM` and the rest of the program. -/
theorem cycleLength_immediate (hp : executeWords m s.flags = immWords ++ ys)
    (hy : ∀ t, playCount ys t = k) : cycleLength m s = k + 3 := by
  have hlen : immWords.length = 1 := rfl
  rw [cycleLength, hp, playCount_append_ok ys (playWords_immWords _ s), hy, hlen]
  omega

/-- The absolute form: the fetch, `ABS` and the rest of the program, which the operand fault cuts off. -/
theorem cycleLength_absolute (hp : executeWords m s.flags = absWords ++ ys)
    (hy : ∀ t, playCount ys t = k) :
    cycleLength m s = if s.pc + 1#16 = 0xFFFF#16 then 4 else k + 4 := by
  have hplay := playWords_absWords (config.opcodeByte m) s
  have hlen : absWords.length = 2 := rfl
  rw [cycleLength, hp]
  by_cases hpc : s.pc + 1#16 = 0xFFFF#16
  · rw [playCount_append_error ys (hplay.trans (absolute_of_eq _ _ hpc)), playCount_absWords, if_pos hpc]
  · rw [playCount_append_ok ys (hplay.trans (absolute_of_ne _ _ hpc)), hy, hlen, if_neg hpc]
    omega

/-- The indirect form: the fetch, `IND` and the rest of the program, which each of its two faults cuts
off. -/
theorem cycleLength_indirect (hp : executeWords m s.flags = indWords ++ ys)
    (hy : ∀ t, playCount ys t = k) :
    cycleLength m s = if s.pc + 1#16 = 0xFFFF#16 then 4
      else if operandWord s = 0xFFFF#16 then 5 else k + 5 := by
  have hplay := playWords_indWords (config.opcodeByte m) s
  have hlen : indWords.length = 3 := rfl
  rw [cycleLength, hp]
  by_cases hpc : s.pc + 1#16 = 0xFFFF#16
  · rw [playCount_append_error ys (hplay.trans (indirect_of_eq _ _ hpc)), playCount_indWords]
    simp only [if_pos hpc]
  by_cases hcell : operandWord s = 0xFFFF#16
  · rw [hcell] at hplay
    rw [playCount_append_error ys (hplay.trans (indirect_of_cell_eq _ hpc)), playCount_indWords]
    simp only [if_neg hpc, if_pos hcell]
  · rw [playCount_append_ok ys (hplay.trans (indirect_of_ne _ hpc hcell)), hy, hlen]
    simp only [if_neg hpc, if_neg hcell]
    omega

end

/-! ### Cycles of an instruction that is fetched -/

theorem mnemonic_instrAt (m : Mnemonic) (s : State) : (instrAt m s).mnemonic = m := by
  cases m <;> rfl

/-- An instruction that is fetched has the operand that stands after its opcode (R71). -/
theorem State.Fetches.eq_instrAt_mnemonic {s : State} {i : Instr} (h : s.Fetches i) :
    i = instrAt i.mnemonic s := by
  obtain ⟨m, -, rfl⟩ := h.eq_instrAt
  rw [mnemonic_instrAt]

/-- An instruction takes as many micro-steps as the cycle that fetches it. -/
theorem cycleCount_of_cycleLength {i : Instr} {s : State} {n : Nat}
    (h : s.Fetches i → cycleLength i.mnemonic s = n) : CycleCount i s n := by
  intro hs hi
  obtain ⟨m, t, rfl, ht, hc, -⟩ := exec_cycleTakes hs hi
  rw [← h hi, mnemonic_instrAt]
  exact ⟨t, ht, hc⟩

/-! ### Instructions of the absolute and of the indirect form -/

section
variable {i : Instr} {op : Byte} {s : State} {f : State → State} {ys : List MicroWord} {k : Nat}

/-- An instruction that does `f` at its address, by words that take `k` micro-steps after `ABS`. -/
theorem absoluteForm_of_thenDo {addr : Word} (he : exec i s = thenDo (absolute config op addr s) f)
    (hp : executeWords i.mnemonic s.flags = absWords ++ ys) (hy : ∀ t, playCount ys t = k) :
    AbsoluteForm i op s (f (atAddress config op addr s)) (k + 4) := by
  refine ⟨fun hpc => ⟨?_, cycleCount_of_cycleLength fun _ => ?_⟩,
    fun hpc => ⟨?_, cycleCount_of_cycleLength fun _ => ?_⟩⟩
  · rw [he, absolute_of_ne op addr hpc]; rfl
  · rw [cycleLength_absolute hp hy, if_neg hpc]
  · rw [he, absolute_of_eq op addr hpc]; rfl
  · rw [cycleLength_absolute hp hy, if_pos hpc]

/-- What an instruction with a pointer cell answers, and in how many micro-steps: the operand fault, the
pointer-cell fault, or `t` in `n` (the indirect counterpart of `AbsoluteForm`). -/
def IndirectForm (i : Instr) (op : Byte) (cell : Word) (s t : State) (n : Nat) : Prop :=
  (s.pc + 1#16 = 0xFFFF#16 → exec i s = .next (operandFault op s) ∧ CycleCount i s 4) ∧
    (s.pc + 1#16 ≠ 0xFFFF#16 → cell = 0xFFFF#16 →
      exec i s = .next (pointerFault op s) ∧ CycleCount i s 5) ∧
    (s.pc + 1#16 ≠ 0xFFFF#16 → cell ≠ 0xFFFF#16 → exec i s = .next t ∧ CycleCount i s n)

/-- An instruction that does `f` at the address its cell holds, by words that take `k` micro-steps after
`IND`. -/
theorem indirectForm_of_thenDo {cell : Word} (he : exec i s = thenDo (indirect config op cell s) f)
    (hcell : s.Fetches i → cell = operandWord s)
    (hp : executeWords i.mnemonic s.flags = indWords ++ ys) (hy : ∀ t, playCount ys t = k) :
    IndirectForm i op cell s (f (atPointee op cell s)) (k + 5) := by
  refine ⟨fun hpc => ⟨?_, cycleCount_of_cycleLength fun _ => ?_⟩,
    fun hpc htop => ⟨?_, cycleCount_of_cycleLength fun hi => ?_⟩,
    fun hpc hne => ⟨?_, cycleCount_of_cycleLength fun hi => ?_⟩⟩
  · rw [he, indirect_of_eq op cell hpc]; rfl
  · rw [cycleLength_indirect hp hy, if_pos hpc]
  · rw [he, htop, indirect_of_cell_eq op hpc]; rfl
  · rw [cycleLength_indirect hp hy, if_neg hpc, ← hcell hi, if_pos htop]
  · rw [he, indirect_of_ne op hpc hne]; rfl
  · rw [cycleLength_indirect hp hy, if_neg hpc, ← hcell hi, if_neg hne]

end

end Sys2Proof.Machine
end

section
/-! PROOFS (43_load_store.md). The loads and stores: encoding, rows, next state and micro-steps (R190 to R194). -/

namespace Sys2Proof.Machine

/-- Settles O28: after `IMM` one word is left. -/
theorem lodiLoadsImmediate : Obligations.LodiLoadsImmediate := fun _ _ =>
  ⟨rfl, rowsHold_of_execute (m := .lodi) (by decide) (by decide) (by decide), rfl,
    cycleCount_of_cycleLength fun _ => cycleLength_immediate rfl (playCount_singleton _)⟩

/-- Settles O29: the absolute form, then the load. -/
theorem lodaLoadsAbsolute : Obligations.LodaLoadsAbsolute := fun _ _ =>
  ⟨rfl, rowsHold_of_execute (m := .loda) (by decide) (by decide) (by decide),
    absoluteForm_of_thenDo (f := loadA) rfl rfl (playCount_singleton loadWord)⟩

/-- Settles O31: the absolute form, then the store. -/
theorem stoaStoresAbsolute : Obligations.StoaStoresAbsolute := fun _ _ =>
  ⟨rfl, rowsHold_of_execute (m := .stoa) (by decide) (by decide) (by decide),
    absoluteForm_of_thenDo (f := storeA) rfl rfl (playCount_singleton storeWord)⟩

/-- Settles O30: the indirect form, then the load. -/
theorem lodnLoadsThroughAPointer : Obligations.LodnLoadsThroughAPointer := fun _ _ =>
  ⟨rfl, rowsHold_of_execute (m := .lodn) (by decide) (by decide) (by decide),
    indirectForm_of_thenDo (f := loadA) rfl (fun hi => Instr.lodn.inj hi.eq_instrAt_mnemonic) rfl
      (playCount_singleton loadWord)⟩

/-- Settles O32: the indirect form, then the store; the pointer is read before it. -/
theorem stonStoresThroughAPointer : Obligations.StonStoresThroughAPointer := fun _ _ =>
  ⟨rfl, rowsHold_of_execute (m := .ston) (by decide) (by decide) (by decide),
    indirectForm_of_thenDo (f := storeA) rfl (fun hi => Instr.ston.inj hi.eq_instrAt_mnemonic) rfl
      (playCount_singleton storeWord)⟩

end Sys2Proof.Machine
end

section
/-! PROOFS (44_arithmetic.md). The three forms of an instruction that ends in an ALU word, for any mode, so that they
serve 45_logical.md too: the state after each, from what the ALU puts out, its rows (R116), and its micro-steps
(R293). -/

namespace Sys2Proof.Machine

/-! ### What the ALU puts out -/

section
variable (a b flags : Byte)

/-- ADD is the addition of `B` without carry-in (R168). -/
theorem alu_add : alu config .add a b flags = arithmeticOut config flags (aluAdd config a b false) := rfl

/-- SUB is the subtraction of `B` without borrow-in (R169). -/
theorem alu_sub : alu config .sub a b flags = arithmeticOut config flags (aluSub config a b false) := rfl

/-- ADC takes its carry-in from `FLAGS` (R174). -/
theorem alu_adc : alu config .adc a b flags
    = arithmeticOut config flags (aluAdd config a b (getFlag config flags .c)) := rfl

/-- SBC takes its borrow-in from `FLAGS` (R175). -/
theorem alu_sbc : alu config .sbc a b flags
    = arithmeticOut config flags (aluSub config a b (getFlag config flags .c)) := rfl

end

/-! ### The state after each form -/

/-- `A`, the data bus and `FLAGS` after an ALU word; a mode without result leaves `A`, and the bus idles (R162, R179).
An addition's or a subtraction's output leaves `withResult`. -/
def withOutput (out : AluOut) (s : State) : State :=
  { s with a := out.result.getD s.a, dbus := out.result.getD 0xFF#8, flags := out.flags }

section
variable (mode : AluMode) (op : Byte) (s : State)

/-- The ALU finds the operand byte in `B`. -/
theorem aluImmediate_eq (m : Byte) : aluImmediate config mode op m s
    = .next (withOutput (alu config mode s.a m s.flags) (afterImmediate op m 0xFF#8 s)) := rfl

/-- The ALU finds the byte at the instruction's address in `B`. -/
theorem aluStep_atAddress (ea : Word) : aluStep config mode (loadB (atAddress config op ea s))
    = withOutput (alu config mode s.a (s.mem.read ea) s.flags) (afterAbsolute op ea 0xFF#8 s) := rfl

/-- The ALU finds `B` as it was. -/
theorem aluAccumulator_eq : aluAccumulator config mode op s
    = .next (withOutput (alu config mode s.a s.b s.flags) (afterAccumulator op 0xFF#8 s)) := rfl

end

/-! ### Rows -/

/-- BCS and BEQ, the opcodes with override rows, have programs of one word (R111, R116). -/
theorem rowsHold_of_execute_two {m : Mnemonic} {v w : MicroWord} {ws : List MicroWord}
    (h : config.execute m = v :: w :: ws) :
    RowsHold (config.opcodeByte m) ((v :: w :: ws).map (controlWord config)) := by
  refine rowsHold_of_execute ?_ ?_ (congrArg _ h)
  · rintro rfl; cases h
  · rintro rfl; cases h

section
variable {m : Mnemonic} {w : MicroWord}

theorem rowsHold_immediate (h : config.execute m = immToB ++ [w]) :
    RowsHold (config.opcodeByte m) [0x00000401#32, 0x00022010#32, controlWord config w] :=
  rowsHold_of_execute_two h

theorem rowsHold_absolute (h : config.execute m = absToB ++ [w]) : RowsHold (config.opcodeByte m)
    [0x00000401#32, 0x00040404#32, 0x00002010#32, controlWord config w] :=
  rowsHold_of_execute_two h

end

/-! ### Instructions of each form -/

/-- A word that does not stop the machine, then one more: two micro-steps. -/
theorem playCount_pair {v : MicroWord} (w : MicroWord) {s t : State} (hv : playWord v s = .ok t) :
    playCount [v, w] s = 2 := by
  rw [playCount, hv]
  simp only [playCount_singleton]

section
variable {i : Instr} {mode : AluMode} {op : Byte} {s : State} {out : AluOut} {w : MicroWord}

theorem exec_immediate {m : Byte} (he : exec i s = aluImmediate config mode op m s)
    (hout : alu config mode s.a m s.flags = out) :
    exec i s = .next (withOutput out (afterImmediate op m 0xFF#8 s)) := by
  rw [he, aluImmediate_eq, hout]

/-- The fetch, `IMM`, the latch into `B` and the ALU word. -/
theorem cycleCount_immediate (hp : executeWords i.mnemonic s.flags = immToB ++ [w]) : CycleCount i s 5 :=
  cycleCount_of_cycleLength fun _ => cycleLength_immediate hp fun t =>
    playCount_pair w (playWord_of_not_mao t (by decide) (by decide) (by decide) (by decide))

/-- The fetch, `ABS`, the load of `B` and the ALU word, or the operand fault. -/
theorem absoluteForm_aluAbsolute {ea : Word} (he : exec i s = aluAbsolute config mode op ea s)
    (hp : executeWords i.mnemonic s.flags = absToB ++ [w])
    (hout : alu config mode s.a (s.mem.read ea) s.flags = out) :
    AbsoluteForm i op s (withOutput out (afterAbsolute op ea 0xFF#8 s)) 6 := by
  rw [← hout, ← aluStep_atAddress]
  exact absoluteForm_of_thenDo he hp fun t => playCount_pair w (playWord_loadB t)

theorem exec_accumulator (he : exec i s = aluAccumulator config mode op s)
    (hout : alu config mode s.a s.b s.flags = out) :
    exec i s = .next (withOutput out (afterAccumulator op 0xFF#8 s)) := by
  rw [he, aluAccumulator_eq, hout]

/-- The fetch and the ALU word. -/
theorem cycleCount_accumulator (hp : executeWords i.mnemonic s.flags = [w]) : CycleCount i s 3 :=
  cycleCount_of_cycleLength fun _ => by rw [cycleLength, hp, playCount_singleton]

end

end Sys2Proof.Machine
end

section
/-! PROOFS (44_arithmetic.md). The arithmetic instructions: encoding, rows, next state, micro-steps (R200 to R212). -/

namespace Sys2Proof.Machine

/-- Settles O33: the immediate form in the modes ADD, SUB, ADC and SBC; `C` after SUBI is `Sub`'s borrow. -/
theorem immediateArithmetic : Obligations.ImmediateArithmetic := fun m s =>
  ⟨⟨rfl, rowsHold_immediate (m := .addi) (w := aluWord .add) rfl,
      exec_immediate rfl (alu_add s.a m s.flags), cycleCount_immediate rfl⟩,
    ⟨rfl, rowsHold_immediate (m := .subi) (w := aluWord .sub) rfl,
      exec_immediate rfl (alu_sub s.a m s.flags), aluSub_c_iff config s.a m false, cycleCount_immediate rfl⟩,
    ⟨rfl, rowsHold_immediate (m := .adci) (w := aluWord .adc) rfl,
      exec_immediate rfl (alu_adc s.a m s.flags), cycleCount_immediate rfl⟩,
    ⟨rfl, rowsHold_immediate (m := .sbci) (w := aluWord .sbc) rfl,
      exec_immediate rfl (alu_sbc s.a m s.flags), cycleCount_immediate rfl⟩⟩

/-- Settles O34: the absolute form in the modes ADD, SUB, ADC and SBC. -/
theorem absoluteArithmetic : Obligations.AbsoluteArithmetic := fun ea s =>
  ⟨⟨rfl, rowsHold_absolute (m := .adda) (w := aluWord .add) rfl,
      absoluteForm_aluAbsolute rfl rfl (alu_add s.a (s.mem.read ea) s.flags)⟩,
    ⟨rfl, rowsHold_absolute (m := .suba) (w := aluWord .sub) rfl,
      absoluteForm_aluAbsolute rfl rfl (alu_sub s.a (s.mem.read ea) s.flags)⟩,
    ⟨rfl, rowsHold_absolute (m := .adca) (w := aluWord .adc) rfl,
      absoluteForm_aluAbsolute rfl rfl (alu_adc s.a (s.mem.read ea) s.flags)⟩,
    ⟨rfl, rowsHold_absolute (m := .sbca) (w := aluWord .sbc) rfl,
      absoluteForm_aluAbsolute rfl rfl (alu_sbc s.a (s.mem.read ea) s.flags)⟩⟩

/-- Settles O35: both forms in the mode CMP, which has no result; `Z` and `C` are those of `Sub`. -/
theorem compareInstructions : Obligations.CompareInstructions := fun m ea s =>
  ⟨⟨rfl, rowsHold_immediate (m := .cmpi) (w := cmpWord) rfl, exec_immediate rfl (alu_cmp s.a m s.flags),
      aluSub_z_iff_eq config s.a m, aluSub_c_iff config s.a m false, cycleCount_immediate rfl⟩,
    ⟨rfl, rowsHold_absolute (m := .cmpa) (w := cmpWord) rfl,
      absoluteForm_aluAbsolute rfl rfl (alu_cmp s.a (s.mem.read ea) s.flags)⟩⟩

/-- Settles O36: the form on `A` alone in the modes INC, DEC and NEG; NEG writes `Z` and `N` alone. -/
theorem accumulatorArithmetic : Obligations.AccumulatorArithmetic := fun s =>
  ⟨⟨rfl, rowsHold_of_execute (m := .inc) (by decide) (by decide) (by decide),
      exec_accumulator rfl (alu_inc s.a s.b s.flags), cycleCount_accumulator rfl⟩,
    ⟨rfl, rowsHold_of_execute (m := .dec) (by decide) (by decide) (by decide),
      exec_accumulator rfl (alu_dec s.a s.b s.flags), cycleCount_accumulator rfl⟩,
    ⟨rfl, rowsHold_of_execute (m := .neg) (by decide) (by decide) (by decide),
      exec_accumulator rfl (alu_neg s.a s.b s.flags), cycleCount_accumulator rfl⟩⟩

end Sys2Proof.Machine
end

section
/-! PROOFS (45_logical.md). The logical instructions: encoding, rows, next state, micro-steps (R220 to R224). That
no flag is written is the law of their modes (R164 to R166, `nonArithmeticModes`). -/

namespace Sys2Proof.Machine

/-- Settles O37: the immediate form in the modes AND and OR, and the form on `A` alone in the mode NOT. -/
theorem logicalImmediateAndNot : Obligations.LogicalImmediateAndNot := fun m s =>
  have ⟨_, hand, hor, _⟩ := nonArithmeticModes openDefaults s.a m s.flags
  have ⟨_, _, _, hnot⟩ := nonArithmeticModes openDefaults s.a s.b s.flags
  ⟨⟨rfl, rowsHold_immediate (m := .andi) (w := aluWord .and) rfl, exec_immediate rfl hand,
      cycleCount_immediate rfl⟩,
    ⟨rfl, rowsHold_immediate (m := .ori) (w := aluWord .or) rfl, exec_immediate rfl hor,
      cycleCount_immediate rfl⟩,
    ⟨rfl, rowsHold_of_execute (m := .not) (by decide) (by decide) (by decide), exec_accumulator rfl hnot,
      cycleCount_accumulator rfl⟩⟩

/-- Settles O38: the absolute form in the modes AND and OR, the operand fault included. -/
theorem logicalAbsolute : Obligations.LogicalAbsolute := fun ea s =>
  have ⟨_, hand, hor, _⟩ := nonArithmeticModes openDefaults s.a (s.mem.read ea) s.flags
  ⟨⟨rfl, rowsHold_absolute (m := .anda) (w := aluWord .and) rfl, absoluteForm_aluAbsolute rfl rfl hand⟩,
    ⟨rfl, rowsHold_absolute (m := .ora) (w := aluWord .or) rfl, absoluteForm_aluAbsolute rfl rfl hor⟩⟩

end Sys2Proof.Machine
end

section
/-! PROOFS (46_branch_jump.md). The taken transfer and the branch not taken, the rows and micro-steps of each, and the
branches and JMP made of them (R225 to R238). -/

namespace Sys2Proof.Machine

/-! ### The transfer taken and the branch not taken -/

/-- The state after a taken transfer that does not fault: `PC` is not moved past the operand on the way (R225). -/
def afterJump (op : Byte) (target : Word) (s : State) : State :=
  { s with pc := target, mar := s.pc + 1#16, abus := target, dbus := 0xFF#8, ir := op, stepCounter := 0#4 }

/-- The state after a branch not taken: `MAR` and the address bus stay where the fetch left them (R230, R232). -/
def afterSkip (op : Byte) (s : State) : State :=
  { s with pc := s.pc + 3#16, mar := s.pc, abus := s.pc, dbus := 0xFF#8, ir := op, stepCounter := 0#4 }

section
variable (op : Byte) (target : Word) {s : State}

theorem jumpTo_of_ne (hpc : s.pc + 1#16 ≠ 0xFFFF#16) :
    jumpTo config op target s = .next (afterJump op target s) := by
  obtain ⟨-, e⟩ | ⟨hf, -⟩ := jumpTo_cases config op target s
  · exact e
  · exact absurd hf hpc

theorem jumpTo_of_eq (hpc : s.pc + 1#16 = 0xFFFF#16) :
    jumpTo config op target s = .next (operandFault op s) := by
  obtain ⟨hf, -⟩ | ⟨-, e⟩ := jumpTo_cases config op target s
  · exact absurd hpc hf
  · rw [e, raiseFault_atOperand op hpc]

/-- A branch not taken does not read its operand, so it cannot fault. -/
theorem skipOperand_eq (s : State) : skipOperand config op s = .next (afterSkip op s) := rfl

end

/-! ### Rows -/

/-- JMP's program, in all flag rows (R116). -/
theorem rowsHold_jmp : RowsHold (config.opcodeByte .jmp) [0x00000401#32, 0x40000204#32] :=
  rowsHold_of_execute (by decide) (by decide) (by decide)

/-- A wired branch has JMP's words in the rows whose flag bit is set, and the word that skips the operand in
the others (R111). -/
theorem rowHolds_branch {f : BitVec 4} {m : Mnemonic} {taken : Bool}
    (hsel : overrideMnemonic config f m = if taken then .jmp else m) (hskip : config.execute m = [skipWord]) :
    RowHolds f (config.opcodeByte m)
      (if taken then [0x00000401#32, 0x40000204#32] else [0x40040000#32]) := by
  cases taken with
  | false => exact referenceRom_of_override_self hsel hskip
  | true => exact fun st => (referenceRom_of_override_jmp hsel st).trans (rowsHold_jmp f st)

/-! ### Instructions that jump, that skip, and that do one or the other -/

section
variable {i : Instr} {op : Byte} {target : Word} {s : State}

/-- The fetch, `IMM` and the word that moves the operand into `PC`, or faults reading it (R238). -/
theorem absoluteForm_jumpTo (he : exec i s = jumpTo config op target s)
    (hp : executeWords i.mnemonic s.flags = jumpWords) :
    AbsoluteForm i op s (afterJump op target s) 4 := by
  have count : CycleCount i s 4 :=
    cycleCount_of_cycleLength fun _ => cycleLength_immediate hp (playCount_singleton _)
  exact ⟨fun hpc => ⟨he.trans (jumpTo_of_ne op target hpc), count⟩,
    fun hpc => ⟨he.trans (jumpTo_of_eq op target hpc), count⟩⟩

/-- The fetch and one word. -/
theorem skips_of_executeWords (he : exec i s = skipOperand config op s)
    (hp : executeWords i.mnemonic s.flags = [skipWord]) :
    exec i s = .next (afterSkip op s) ∧ CycleCount i s 3 :=
  ⟨he.trans (skipOperand_eq op s), cycleCount_accumulator hp⟩

/-- A wired branch by the flag it tests: `exec` and the ROM decide alike (R230, R231). -/
theorem branch_cases {taken : Bool}
    (he : exec i s = if taken then jumpTo config op target s else skipOperand config op s)
    (hp : executeWords i.mnemonic s.flags = if taken then jumpWords else [skipWord]) :
    (taken = false → exec i s = .next (afterSkip op s) ∧ CycleCount i s 3) ∧
      (taken = true → AbsoluteForm i op s (afterJump op target s) 4) := by
  constructor
  · rintro rfl
    exact skips_of_executeWords he hp
  · rintro rfl
    exact absoluteForm_jumpTo he hp

/-- An unwired branch: no flag row overrides the word that skips the operand (R77, R112). -/
theorem unwired_skips (hops : operandBytes config i = [lowByte target, highByte target])
    (hsel : ∀ f, overrideMnemonic config f i.mnemonic = i.mnemonic)
    (hskip : config.execute i.mnemonic = [skipWord]) (he : exec i s = skipOperand config (opcode i) s) :
    encode i = [opcode i, lowByte target, highByte target] ∧ RowsHold (opcode i) [0x40040000#32] ∧
      exec i s = .next (afterSkip (opcode i) s) ∧ CycleCount i s 3 :=
  ⟨congrArg (opcode i :: ·) hops, fun f => referenceRom_of_override_self (hsel f) hskip,
    skips_of_executeWords he ((congrArg config.execute (hsel _)).trans hskip)⟩

end

/-! ### The statements -/

/-- Settles O39: BCS tests `C` and BEQ tests `Z`, in `exec` as in the choice of the ROM row. -/
theorem wiredBranches : Obligations.WiredBranches := fun target s =>
  ⟨⟨rfl, fun _ => rowHolds_branch (m := .bcs) rfl rfl,
      branch_cases (i := .bcs target) rfl (executeWords_bcs s.flags)⟩,
    ⟨rfl, fun _ => rowHolds_branch (m := .beq) rfl rfl,
      branch_cases (i := .beq target) rfl (executeWords_beq s.flags)⟩⟩

/-- Settles O40: the six are unwired branches. -/
theorem unwiredBranchesSkipTheirOperand : Obligations.UnwiredBranchesSkipTheirOperand := by
  intro target s i op h
  simp only [List.mem_cons, Prod.mk.injEq, List.not_mem_nil, or_false] at h
  obtain ⟨rfl, rfl⟩ | ⟨rfl, rfl⟩ | ⟨rfl, rfl⟩ | ⟨rfl, rfl⟩ | ⟨rfl, rfl⟩ | ⟨rfl, rfl⟩ := h
  all_goals exact unwired_skips rfl (fun _ => rfl) rfl rfl

/-- Settles O41: JMP is the taken transfer, whatever the flags. -/
theorem jmpJumps : Obligations.JmpJumps := fun _ _ => ⟨rfl, rowsHold_jmp, absoluteForm_jumpTo rfl rfl⟩

end Sys2Proof.Machine
end

section
/-! PROOFS (70_reset_and_hazards.md). The micro-step count of every instruction that does not fault (R293): its
micro-program is played to the last word. And the host's load (R283). -/

namespace Sys2Proof.Machine

/-! ### Micro-step counts -/

/-- The table of R293 gives the fetch and the words of each micro-program (R116). -/
theorem microStepCount_eq_length (i : Instr) (flags : Byte) :
    microStepCount i flags = (executeWords i.mnemonic flags).length + 2 := by
  cases i
  case bcs =>
    rw [Instr.mnemonic, executeWords_bcs, microStepCount]
    cases getFlag config flags .c <;> rfl
  case beq =>
    rw [Instr.mnemonic, executeWords_beq, microStepCount]
    cases getFlag config flags .z <;> rfl
  all_goals rfl

/-- A list that is played to its end takes a micro-step for each word. -/
theorem playCount_of_ok {ws : List MicroWord} {s t : State} (h : playWords ws s = .ok t) :
    playCount ws s = ws.length := by
  simpa [playCount] using playCount_append_ok [] h

/-- A word stops the machine by a fault, or is the halt word. -/
theorem playWord_error_cases {w : MicroWord} {s t : State} (h : playWord w s = .error t) :
    (∃ r, t.run = .faulted r) ∨ .hlt ∈ w.signals := by
  rw [playWord] at h
  split at h
  · next hh => exact .inr hh
  · split at h
    · cases h
    · next r _ => obtain rfl := Except.error.inj h; exact .inl ⟨r, rfl⟩

/-- A list of words is cut short by a fault, or it holds the halt word. -/
theorem playWords_error_cases {ws : List MicroWord} {s t : State} (h : playWords ws s = .error t) :
    (∃ r, t.run = .faulted r) ∨ ∃ w ∈ ws, .hlt ∈ w.signals := by
  induction ws generalizing s with
  | nil => cases h
  | cons w ws ih =>
    rw [playWords_cons] at h
    cases hw : playWord w s with
    | ok u =>
      rw [hw] at h
      exact (ih h).imp_right fun ⟨v, hv, hh⟩ => ⟨v, List.mem_cons_of_mem _ hv, hh⟩
    | error u =>
      rw [hw] at h
      obtain rfl := Except.error.inj h
      exact (playWord_error_cases hw).imp_right fun hh => ⟨w, List.mem_cons_self, hh⟩

/-- A cycle that ends without a fault plays every word; HALT's only word is counted though it stops the
machine. -/
theorem cycleLength_of_not_faulted {m : Mnemonic} {s : State}
    (h : ∀ r, (endState (playWords (executeWords m s.flags)
      (afterFetch config (config.opcodeByte m) s))).run ≠ .faulted r) :
    cycleLength m s = (executeWords m s.flags).length + 2 := by
  cases hp : playWords (executeWords m s.flags) (afterFetch config (config.opcodeByte m) s) with
  | ok t => rw [cycleLength, playCount_of_ok hp]
  | error t =>
    rw [hp] at h
    obtain ⟨r, hr⟩ | ⟨w, hw, hh⟩ := playWords_error_cases hp
    · exact absurd hr (h r)
    · obtain ⟨n, hn⟩ := List.mem_iff_getElem?.mp hw
      obtain ⟨rfl, -⟩ := eq_halt_of_hlt_mem hn hh
      exact congrArg (· + 2) (playCount_singleton _ _)

/-- Settles O50: what does not fault plays its whole micro-program, and the table counts its words. -/
theorem microStepCountOfEveryInstruction : Obligations.MicroStepCountOfEveryInstruction := by
  intro i s t hs hi ht hrun
  obtain ⟨m, u, rfl, hu, hc, -⟩ := exec_cycleTakes hs hi
  obtain rfl := Host.Outcome.next.inj (hu.symm.trans ht)
  obtain rfl := Host.Outcome.next.inj ((exec_instrAt m s).symm.trans ht)
  rwa [microStepCount_eq_length, mnemonic_instrAt, ← cycleLength_of_not_faulted hrun]

/-- An instruction that does not fault takes the micro-steps of the table wherever it is fetched (R293). -/
theorem cycleCount_of_not_faulted {i : Instr} {s t : State} (ht : exec i s = .next t)
    (hrun : s.run = .running → ∀ r, t.run ≠ .faulted r) : CycleCount i s (microStepCount i s.flags) :=
  fun hs hi => ⟨t, ht, microStepCountOfEveryInstruction i s t hs hi ht (hrun hs.1.1)⟩

/-! ### The host's load -/

theorem loadImage_of_not_fits {base : Nat} {image : List Byte} (s : State)
    (h : 65536 < base + image.length) : loadImage base image s = none :=
  if_neg (by omega)

/-- An image that fits stands at its addresses, over the memory that was there (R283). -/
theorem read_writeBytes_of_fits {base : Nat} {image : List Byte} (m : Memory) (x : Word)
    (hfit : base + image.length ≤ 65536) :
    (writeBytes m (BitVec.ofNat 16 base) image).read x = if base ≤ x.toNat ∧ x.toNat < base + image.length
      then image.getD (x.toNat - base) 0#8 else m.read x := by
  cases image with
  | nil => rw [if_neg (by rw [List.length_nil]; omega)]; rfl
  | cons v rest =>
    have hbase : (BitVec.ofNat 16 base).toNat = base := by
      rw [List.length_cons] at hfit
      rw [BitVec.toNat_ofNat]
      omega
    have hread := read_writeBytes (v :: rest) m (BitVec.ofNat 16 base) x (by rwa [hbase])
    rwa [hbase] at hread

/-- Settles O27: what fits is written over memory alone, and what does not fit is refused. -/
theorem loadedImageStandsAtItsAddresses : Obligations.LoadedImageStandsAtItsAddresses :=
  fun _ _ s => ⟨loadImage_of_not_fits s,
    fun hfit => ⟨_, if_pos hfit, rfl, fun x => read_writeBytes_of_fits s.mem x hfit⟩⟩

end Sys2Proof.Machine
end

section
/-! PROOFS (47_stack_halt.md). PSHA, POPA and HALT: encoding, rows, next state and micro-steps (R250 to R252); a
pop after a push. -/

namespace Sys2Proof.Machine

/-- The state after PSHA: `SP` moves down, modulo 65536, and `A` is stored at its new place (R250). -/
def afterPush (s : State) : State :=
  { s with sp := s.sp - 1#16, mem := s.mem.write (s.sp - 1#16) s.a, pc := s.pc + 1#16
           mar := s.sp - 1#16, abus := s.sp - 1#16, dbus := s.a, ir := 0x20#8, stepCounter := 0#4 }

/-- The state after POPA: `A` is loaded from where `SP` was, and `SP` moves up (R251). -/
def afterPop (s : State) : State :=
  { s with a := s.mem.read s.sp, sp := s.sp + 1#16, pc := s.pc + 1#16, mar := s.sp, abus := s.sp
           dbus := s.mem.read s.sp, ir := 0x21#8, stepCounter := 0#4 }

theorem exec_psha (s : State) : exec .psha s = .next (afterPush s) := by
  rw [afterPush, ← registerAdd_neg_one]
  rfl

theorem exec_popa (s : State) : exec .popa s = .next (afterPop s) := rfl

/-- Settles O42: no word of PSHA's program can fault. -/
theorem pshaPushes : Obligations.PshaPushes := fun s =>
  ⟨rfl, rowsHold_of_execute (m := .psha) (by decide) (by decide) (by decide), exec_psha s,
    cycleCount_of_not_faulted (exec_psha s) fun hs => by simp [afterPush, hs]⟩

/-- Settles O43: no word of POPA's program can fault. -/
theorem popaPops : Obligations.PopaPops := fun s =>
  ⟨rfl, rowsHold_of_execute (m := .popa) (by decide) (by decide) (by decide), exec_popa s,
    cycleCount_of_not_faulted (exec_popa s) fun hs => by simp [afterPop, hs]⟩

/-- Settles O44: HALT's look-up stops the machine right after the fetch, and a stopped machine takes no step. -/
theorem haltStopsTheEngine : Obligations.HaltStopsTheEngine := fun s =>
  have ⟨_, stopped⟩ := stoppedMachineTakesNoStep
  have ⟨noMicroStep, noStep⟩ := stopped config referenceRom
    (haltEngine (afterFetch config (opcode .halt) s)) (by simp)
  ⟨rfl, rowsHold_of_execute (m := .halt) (by decide) (by decide) (by decide),
    cycleCount_of_not_faulted (i := .halt) rfl fun _ => by simp,
    _, rfl, rfl, fun u => ⟨noMicroStep u, noStep u⟩⟩

/-- Settles O58: the pop reads the address the push has just written. -/
theorem popRestoresWhatPushSaved : Obligations.PopRestoresWhatPushSaved := fun s between =>
  ⟨afterPush s, afterPop { afterPush s with a := between }, exec_psha s, exec_popa _,
    read_write_same .., BitVec.sub_add_cancel .., read_write_same ..⟩

end Sys2Proof.Machine
end

section
/-! PROOFS (60_exceptions.md). Which of the events of a micro-step decides (R263), and what the two causes of a
fault in the reference machine leave: an undefined opcode (R265) and a two-byte read at 0xFFFF (R266). -/

namespace Sys2Proof.Machine

/-! ### The first event decides -/

section
variable {cfg : Config} {rom : Rom} {s : State}

theorem microStepWith_of_running (h : s.run = .running) :
    microStepWith cfg rom s = .next (microStepRunning cfg rom s) := by
  simp only [microStepWith, h]

/-- A look-up that fails faults before any signal is looked at (R119). -/
theorem microStepRunning_of_undefined (hd : definedOpcode cfg s.ir = false) :
    microStepRunning cfg rom s = raiseFault (.undefinedOpcode s.ir) s := by
  simp [microStepRunning, lookUp, hd]

/-- The halt bit is looked at before every other signal (R133). -/
theorem microStepRunning_of_hlt (hd : definedOpcode cfg s.ir = true)
    (hh : asserts cfg (rom (romAddress s)) .hlt = true) : microStepRunning cfg rom s = haltEngine s := by
  simp [microStepRunning, lookUp, hd, hh]

/-- A word whose phases fault commits nothing but `RUN` (R145). -/
theorem microStepRunning_of_applyWord_error {r : EngineFault} (hd : definedOpcode cfg s.ir = true)
    (hh : asserts cfg (rom (romAddress s)) .hlt = false)
    (ha : applyWord cfg (rom (romAddress s)) s = .error r) :
    microStepRunning cfg rom s = raiseFault r s := by
  simp [microStepRunning, lookUp, hd, hh, ha]

end

section
variable {cfg : Config} {cw : ControlWord} {s : State}

/-- The address fault of phase 1 comes before the ALU is looked at (R134, R136). -/
theorem applyWord_of_addressFault (hm : asserts cfg cw .mao = true) (hmar : s.mar = 0xFFFF#16) :
    applyWord cfg cw s = .error (.addressOutOfRange 0x10000) := by
  obtain ⟨hne, -⟩ | ⟨-, hread⟩ := readWord_cases cfg s.mem s.mar
  · exact absurd hmar hne
  · simp [applyWord, phaseAddressOut_eq, hm, hread, Except.map]

/-- Without the address fault phase 1 goes on. -/
theorem phaseAddressOut_of_no_fault (h : ¬(asserts cfg cw .mao = true ∧ s.mar = 0xFFFF#16)) :
    ∃ t, phaseAddressOut cfg cw (phaseIdle cfg s) = .ok t := by
  obtain ⟨addr, e⟩ | ⟨hm, hmar, -⟩ := phaseAddressOut_cases cfg cw (phaseIdle cfg s)
  · exact ⟨_, e⟩
  · exact absurd ⟨hm, hmar⟩ h

/-- A reserved mode faults where the address bus did not (R167). -/
theorem applyWord_of_reserved (hno : ¬(asserts cfg cw .mao = true ∧ s.mar = 0xFFFF#16))
    (hmode : aluModeOfCode cfg (aluField cfg cw) = none) :
    applyWord cfg cw s = .error (.reservedAluMode (aluField cfg cw)) := by
  obtain ⟨t, ht⟩ := phaseAddressOut_of_no_fault hno
  simp [applyWord, ht, phaseAlu, hmode]

/-- With neither, the word is applied: the spec's rule of undefined opcodes faults at the look-up alone (D15). -/
theorem applyWord_of_no_event {mode : AluMode} (hno : ¬(asserts cfg cw .mao = true ∧ s.mar = 0xFFFF#16))
    (hmode : aluModeOfCode cfg (aluField cfg cw) = some mode)
    (hlatch : ∀ data, faultsAtLatch cfg cw data = false) : ∃ t, applyWord cfg cw s = .ok t := by
  obtain ⟨t, ht⟩ := phaseAddressOut_of_no_fault hno
  simp [applyWord, ht, phaseAlu, hmode, hlatch]

end

/-- Settles O11: look-up, halt bit, address bus and ALU, in the order the micro-step looks at them. -/
theorem firstEventDecides : Obligations.FirstEventDecides := by
  intro p rom s hrun cfg cw addressFault reserved
  have hcode : aluModeOfCode cfg (aluField cfg cw) = none ↔ reserved := aluModeOfCode_eq_none _
  have hdef : s.ir.toNat ≤ 0x22 → definedOpcode cfg s.ir = true := (definedOpcode_iff _).mpr
  rw [microStepWith_of_running hrun]
  refine ⟨fun hir => ?_, fun hir hh => ?_, fun hir hh hmem => ?_, fun hir hh hno hres => ?_,
    fun hir hh hno hres => ?_⟩
  · exact congrArg _ (microStepRunning_of_undefined (definedOpcode_eq_false_of_le hir))
  · exact congrArg _ (microStepRunning_of_hlt (hdef hir) hh)
  · obtain ⟨hm, hmar⟩ := hmem
    exact congrArg _ (microStepRunning_of_applyWord_error (hdef hir) hh (applyWord_of_addressFault hm hmar))
  · exact congrArg _ (microStepRunning_of_applyWord_error (hdef hir) hh
      (applyWord_of_reserved hno (hcode.mpr hres)))
  · obtain ⟨mode, hmode⟩ := Option.ne_none_iff_exists'.mp (mt hcode.mp hres)
    obtain ⟨t, ht⟩ := applyWord_of_no_event hno hmode (faultsAtLatch_specConfig p cw)
    exact ⟨t, ht, congrArg _ (microStepRunning_of_applyWord (hdef hir) rfl hh ht),
      (applyWord_frame ht).1.trans hrun⟩

/-! ### Instructions that fault -/

/-- `t` is a fault only as the operand fault or the pointer-cell fault of an instruction at `s` (R266). -/
def FaultsAtReads (op : Byte) (s t : State) : Prop :=
  (∃ r, t.run = .faulted r) → t = operandFault op s ∨ t = pointerFault op s

section
variable {op : Byte} {s t : State}

theorem faultsAtReads_of_not_faulted (h : ∀ r, t.run ≠ .faulted r) : FaultsAtReads op s t :=
  fun ⟨r, hr⟩ => absurd hr (h r)

theorem faultsAtReads_of_running (h : t.run = .running) : FaultsAtReads op s t :=
  faultsAtReads_of_not_faulted fun _ => by simp [h]

variable (hs : s.run = .running)
include hs

theorem faultsAtReads_thenDo_absolute {addr : Word} {f : State → State} (hf : ∀ u, (f u).run = u.run)
    (ht : thenDo (absolute config op addr s) f = .next t) : FaultsAtReads op s t := by
  by_cases hpc : s.pc + 1#16 = 0xFFFF#16
  · rw [absolute_of_eq op addr hpc] at ht
    exact fun _ => .inl (Host.Outcome.next.inj ht).symm
  · rw [absolute_of_ne op addr hpc] at ht
    obtain rfl := Host.Outcome.next.inj ht
    exact faultsAtReads_of_running ((hf _).trans hs)

theorem faultsAtReads_thenDo_indirect {cell : Word} {f : State → State} (hf : ∀ u, (f u).run = u.run)
    (ht : thenDo (indirect config op cell s) f = .next t) : FaultsAtReads op s t := by
  by_cases hpc : s.pc + 1#16 = 0xFFFF#16
  · rw [indirect_of_eq op cell hpc] at ht
    exact fun _ => .inl (Host.Outcome.next.inj ht).symm
  by_cases hcell : cell = 0xFFFF#16
  · rw [hcell, indirect_of_cell_eq op hpc] at ht
    exact fun _ => .inr (Host.Outcome.next.inj ht).symm
  · rw [indirect_of_ne op hpc hcell] at ht
    obtain rfl := Host.Outcome.next.inj ht
    exact faultsAtReads_of_running ((hf _).trans hs)

theorem faultsAtReads_jumpTo {addr : Word} (ht : jumpTo config op addr s = .next t) : FaultsAtReads op s t := by
  by_cases hpc : s.pc + 1#16 = 0xFFFF#16
  · rw [jumpTo_of_eq op addr hpc] at ht
    exact fun _ => .inl (Host.Outcome.next.inj ht).symm
  · rw [jumpTo_of_ne op addr hpc] at ht
    obtain rfl := Host.Outcome.next.inj ht
    exact faultsAtReads_of_running hs

theorem faultsAtReads_skipOperand (ht : skipOperand config op s = .next t) : FaultsAtReads op s t := by
  obtain rfl := Host.Outcome.next.inj ht
  exact faultsAtReads_of_running hs

/-- Only the two-byte reads of an operand and of a pointer cell fault an instruction (R266). -/
theorem faultsAtReads_exec {i : Instr} (ht : exec i s = .next t) : FaultsAtReads (opcode i) s t := by
  cases i
  case lodi | popa | psha | addi | subi | adci | sbci | cmpi | andi | ori | inc | dec | neg | not =>
    obtain rfl := Host.Outcome.next.inj ht
    exact faultsAtReads_of_running hs
  case halt => obtain rfl := Host.Outcome.next.inj ht; exact faultsAtReads_of_not_faulted (by simp)
  case loda => exact faultsAtReads_thenDo_absolute hs loadA_run ht
  case stoa => exact faultsAtReads_thenDo_absolute hs storeA_run ht
  case lodn => exact faultsAtReads_thenDo_indirect hs loadA_run ht
  case ston => exact faultsAtReads_thenDo_indirect hs storeA_run ht
  case adda | suba | adca | sbca | cmpa | anda | ora =>
    exact faultsAtReads_thenDo_absolute hs (fun u => aluStep_run config _ (loadB u)) ht
  case bne | bcc | bmi | bpl | bvs | bvc => exact faultsAtReads_skipOperand hs ht
  case jmp => exact faultsAtReads_jumpTo hs ht
  case bcs | beq =>
    simp only [exec, execBcs, execBeq] at ht
    split at ht
    · exact faultsAtReads_jumpTo hs ht
    · exact faultsAtReads_skipOperand hs ht

end

/-- Settles O47: neither of the two faults comes after a write. -/
theorem faultedInstructionWritesNothing : Obligations.FaultedInstructionWritesNothing := by
  intro i s t r hs ht hr
  obtain rfl | rfl := faultsAtReads_exec hs ht ⟨r, hr⟩
  all_goals exact ⟨(RunState.faulted.inj hr).symm, rfl, rfl, rfl, rfl, rfl, rfl, rfl⟩

/-! ### Undefined opcodes -/

/-- Settles O51: the fetch ends with the undefined byte in `IR`, where every look-up faults. -/
theorem undefinedOpcodeFaultsAtStepTwo : Obligations.UndefinedOpcodeFaultsAtStepTwo := by
  intro s hs hb
  have hd := definedOpcode_eq_false_of_le hb
  have ⟨_, stopped⟩ := stoppedMachineTakesNoStep
  have ⟨_, noStep⟩ := stopped config referenceRom (raiseFault (.undefinedOpcode (s.mem.read s.pc))
    (afterFetch config (s.mem.read s.pc) s)) (by simp)
  have ⟨_, lookUpFaults⟩ := undefinedOpcodeRowsAreZero
  exact ⟨_, step_of_undefined hs ((decode_eq_undefinedOpcode_iff _ _).mpr hd), rfl,
    cycleTakes_undefinedFetched hs hd, noStep, fun rom => lookUpFaults openDefaults rom _ hb⟩

end Sys2Proof.Machine
end
